-- ==== Sys2Proof/Word.lean ====
section
/-! DEFINITION. The block's words: 32-bit registers, 8-bit buffer elements, 5-bit register numbers and
bit sequences (00_scope.md R11, R12; 10_state.md R21; 20_memory.md R64). -/

namespace Sys2Proof

/-- A register value or a command word, 32 bits (R21, R80). All values are unsigned (R11). -/
abbrev Word := BitVec 32

/-- A buffer element: a byte or a character code, 8 bits (R12, R64). -/
abbrev Byte := BitVec 8

/-- A register number, 0x00 to 0x1F (R21; log 15). -/
abbrev RegNum := BitVec 5

/-- A finite sequence of bits, element 0 first (R12). -/
abbrev Bits := List Bool

end Sys2Proof
end

