-- ==== Sys2Proof/Config.lean ====
section
/-! DEFINITION. What an implementation fixes: the parameters of 00_scope.md R9. They are one structure, so
that every meaning and every statement is about every implementation R9 allows, and the reset state uses
R9's defaults (log 3). -/

namespace Sys2Proof

/-- The open parameters of R9. -/
structure Config where
  /-- BB_CAP_BITS: capacity of the visible BitBuffer, in bits. -/
  bbCapBits : Nat
  /-- BYTE_CAP: element count of BYTES. -/
  byteCap : Nat
  /-- CHAR_CAP: element count of CHARS. -/
  charCap : Nat
  /-- TLV_CAP: element count of TLV. -/
  tlvCap : Nat
  /-- INVALID_PASSCODES: the reserved invalid passcode values. -/
  invalidPasscodes : List Nat
deriving DecidableEq, Repr

/-- R9's constraints on the parameters. The upper bounds 2^32 are DEDUCED (log 4): the counts are held in
32-bit registers, and R31 reads len(S) as `zext_32(len(S))`. -/
abbrev Config.Wf (c : Config) : Prop :=
  (c.bbCapBits % 8 = 0 ∧ 88 ≤ c.bbCapBits ∧ c.bbCapBits < 2 ^ 32) ∧
  (11 ≤ c.byteCap ∧ c.byteCap < 2 ^ 32) ∧
  (24 ≤ c.charCap ∧ c.charCap < 2 ^ 32) ∧
  c.tlvCap < 2 ^ 32 ∧
  ∀ p ∈ c.invalidPasscodes, p < 2 ^ 27

/-- R9's default values. -/
def Config.default : Config where
  bbCapBits := 1024
  byteCap := 128
  charCap := 256
  tlvCap := 117
  invalidPasscodes :=
    [0, 11111111, 22222222, 33333333, 44444444, 55555555, 66666666, 77777777, 88888888, 99999999,
     12345678, 87654321]

/-- BLOCK_BASE (R60): where the platform puts the register space in a host's address map. OPEN, and read by
no rule: host accesses name a register number directly (log 12). -/
opaque Config.blockBase : Nat

end Sys2Proof
end

