-- ==== Sys2Proof/Machine/State.lean ====
section
/-! DEFINITION. The block's state as plain data (10_state.md R20 to R50), the host's accesses (20_memory.md
R64), the error codes (60_exceptions.md R221), the model's fault and refusal reasons, and reset. -/

namespace Sys2Proof.Machine

/-- The three buffer address spaces (R60). -/
inductive Space where
  | bytes
  | chars
  | tlv
deriving DecidableEq, Repr

/-- The implemented registers (R21). -/
inductive Reg where
  | cmd | status | arg0 | res0 | bbWlen | bbRpos | bbRemain | blen | clen | tlvlen
  | recVersion | recVid | recPid | recFlow | recCaps | recDisc | recPasscode | recPadding
  | recDiscShort | recHasTlv
deriving DecidableEq, Repr

/-- The values of STATUS.ERR (R221). Codes 14 to 255 are never written, so they have no constructor
(log 8). -/
inductive ErrorCode where
  | none
  | range
  | validation
  | invalidCharacter
  | invalidLength
  | invalidEncoding
  | checksumMismatch
  | truncatedData
  | unsupportedVersion
  | invalidFormat
  | passcodeOutOfRange
  | capacity
  | alignment
  | illegalCommand
deriving DecidableEq, Repr

/-- Why the model stops (R226: "No other model fault exists"). -/
inductive Fault where
  /-- UNINIT_READ: raised by a host BufRead, or a command, that reads element `index` of `space` before
  anything has written it since reset (R65). The hardware returns some byte; the model stops. Safe. -/
  | uninitRead (space : Space) (index : Nat)
deriving DecidableEq, Repr

/-- Why the model has no meaning for a command. -/
inductive Refusal where
  /-- Raised by an arm of `exec` whose command has no meaning yet; no arm raises it now. Safe. -/
  | notModelled (mnemonic : String)
deriving DecidableEq, Repr

/-- How a command's pseudocode ends early: with an error of the block (`raise E`, R13) or with the model's
fault (R65). -/
inductive Stop where
  | raise (e : ErrorCode)
  | fault (f : Fault)
deriving DecidableEq, Repr

/-- One entry of what the host and the platform do to the block: the four accesses of R64, and the reset
input of R250. A command is a `regWrite` of its word to CMD (R23, R88). -/
inductive HostAccess where
  | regRead (n : RegNum)
  | regWrite (n : RegNum) (v : Word)
  | bufRead (space : Space) (i : Nat)
  | bufWrite (space : Space) (i : Nat) (v : Byte)
  | reset
deriving DecidableEq, Repr

/-- What a host read returns: a whole register or a whole buffer element (R64). -/
inductive Response where
  | reg (v : Word)
  | elem (v : Byte)
deriving DecidableEq, Repr

/-- A buffer memory: (index, element) pairs with strictly rising indices. An element that nothing has
written since reset is not listed and has no value (R65; log 2). -/
abbrev Memory := List Host.Cell

/-- The canonical form of a buffer memory. An unlisted element has no value, so no entry can equal it. -/
abbrev Memory.wf (m : Memory) : Prop := (m.map Prod.fst).Pairwise (· < ·)

/-- Every listed element exists: its index is below the capacity (R60). -/
abbrev Memory.within (cap : Nat) (m : Memory) : Prop := ∀ c ∈ m, c.1 < cap

/-- The record register file (R35 to R44): each register stores all 32 bits written, but for
REC_DISC_SHORT, which is one bit (R44). -/
structure Record where
  version : Word
  vid : Word
  pid : Word
  flow : Word
  caps : Word
  disc : Word
  passcode : Word
  padding : Word
  discShort : Bool
deriving DecidableEq, Repr

/-- The record registers after reset (R50). -/
def Record.reset : Record := ⟨0, 0, 0, 0, 0, 0, 0, 0, false⟩

/-- The machine: the block's architectural state (R20), its implementation parameters (R9), and the two
lists by which the host reaches it. -/
structure State where
  /-- The model's own: the implementation parameters (R9; log 3). No step changes them. -/
  cfg : Config
  /-- The model's own: the accesses still to come, oldest first (log 1). -/
  host : List HostAccess
  /-- The model's own: what the host's reads returned, oldest first (log 7). -/
  responses : List Response
  /-- STATUS.ERR (R24). -/
  err : ErrorCode
  /-- ARG0 (R25). -/
  arg0 : Word
  /-- RES0 (R26). -/
  res0 : Word
  /-- BLEN (R27). -/
  blen : Word
  /-- CLEN (R28). -/
  clen : Word
  /-- TLVLEN (R29). -/
  tlvlen : Word
  /-- The BitBuffer stream S, S[0] first (R30). -/
  stream : Bits
  /-- The BitBuffer read cursor RPOS (R32). -/
  rpos : Nat
  /-- BYTES (R61). -/
  bytes : Memory
  /-- CHARS (R62). -/
  chars : Memory
  /-- TLV (R63). -/
  tlv : Memory
  /-- REC_VERSION to REC_DISC_SHORT (R35 to R44). -/
  record : Record
deriving DecidableEq, Repr

/-- The block right after reset, with R9's default parameters (R50): every register 0, S empty, no buffer
element written, and no access pending. -/
def State.reset : State where
  cfg := Config.default
  host := []
  responses := []
  err := .none
  arg0 := 0
  res0 := 0
  blen := 0
  clen := 0
  tlvlen := 0
  stream := []
  rpos := 0
  bytes := []
  chars := []
  tlv := []
  record := Record.reset

/-! One update per field; `Sys2Proof/Laws/State.lean` has a lemma per field per update. -/

def State.setHost (s : State) (v : List HostAccess) : State := { s with host := v }
def State.setResponses (s : State) (v : List Response) : State := { s with responses := v }
def State.setErr (s : State) (v : ErrorCode) : State := { s with err := v }
def State.setArg0 (s : State) (v : Word) : State := { s with arg0 := v }
def State.setRes0 (s : State) (v : Word) : State := { s with res0 := v }
def State.setBlen (s : State) (v : Word) : State := { s with blen := v }
def State.setClen (s : State) (v : Word) : State := { s with clen := v }
def State.setTlvlen (s : State) (v : Word) : State := { s with tlvlen := v }
def State.setStream (s : State) (v : Bits) : State := { s with stream := v }
def State.setRpos (s : State) (v : Nat) : State := { s with rpos := v }
def State.setBytes (s : State) (v : Memory) : State := { s with bytes := v }
def State.setChars (s : State) (v : Memory) : State := { s with chars := v }
def State.setTlv (s : State) (v : Memory) : State := { s with tlv := v }
def State.setRecord (s : State) (v : Record) : State := { s with record := v }

/-- The memory of a buffer space (R60). -/
def State.mem (s : State) : Space → Memory
  | .bytes => s.bytes
  | .chars => s.chars
  | .tlv => s.tlv

/-- The capacity of a buffer space (R60). -/
def State.cap (s : State) : Space → Nat
  | .bytes => s.cfg.byteCap
  | .chars => s.cfg.charCap
  | .tlv => s.cfg.tlvCap

/-- What the block does next: wait, run a command word, or answer another access. Each carries the state in
which it happens, the access taken off the list. -/
inductive Fetch where
  | idle
  | command (w : Word) (s : State)
  | access (a : HostAccess) (s : State)
deriving DecidableEq, Repr

end Sys2Proof.Machine
end

