-- ==== Sys2Proof/Machine/Ops.lean ====
section
/-! DEFINITION. The named operations over buffers, and how a command ends: `raise`, and the commit rule that
reports success or an error (60_exceptions.md R222, R223). The block has no trap: an error is a value in
STATUS.ERR, nothing is saved and nothing is returned from (R229, R230). -/

namespace Sys2Proof.Machine

/-- Element `i` of a buffer, none when nothing has written it since reset (R65). -/
def Memory.read : Memory → Nat → Option Byte
  | [], _ => none
  | (j, v) :: m, i => if i = j then some v else Memory.read m i

/-- Write element `i`, keeping the canonical form. -/
def Memory.write : Memory → Nat → Byte → Memory
  | [], i, v => [(i, v)]
  | (j, w) :: m, i, v =>
    if i < j then (i, v) :: (j, w) :: m
    else if i = j then (i, v) :: m
    else (j, w) :: Memory.write m i v

/-- Write a sequence to elements `k`, `k+1`, ... -/
def Memory.writeSeq (m : Memory) (k : Nat) : List Byte → Memory
  | [] => m
  | v :: vs => Memory.writeSeq (m.write k v) (k + 1) vs

/-- Read `n` elements from `k` on, in increasing order; the first one that nothing has written is the fault
UNINIT_READ (R65; log 11). -/
def readFrom (space : Space) (m : Memory) (k : Nat) : Nat → Except Stop (List Byte)
  | 0 => .ok []
  | n + 1 =>
    match m.read k with
    | none => .error (.fault (.uninitRead space k))
    | some v => (readFrom space m (k + 1) n).map (v :: ·)

/-- `[MemRead(SPACE:k, 1) for k in 0..n]` (R13). -/
def readElems (s : State) (space : Space) (n : Nat) : Except Stop (List Byte) :=
  readFrom space (s.mem space) 0 n

/-- A command's byte result: elements 0 to n-1 of BYTES and BLEN = n; other elements keep their contents
(R61). -/
def storeBytes (s : State) (vs : List Byte) : State :=
  (s.setBytes (s.bytes.writeSeq 0 vs)).setBlen (BitVec.ofNat 32 vs.length)

/-- A command's text result: elements 0 to n-1 of CHARS and CLEN = n; other elements keep their contents
(R62). -/
def storeChars (s : State) (vs : List Byte) : State :=
  (s.setChars (s.chars.writeSeq 0 vs)).setClen (BitVec.ofNat 32 vs.length)

/-- A parse's TLV result: elements 0 to n-1 of TLV and TLVLEN = n (R63, R181). -/
def storeTlv (s : State) (vs : List Byte) : State :=
  (s.setTlv (s.tlv.writeSeq 0 vs)).setTlvlen (BitVec.ofNat 32 vs.length)

/-- `if c: raise E` (R13). -/
def raiseIf (c : Prop) [Decidable c] (e : ErrorCode) : Except Stop Unit :=
  if c then .error (.raise e) else .ok ()

/-- `raise E` outside a check. -/
def raiseErr {α : Type} (e : ErrorCode) : Except Stop α := .error (.raise e)

/-- The effect of an error (R223, R229): STATUS.ERR gets its code and nothing else changes. -/
def reportError (s : State) (e : ErrorCode) : State := s.setErr e

/-- commit (R222, R223): on success the pseudocode's writes and STATUS.ERR = 0; on `raise E` none of them
and STATUS.ERR = E, in the state `s` the command found; an unwritten operand is the model's fault. -/
def commit (s : State) (r : Except Stop State) : Host.Outcome State Fault Refusal :=
  match r with
  | .ok s' => .next (s'.setErr .none)
  | .error (.raise e) => .next (reportError s e)
  | .error (.fault f) => .fault f

end Sys2Proof.Machine
end

