-- ==== Sys2Proof/Machine/Operands.lean ====
section
/-! DEFINITION. Operand forms: bits of a value and value of bits (00_scope.md R15), stream fields and byte
images (10_state.md R34), decimal digits (R15), and ASCII digits (42_verhoeff.md R156). -/

namespace Sys2Proof.Machine

/-- `bits_of(v, w)` = `[v[0], v[1], ..., v[w-1]]` (R15). -/
def bitsOf (v w : Nat) : Bits := (List.range w).map (fun j => v.testBit j)

/-- `val_of(b)` = sum over k of `b[k] * 2^k` (R15). -/
def valOf : Bits → Nat
  | [] => 0
  | b :: bs => b.toNat + 2 * valOf bs

/-- The bits of a byte sequence, each byte least significant bit first (R34, R67). -/
def bitImage : List Byte → Bits
  | [] => []
  | v :: vs => bitsOf v.toNat 8 ++ bitImage vs

/-- The field of `width` bits at position `pos` of a stream, as BB.RDBITS reads it (R103). -/
def fieldAt (stream : Bits) (pos width : Nat) : Nat := valOf ((stream.drop pos).take width)

/-- The byte image of a stream: bit k of it is bit (k mod 8) of byte (k div 8), and a final partial byte has
0 above its bits (R34, R106). -/
def byteImage (stream : Bits) : List Byte :=
  (List.range ((stream.length + 7) / 8)).map (fun k => BitVec.ofNat 8 (fieldAt stream (8 * k) 8))

/-- The bytes BB.RDBYTES reads: `n` whole bytes of the stream from position `pos` (R105). -/
def streamBytes (stream : Bits) (pos n : Nat) : List Byte :=
  (List.range n).map (fun k => BitVec.ofNat 8 (fieldAt stream (pos + 8 * k) 8))

/-- The digits of `dec(v, n)`: n decimal digits of v, most significant first, padded with 0 (R15). -/
def decDigits (v : Nat) : Nat → List Nat
  | 0 => []
  | n + 1 => decDigits (v / 10) n ++ [v % 10]

/-- `num(ds)`: the number whose most-significant-first decimal digits are ds (R15). -/
def num (ds : List Nat) : Nat := ds.foldl (fun a d => 10 * a + d) 0

/-- The ASCII code of a decimal digit (R12). -/
def digitChar (d : Nat) : Byte := BitVec.ofNat 8 (0x30 + d)

/-- `'0' <= c <= '9'` (R156). -/
def isDigit (c : Byte) : Bool := decide (0x30 ≤ c.toNat ∧ c.toNat ≤ 0x39)

/-- `c - 0x30`, for a digit (R156). -/
def digitVal (c : Byte) : Nat := c.toNat - 0x30

end Sys2Proof.Machine
end

