-- ==== Sys2Proof/Machine/Base38.lean ====
section
/-! DEFINITION. The Base38 codec: its alphabet and group table, its pure functions and its two commands
(41_base38.md R130 to R139). The alphabet's order is the spec's, from general knowledge (log 10). -/

namespace Sys2Proof.Machine

/-- The Base38 alphabet, value k at position k: `0`-`9`, `A`-`Z`, `-`, `.` (R130). -/
def alphabet38 : List Byte :=
  [0x30, 0x31, 0x32, 0x33, 0x34, 0x35, 0x36, 0x37, 0x38, 0x39,
   0x41, 0x42, 0x43, 0x44, 0x45, 0x46, 0x47, 0x48, 0x49, 0x4A, 0x4B, 0x4C, 0x4D,
   0x4E, 0x4F, 0x50, 0x51, 0x52, 0x53, 0x54, 0x55, 0x56, 0x57, 0x58, 0x59, 0x5A,
   0x2D, 0x2E]

/-- `val38(c)`: the value of a character code, none outside the alphabet (R131). -/
def val38 (c : Byte) : Option Nat := alphabet38.findIdx? (fun a => a == c)

/-- `in38(c)` (R131). -/
def in38 (c : Byte) : Bool := (val38 c).isSome

/-- `chr38(k)`, for 0 <= k <= 37 (R131). -/
def chr38 (k : Nat) : Byte := alphabet38.getD k 0

/-- The characters of a value: m base-38 digits, least significant first (R133). -/
def digits38 (v : Nat) : Nat → List Byte
  | 0 => []
  | m + 1 => chr38 (v % 38) :: digits38 (v / 38) m

/-- The little-endian value of a byte group (R68, R133). -/
def groupVal : List Byte → Nat
  | [] => 0
  | v :: vs => v.toNat + 256 * groupVal vs

/-- `b38enc` (R133): 3 bytes to 5 characters, with tails of 2 bytes to 4 and 1 byte to 2 (R132). -/
def b38enc : List Byte → List Byte
  | [] => []
  | [b0] => digits38 (groupVal [b0]) 2
  | [b0, b1] => digits38 (groupVal [b0, b1]) 4
  | b0 :: b1 :: b2 :: rest => digits38 (groupVal [b0, b1, b2]) 5 ++ b38enc rest

/-- `b38len(n)`: characters for n bytes (R134). -/
def b38len (n : Nat) : Nat := 5 * (n / 3) + (if n % 3 = 0 then 0 else if n % 3 = 1 then 2 else 4)

/-- `b38bytes(L)`: bytes for L characters, L mod 5 in 0, 2, 4 (R134). -/
def b38bytes (l : Nat) : Nat := 3 * (l / 5) + (if l % 5 = 0 then 0 else if l % 5 = 2 then 1 else 2)

/-- The value of a character group, its first character least significant (R135). -/
def charsVal : List Byte → Nat
  | [] => 0
  | c :: cs => (val38 c).getD 0 + 38 * charsVal cs

/-- The n bytes of a value, little-endian (R135). -/
def bytesOf (v : Nat) : Nat → List Byte
  | 0 => []
  | n + 1 => BitVec.ofNat 8 (v % 256) :: bytesOf (v / 256) n

/-- One group of `b38dec`: INVALID_ENCODING when its value does not fit n bytes (R135). -/
def decodeGroup (cs : List Byte) (n : Nat) : Except Stop (List Byte) := do
  raiseIf (2 ^ (8 * n) ≤ charsVal cs) .invalidEncoding
  return bytesOf (charsVal cs) n

/-- The groups of `b38dec` in order: 5 characters to 3 bytes, with tails of 4 to 2 and 2 to 1 (R135). A tail
of 1 or 3 is excluded by the length check before. -/
def decodeGroups : List Byte → Except Stop (List Byte)
  | [] => .ok []
  | [_] => raiseErr .invalidLength
  | [c0, c1] => decodeGroup [c0, c1] 1
  | [_, _, _] => raiseErr .invalidLength
  | [c0, c1, c2, c3] => decodeGroup [c0, c1, c2, c3] 2
  | c0 :: c1 :: c2 :: c3 :: c4 :: rest => do
    let g ← decodeGroup [c0, c1, c2, c3, c4] 3
    let gs ← decodeGroups rest
    return g ++ gs

/-- `b38dec` (R135): INVALID_LENGTH, then INVALID_CHARACTER anywhere, then INVALID_ENCODING group by
group. -/
def b38dec (t : List Byte) : Except Stop (List Byte) := do
  raiseIf (t.length % 5 = 1 ∨ t.length % 5 = 3) .invalidLength
  raiseIf (¬ t.all in38) .invalidCharacter
  decodeGroups t

/-- B38.ENC (R136): BYTES[0..BLEN) to CHARS, or raise CAPACITY. -/
def execB38Enc (s : State) : Host.Outcome State Fault Refusal :=
  commit s do
    let n := s.blen.toNat
    raiseIf (s.cfg.byteCap < n) .capacity
    raiseIf (s.cfg.charCap < b38len n) .capacity
    let data ← readElems s .bytes n
    return storeChars s (b38enc data)

/-- B38.DEC (R137): CHARS[0..CLEN) to BYTES, or raise CAPACITY, INVALID_LENGTH, INVALID_CHARACTER or
INVALID_ENCODING. -/
def execB38Dec (s : State) : Host.Outcome State Fault Refusal :=
  commit s do
    let l := s.clen.toNat
    raiseIf (s.cfg.charCap < l) .capacity
    raiseIf (l % 5 = 1 ∨ l % 5 = 3) .invalidLength
    raiseIf (s.cfg.byteCap < b38bytes l) .capacity
    let text ← readElems s .chars l
    let data ← b38dec text
    return storeBytes s data

end Sys2Proof.Machine
end

