-- ==== Sys2Proof/Machine/BitBuffer.lean ====
section
/-! DEFINITION. The BitBuffer commands (40_bitbuffer.md R100 to R109). Each meaning is its rule's pseudocode,
checks in the rule's order, under the commit rule (60_exceptions.md R223). -/

namespace Sys2Proof.Machine

/-- BB.CLEAR (R101): empty S and set RPOS to 0. -/
def execBbClear (s : State) : Host.Outcome State Fault Refusal :=
  commit s (.ok ((s.setStream []).setRpos 0))

/-- BB.WRBITS (R102): append the `width` low bits of ARG0, or raise RANGE or CAPACITY. -/
def execBbWrbits (width : Nat) (s : State) : Host.Outcome State Fault Refusal :=
  commit s do
    raiseIf (width < 1 ∨ 32 < width) .range
    raiseIf (2 ^ width ≤ s.arg0.toNat) .range
    raiseIf (s.cfg.bbCapBits < s.stream.length + width) .capacity
    return s.setStream (s.stream ++ bitsOf s.arg0.toNat width)

/-- BB.RDBITS (R103): consume the next `width` bits into RES0, or raise RANGE or TRUNCATED_DATA. -/
def execBbRdbits (width : Nat) (s : State) : Host.Outcome State Fault Refusal :=
  commit s do
    raiseIf (width < 1 ∨ 32 < width) .range
    raiseIf (s.stream.length - s.rpos < width) .truncatedData
    return (s.setRes0 (BitVec.ofNat 32 (fieldAt s.stream s.rpos width))).setRpos (s.rpos + width)

/-- BB.APPEND (R104): append BYTES[0..BLEN) at a whole-byte position, or raise CAPACITY or ALIGNMENT. -/
def execBbAppend (s : State) : Host.Outcome State Fault Refusal :=
  commit s do
    let n := s.blen.toNat
    raiseIf (s.cfg.byteCap < n) .capacity
    raiseIf (s.stream.length % 8 ≠ 0) .alignment
    raiseIf (s.cfg.bbCapBits < s.stream.length + 8 * n) .capacity
    let data ← readElems s .bytes n
    return s.setStream (s.stream ++ bitImage data)

/-- BB.RDBYTES (R105): consume ARG0 whole bytes into BYTES, or raise CAPACITY, ALIGNMENT or
TRUNCATED_DATA. -/
def execBbRdbytes (s : State) : Host.Outcome State Fault Refusal :=
  commit s do
    let n := s.arg0.toNat
    raiseIf (s.cfg.byteCap < n) .capacity
    raiseIf (s.rpos % 8 ≠ 0) .alignment
    raiseIf (s.stream.length - s.rpos < 8 * n) .truncatedData
    return (storeBytes s (streamBytes s.stream s.rpos n)).setRpos (s.rpos + 8 * n)

/-- BB.TOBYTES (R106): export the byte image of the whole stream to BYTES, or raise CAPACITY. -/
def execBbTobytes (s : State) : Host.Outcome State Fault Refusal :=
  commit s do
    raiseIf (s.cfg.byteCap < (s.stream.length + 7) / 8) .capacity
    return storeBytes s (byteImage s.stream)

end Sys2Proof.Machine
end

