-- ==== Sys2Proof/Machine/Flags.lean ====
section
/-! DEFINITION. The block's only condition bits (10_state.md R47): the STATUS word (R24, R221), and the
derived views BB_WLEN, BB_RPOS, BB_REMAIN (R31 to R33) and REC_HAS_TLV (R45). -/

namespace Sys2Proof.Machine

/-- The number of an error code (R221). -/
def ErrorCode.code : ErrorCode → Byte
  | .none => 0
  | .range => 1
  | .validation => 2
  | .invalidCharacter => 3
  | .invalidLength => 4
  | .invalidEncoding => 5
  | .checksumMismatch => 6
  | .truncatedData => 7
  | .unsupportedVersion => 8
  | .invalidFormat => 9
  | .passcodeOutOfRange => 10
  | .capacity => 11
  | .alignment => 12
  | .illegalCommand => 13

/-- STATUS: ERR in bits [7:0], bits [31:8] read 0 (R24). -/
def statusWord (s : State) : Word := s.err.code.setWidth 32

/-- BB_WLEN reads `zext_32(len(S))` (R31). -/
def bbWlenWord (s : State) : Word := BitVec.ofNat 32 s.stream.length

/-- BB_RPOS reads `zext_32(RPOS)` (R32). -/
def bbRposWord (s : State) : Word := BitVec.ofNat 32 s.rpos

/-- BB_REMAIN reads `zext_32(len(S) - RPOS)` (R33). -/
def bbRemainWord (s : State) : Word := BitVec.ofNat 32 (s.stream.length - s.rpos)

/-- REC_HAS_TLV reads 1 when TLVLEN != 0 and 0 otherwise (R45). -/
def hasTlvWord (s : State) : Word := if s.tlvlen ≠ 0 then 1 else 0

/-- REC_DISC_SHORT reads its flag in bit 0 and 0 in bits [31:1] (R44). -/
def discShortWord (s : State) : Word := if s.record.discShort then 1 else 0

/-- The one result flag of the block, RES0 after VH.VALIDATE: 1 or 0 (R47, R158). -/
def resultFlag (b : Bool) : Word := if b then 1 else 0

end Sys2Proof.Machine
end

