-- ==== Sys2Proof/Machine/Verhoeff.lean ====
section
/-! DEFINITION. The Verhoeff checksum: its tables, its pure functions and its three commands (42_verhoeff.md
R150 to R161). The tables are the spec's, from general knowledge (log 10). -/

namespace Sys2Proof.Machine

/-- The multiplication table, row c, column x (R150). -/
def mulTable : List (List Nat) :=
  [ [0, 1, 2, 3, 4, 5, 6, 7, 8, 9],
    [1, 2, 3, 4, 0, 6, 7, 8, 9, 5],
    [2, 3, 4, 0, 1, 7, 8, 9, 5, 6],
    [3, 4, 0, 1, 2, 8, 9, 5, 6, 7],
    [4, 0, 1, 2, 3, 9, 5, 6, 7, 8],
    [5, 9, 8, 7, 6, 0, 4, 3, 2, 1],
    [6, 5, 9, 8, 7, 1, 0, 4, 3, 2],
    [7, 6, 5, 9, 8, 2, 1, 0, 4, 3],
    [8, 7, 6, 5, 9, 3, 2, 1, 0, 4],
    [9, 8, 7, 6, 5, 4, 3, 2, 1, 0] ]

/-- The permutation table, row r, column x (R151). -/
def permTable : List (List Nat) :=
  [ [0, 1, 2, 3, 4, 5, 6, 7, 8, 9],
    [1, 5, 7, 6, 2, 8, 3, 0, 9, 4],
    [5, 8, 0, 3, 7, 9, 6, 1, 4, 2],
    [8, 9, 1, 6, 0, 4, 3, 5, 2, 7],
    [9, 4, 5, 3, 1, 2, 6, 8, 7, 0],
    [4, 2, 8, 6, 5, 7, 3, 9, 0, 1],
    [2, 7, 9, 3, 8, 0, 6, 4, 1, 5],
    [7, 0, 4, 6, 9, 1, 3, 2, 5, 8] ]

/-- The inverse table (R152). -/
def invTable : List Nat := [0, 4, 3, 2, 1, 5, 6, 7, 8, 9]

/-- `d[c][x]` (R150). Indices are in range by construction (R161). -/
def vMul (c x : Nat) : Nat := (mulTable.getD c []).getD x 0

/-- `p[r][x]` (R151). -/
def vPerm (r x : Nat) : Nat := (permTable.getD r []).getD x 0

/-- `inv[c]` (R152). -/
def vInv (c : Nat) : Nat := invTable.getD c 0

/-- The accumulator loop over the digits from the right, the first of them at table position `i`, from the
accumulator `c` (R153). -/
def vaccFrom : List Nat → Nat → Nat → Nat
  | [], _, c => c
  | x :: xs, i, c => vaccFrom xs (i + 1) (vMul c (vPerm (i % 8) x))

/-- `vacc(ds, s)` (R153): the rightmost digit is position 0, offset by s. -/
def vacc (ds : List Nat) (offset : Nat) : Nat := vaccFrom ds.reverse offset 0

/-- `vcheck(ds)` (R154). -/
def vcheck (ds : List Nat) : Nat := vInv (vacc ds 1)

/-- `vvalid(ds)` (R155). -/
def vvalid (ds : List Nat) : Bool := vacc ds 0 == 0

/-- `vdigits()` (R156): the digits of CHARS[0..CLEN), or CAPACITY, or INVALID_CHARACTER on a non-digit. -/
def vdigits (s : State) : Except Stop (List Nat) := do
  let l := s.clen.toNat
  raiseIf (s.cfg.charCap < l) .capacity
  let text ← readElems s .chars l
  raiseIf (¬ text.all isDigit) .invalidCharacter
  return text.map digitVal

/-- VH.COMPUTE (R157): RES0 is the check digit of CHARS[0..CLEN). -/
def execVhCompute (s : State) : Host.Outcome State Fault Refusal :=
  commit s do
    let ds ← vdigits s
    return s.setRes0 (BitVec.ofNat 32 (vcheck ds))

/-- VH.VALIDATE (R158): RES0 is 1 when CHARS[0..CLEN) checksums to 0, else 0. -/
def execVhValidate (s : State) : Host.Outcome State Fault Refusal :=
  commit s do
    let ds ← vdigits s
    return s.setRes0 (resultFlag (vvalid ds))

/-- VH.APPEND (R159): write the check digit of CHARS[0..CLEN) at CHARS[CLEN], increment CLEN, and put the
digit in RES0; CAPACITY when CHARS is full. -/
def execVhAppend (s : State) : Host.Outcome State Fault Refusal :=
  commit s do
    let ds ← vdigits s
    let l := s.clen.toNat
    raiseIf (s.cfg.charCap ≤ l) .capacity
    let k := vcheck ds
    return ((s.setChars (s.chars.write l (digitChar k))).setClen (BitVec.ofNat 32 (l + 1))).setRes0
      (BitVec.ofNat 32 k)

end Sys2Proof.Machine
end

