-- ==== Sys2Proof/Machine/Payload.lean ====
section
/-! DEFINITION. The payload codec's commands (43_payload.md R170 to R187). They work on pure values, the
scratch state of 10_state.md R48, and touch neither the visible BitBuffer nor BYTES. What the spec takes from
general knowledge is named in log 10. -/

namespace Sys2Proof.Machine

/-- `passcode_ok(p)` (R170). -/
def passcodeOk (cfg : Config) (p : Nat) : Bool :=
  decide (1 ≤ p ∧ p ≤ 99999999 ∧ p ∉ cfg.invalidPasscodes)

/-- The QR marker `MT:` (R172). -/
def qrMarker : List Byte := [0x4D, 0x54, 0x3A]

/-- The 88 header bits of a record, in R171's order. Version and padding are 0 on encode (R173). -/
def headerBits (r : Record) : Bits :=
  bitsOf 0 3 ++ bitsOf r.vid.toNat 16 ++ bitsOf r.pid.toNat 16 ++ bitsOf r.flow.toNat 2 ++
  bitsOf r.caps.toNat 8 ++ bitsOf r.disc.toNat 12 ++ bitsOf r.passcode.toNat 27 ++ bitsOf 0 4

/-- `qr_bytes(rec, tlv)` (R173). -/
def qrBytes (r : Record) (tlv : List Byte) : List Byte := byteImage (headerBits r) ++ tlv

/-- `qr_text(rec, tlv)` (R172). -/
def qrText (r : Record) (tlv : List Byte) : List Byte := qrMarker ++ b38enc (qrBytes r tlv)

/-- Some record field is wider than R171 declares it (R35, R174). -/
def qrFieldTooWide (r : Record) : Bool :=
  decide (2 ^ 16 ≤ r.vid.toNat ∨ 2 ^ 16 ≤ r.pid.toNat ∨ 2 ^ 2 ≤ r.flow.toNat ∨ 2 ^ 8 ≤ r.caps.toNat ∨
    2 ^ 12 ≤ r.disc.toNat ∨ 2 ^ 27 ≤ r.passcode.toNat ∨ 2 ^ 4 ≤ r.padding.toNat)

/-- PC.ENCQR (R174): the record and TLV[0..TLVLEN) as QR text in CHARS. -/
def execPcEncqr (s : State) : Host.Outcome State Fault Refusal :=
  commit s do
    let r := s.record
    raiseIf (r.version ≠ 0) .unsupportedVersion
    raiseIf (qrFieldTooWide r) .range
    let n := s.tlvlen.toNat
    raiseIf (s.cfg.tlvCap < n) .capacity
    raiseIf (r.flow = 3) .validation
    raiseIf (¬ passcodeOk s.cfg r.passcode.toNat) .validation
    raiseIf (r.padding ≠ 0) .validation
    raiseIf (r.flow = 2 ∧ n = 0) .validation
    raiseIf (r.discShort = true) .validation
    raiseIf (s.cfg.charCap < 3 + b38len (11 + n)) .capacity
    let tlv ← readElems s .tlv n
    return storeChars s (qrText r tlv)

/-- `long(rec)`, the VID/PID-present flag (R175). -/
def longForm (r : Record) : Bool := decide (r.flow ≠ 0)

/-- `sd = D[11:8]`, the short discriminator (R176). -/
def shortDisc (r : Record) : Nat := r.disc.toNat / 2 ^ 8 % 2 ^ 4

/-- Group c1: the flag and D[11:10] (R176). -/
def manualC1 (r : Record) : Nat := (longForm r).toNat * 4 + shortDisc r / 4

/-- Group c2: D[9:8] and P[13:0] (R176). -/
def manualC2 (r : Record) : Nat := shortDisc r % 4 * 2 ^ 14 + r.passcode.toNat % 2 ^ 14

/-- Group c3: P[26:14] (R176). -/
def manualC3 (r : Record) : Nat := r.passcode.toNat / 2 ^ 14 % 2 ^ 13

/-- The digits of the manual code before its check digit (R177). -/
def manualBody (r : Record) : List Nat :=
  decDigits (manualC1 r) 1 ++ decDigits (manualC2 r) 5 ++ decDigits (manualC3 r) 4 ++
  (if longForm r then decDigits r.vid.toNat 5 ++ decDigits r.pid.toNat 5 else [])

/-- `manual_text(rec)` (R177): 11 or 21 digits, the last the Verhoeff check digit. -/
def manualText (r : Record) : List Byte :=
  (manualBody r ++ [vcheck (manualBody r)]).map digitChar

/-- PC.ENCMAN (R178): the record as a manual code in CHARS. -/
def execPcEncman (s : State) : Host.Outcome State Fault Refusal :=
  commit s do
    let r := s.record
    raiseIf (2 ^ 2 ≤ r.flow.toNat ∨ 2 ^ 12 ≤ r.disc.toNat) .range
    raiseIf (longForm r ∧ (2 ^ 16 ≤ r.vid.toNat ∨ 2 ^ 16 ≤ r.pid.toNat)) .range
    raiseIf (r.flow = 3) .validation
    raiseIf (¬ passcodeOk s.cfg r.passcode.toNat) .passcodeOutOfRange
    return storeChars s (manualText r)

/-- The header fields of a QR payload, read in order at R171's offsets (R180). REC_DISC_SHORT is 0 (R181). -/
def parseHeader (b : List Byte) : Record :=
  let stream := bitImage b
  { version := BitVec.ofNat 32 (fieldAt stream 0 3)
    vid := BitVec.ofNat 32 (fieldAt stream 3 16)
    pid := BitVec.ofNat 32 (fieldAt stream 19 16)
    flow := BitVec.ofNat 32 (fieldAt stream 35 2)
    caps := BitVec.ofNat 32 (fieldAt stream 37 8)
    disc := BitVec.ofNat 32 (fieldAt stream 45 12)
    passcode := BitVec.ofNat 32 (fieldAt stream 57 27)
    padding := BitVec.ofNat 32 (fieldAt stream 84 4)
    discShort := false }

/-- `qr_parse(U, s)` (R180, R181): decode, validate, and write the record, TLV and TLVLEN. -/
def qrParse (strict : Bool) (u : List Byte) (s : State) : Except Stop State := do
  let b ← b38dec u
  raiseIf (b.length < 11) .truncatedData
  raiseIf (s.cfg.tlvCap < b.length - 11) .capacity
  let r := parseHeader b
  let tlv := b.drop 11
  raiseIf (r.version ≠ 0) .unsupportedVersion
  raiseIf (r.flow = 3) .validation
  raiseIf (¬ passcodeOk s.cfg r.passcode.toNat) .validation
  raiseIf (r.flow = 2 ∧ tlv.length = 0) .validation
  raiseIf (strict = true ∧ r.padding ≠ 0) .validation
  return storeTlv (s.setRecord r) tlv

/-- The record a manual code yields (R184). The fields the code does not carry have R184's values. -/
def manualRecord (long : Bool) (vid pid sd passcode : Nat) : Record :=
  { version := 0
    vid := BitVec.ofNat 32 vid
    pid := BitVec.ofNat 32 pid
    flow := if long then 2 else 0
    caps := 0
    disc := BitVec.ofNat 32 (sd * 2 ^ 8)
    passcode := BitVec.ofNat 32 passcode
    padding := 0
    discShort := true }

/-- Digits i to j-1 of a code as a number (R182). -/
def digitGroup (ds : List Nat) (i j : Nat) : Nat := num ((ds.take j).drop i)

/-- `manual_parse(T)` (R182 to R184) on the digits of a code of 11 or 21 digits. -/
def manualParse (ds : List Nat) (s : State) : Except Stop State := do
  raiseIf (¬ vvalid ds) .checksumMismatch
  let long := decide (ds.length = 21)
  let c1 := digitGroup ds 0 1
  let c2 := digitGroup ds 1 6
  let c3 := digitGroup ds 6 10
  let vid := if long then digitGroup ds 10 15 else 0
  let pid := if long then digitGroup ds 15 20 else 0
  raiseIf (7 < c1 ∨ 65535 < c2 ∨ 8191 < c3 ∨ 65535 < vid ∨ 65535 < pid) .range
  raiseIf (c1 / 4 ≠ long.toNat) .invalidFormat
  let sd := c1 % 4 * 4 + c2 / 2 ^ 14
  let passcode := c3 * 2 ^ 14 + c2 % 2 ^ 14
  raiseIf (¬ passcodeOk s.cfg passcode) .passcodeOutOfRange
  return (s.setRecord (manualRecord long vid pid sd passcode)).setTlvlen 0

/-- The text starts with the QR marker (R179). -/
def hasQrMarker (t : List Byte) : Bool := t.take 3 == qrMarker

/-- The text is 11 or 21 decimal digits (R179). -/
def isManualShape (t : List Byte) : Bool := (t.length == 11 || t.length == 21) && t.all isDigit

/-- PC.PARSE (R179): the QR path, the manual path, or INVALID_FORMAT. -/
def execPcParse (strict : Bool) (s : State) : Host.Outcome State Fault Refusal :=
  commit s do
    let l := s.clen.toNat
    raiseIf (s.cfg.charCap < l) .capacity
    let t ← readElems s .chars l
    if hasQrMarker t then qrParse strict (t.drop 3) s
    else if isManualShape t then manualParse (t.map digitVal) s
    else raiseErr .invalidFormat

end Sys2Proof.Machine
end

