-- ==== Sys2Proof/Syntax.lean ====
section
/-! DEFINITION. The commands of the block, one constructor per row of spec/opcode_table.json
(30_encoding.md R84, R85). -/

namespace Sys2Proof

/-- A command. WIDTH is kept as a number, and `Instr.WellFormed` says that it fits its 6-bit field (R82;
log 9); STRICT is one bit (R83). Every other operand is implicit (R84). -/
inductive Instr where
  | bbClear
  | bbWrbits (width : Nat)
  | bbRdbits (width : Nat)
  | bbAppend
  | bbRdbytes
  | bbTobytes
  | b38Enc
  | b38Dec
  | vhCompute
  | vhValidate
  | vhAppend
  | pcEncqr
  | pcEncman
  | pcParse (strict : Bool)
deriving DecidableEq, Repr

end Sys2Proof
end

