-- ==== Sys2Proof/Machine/Dispatch.lean ====
section
/-! DEFINITION. The meaning of each command, one arm per row of spec/opcode_table.json (30_encoding.md R84). -/

namespace Sys2Proof.Machine

def exec (i : Instr) (s : State) : Host.Outcome State Fault Refusal :=
  match i with
  | .bbClear => Sys2Proof.Machine.execBbClear s
  | .bbWrbits width => Sys2Proof.Machine.execBbWrbits width s
  | .bbRdbits width => Sys2Proof.Machine.execBbRdbits width s
  | .bbAppend => Sys2Proof.Machine.execBbAppend s
  | .bbRdbytes => Sys2Proof.Machine.execBbRdbytes s
  | .bbTobytes => Sys2Proof.Machine.execBbTobytes s
  | .b38Enc => Sys2Proof.Machine.execB38Enc s
  | .b38Dec => Sys2Proof.Machine.execB38Dec s
  | .vhCompute => Sys2Proof.Machine.execVhCompute s
  | .vhValidate => Sys2Proof.Machine.execVhValidate s
  | .vhAppend => Sys2Proof.Machine.execVhAppend s
  | .pcEncqr => Sys2Proof.Machine.execPcEncqr s
  | .pcEncman => Sys2Proof.Machine.execPcEncman s
  | .pcParse strict => Sys2Proof.Machine.execPcParse strict s

end Sys2Proof.Machine
end

