-- ==== Sys2Proof/WellFormed.lean ====
section
/-! DEFINITION. Which commands have a word: WIDTH must fit its 6-bit field (30_encoding.md R82, R88). -/

namespace Sys2Proof

/-- R88: "An assembler refuses `<w>` outside 0..63"; 0 and 33..63 are legal encodings. -/
abbrev widthFits (width : Nat) : Prop := width < 64

/-- A command the assembler accepts. -/
def Instr.wellFormed : Instr → Bool
  | .bbWrbits width => decide (widthFits width)
  | .bbRdbits width => decide (widthFits width)
  | .bbClear => true
  | .bbAppend => true
  | .bbRdbytes => true
  | .bbTobytes => true
  | .b38Enc => true
  | .b38Dec => true
  | .vhCompute => true
  | .vhValidate => true
  | .vhAppend => true
  | .pcEncqr => true
  | .pcEncman => true
  | .pcParse _ => true

/-- `Instr.wellFormed` as a proposition. -/
abbrev Instr.WellFormed (i : Instr) : Prop := i.wellFormed = true

end Sys2Proof
end

