-- ==== Sys2Proof/Decode.lean ====
section
/-! DEFINITION. Decoding and encoding command words, from the match and mask table of 30_encoding.md R85. -/

namespace Sys2Proof

/-- Why a word is no command: it matches no row (R85, R86). -/
inductive DecodeError where
  | illegalCommand
deriving DecidableEq, Repr

/-- WIDTH, bits [21:16] of the command word, zero-extended (R81, R82). -/
def widthField (w : Word) : Nat := (w.extractLsb' 16 6).toNat

/-- STRICT, bit [8] of the command word (R81, R83). -/
def strictField (w : Word) : Bool := w.getLsbD 8

/-- One row of R85's table, with the command its free fields make. -/
structure OpcodeRow where
  mnemonic : String
  pattern : Word
  mask : Word
  build : Word → Instr

/-- R85: a word matches a row when `(w AND mask) == match`. -/
def OpcodeRow.accepts (r : OpcodeRow) (w : Word) : Bool := (w &&& r.mask) == r.pattern

/-- R85's table, in its order. -/
def opcodeRows : List OpcodeRow :=
  [ ⟨"BB.CLEAR",    0x00000001, 0xFFFFFFFF, fun _ => .bbClear⟩,
    ⟨"BB.WRBITS",   0x00000002, 0xFFC0FFFF, fun w => .bbWrbits (widthField w)⟩,
    ⟨"BB.RDBITS",   0x00000003, 0xFFC0FFFF, fun w => .bbRdbits (widthField w)⟩,
    ⟨"BB.APPEND",   0x00000004, 0xFFFFFFFF, fun _ => .bbAppend⟩,
    ⟨"BB.RDBYTES",  0x00000005, 0xFFFFFFFF, fun _ => .bbRdbytes⟩,
    ⟨"BB.TOBYTES",  0x00000006, 0xFFFFFFFF, fun _ => .bbTobytes⟩,
    ⟨"B38.ENC",     0x00000010, 0xFFFFFFFF, fun _ => .b38Enc⟩,
    ⟨"B38.DEC",     0x00000011, 0xFFFFFFFF, fun _ => .b38Dec⟩,
    ⟨"VH.COMPUTE",  0x00000020, 0xFFFFFFFF, fun _ => .vhCompute⟩,
    ⟨"VH.VALIDATE", 0x00000021, 0xFFFFFFFF, fun _ => .vhValidate⟩,
    ⟨"VH.APPEND",   0x00000022, 0xFFFFFFFF, fun _ => .vhAppend⟩,
    ⟨"PC.ENCQR",    0x00000030, 0xFFFFFFFF, fun _ => .pcEncqr⟩,
    ⟨"PC.ENCMAN",   0x00000031, 0xFFFFFFFF, fun _ => .pcEncman⟩,
    ⟨"PC.PARSE",    0x00000032, 0xFFFFFEFF, fun w => .pcParse (strictField w)⟩ ]

/-- The decoder of R85: the first row that matches, else ILLEGAL_COMMAND. Total on every word. -/
def decode (w : Word) : Except DecodeError Instr :=
  match opcodeRows.find? (fun r => r.accepts w) with
  | some r => .ok (r.build w)
  | none => .error .illegalCommand

/-- The command word of a command (R88's table of spellings). A WIDTH that does not fit its field has no
word: `Instr.WellFormed` excludes it. -/
def encode : Instr → Word
  | .bbClear => 0x00000001
  | .bbWrbits width => 0x00000002 ||| (BitVec.ofNat 32 width <<< 16)
  | .bbRdbits width => 0x00000003 ||| (BitVec.ofNat 32 width <<< 16)
  | .bbAppend => 0x00000004
  | .bbRdbytes => 0x00000005
  | .bbTobytes => 0x00000006
  | .b38Enc => 0x00000010
  | .b38Dec => 0x00000011
  | .vhCompute => 0x00000020
  | .vhValidate => 0x00000021
  | .vhAppend => 0x00000022
  | .pcEncqr => 0x00000030
  | .pcEncman => 0x00000031
  | .pcParse false => 0x00000032
  | .pcParse true => 0x00000132

/-- The decoder on a word numbered as spec/opcode_table.json numbers its bits: `nbits` bits of `w`, the rest
0. A command is exactly one 32-bit word (R80, R87), so a longer number is none. -/
def decodeTableWord (nbits w : Nat) : Option Instr :=
  if w % 2 ^ nbits < 2 ^ 32 then (decode (BitVec.ofNat 32 (w % 2 ^ nbits))).toOption else none

end Sys2Proof
end

