-- ==== Sys2Proof/Machine/HostAccess.lean ====
section
/-! DEFINITION. The host's side: the register map and the four accesses (10_state.md R21, R23 to R46;
20_memory.md R64), the reset input (70_reset_and_hazards.md R250), what the block does next, the answer to an
illegal command word (30_encoding.md R86), and the host syntax's pseudo-instructions (R88, R89). -/

namespace Sys2Proof.Machine

/-- The register map (R21); the unmapped numbers 0x0A to 0x0F and 0x1A to 0x1F name no register. -/
def regOf (n : RegNum) : Option Reg :=
  match n.toNat with
  | 0x00 => some .cmd
  | 0x01 => some .status
  | 0x02 => some .arg0
  | 0x03 => some .res0
  | 0x04 => some .bbWlen
  | 0x05 => some .bbRpos
  | 0x06 => some .bbRemain
  | 0x07 => some .blen
  | 0x08 => some .clen
  | 0x09 => some .tlvlen
  | 0x10 => some .recVersion
  | 0x11 => some .recVid
  | 0x12 => some .recPid
  | 0x13 => some .recFlow
  | 0x14 => some .recCaps
  | 0x15 => some .recDisc
  | 0x16 => some .recPasscode
  | 0x17 => some .recPadding
  | 0x18 => some .recDiscShort
  | 0x19 => some .recHasTlv
  | _ => none

/-- The number of a register (R21). -/
def Reg.number : Reg → RegNum
  | .cmd => 0x00
  | .status => 0x01
  | .arg0 => 0x02
  | .res0 => 0x03
  | .bbWlen => 0x04
  | .bbRpos => 0x05
  | .bbRemain => 0x06
  | .blen => 0x07
  | .clen => 0x08
  | .tlvlen => 0x09
  | .recVersion => 0x10
  | .recVid => 0x11
  | .recPid => 0x12
  | .recFlow => 0x13
  | .recCaps => 0x14
  | .recDisc => 0x15
  | .recPasscode => 0x16
  | .recPadding => 0x17
  | .recDiscShort => 0x18
  | .recHasTlv => 0x19

/-- What a register reads as. CMD holds no value and reads 0 (R23). -/
def readReg (s : State) : Reg → Word
  | .cmd => 0
  | .status => statusWord s
  | .arg0 => s.arg0
  | .res0 => s.res0
  | .bbWlen => bbWlenWord s
  | .bbRpos => bbRposWord s
  | .bbRemain => bbRemainWord s
  | .blen => s.blen
  | .clen => s.clen
  | .tlvlen => s.tlvlen
  | .recVersion => s.record.version
  | .recVid => s.record.vid
  | .recPid => s.record.pid
  | .recFlow => s.record.flow
  | .recCaps => s.record.caps
  | .recDisc => s.record.disc
  | .recPasscode => s.record.passcode
  | .recPadding => s.record.padding
  | .recDiscShort => discShortWord s
  | .recHasTlv => hasTlvWord s

/-- RegRead (R64): an unmapped number reads 0 (R46). -/
def regRead (s : State) (n : RegNum) : Word :=
  match regOf n with
  | some r => readReg s r
  | none => 0

/-- A write to a register other than CMD: a read-write register stores all 32 bits, REC_DISC_SHORT bit 0
only, and a read-only register ignores it (R44, R46). A write to CMD is a command and never comes here
(`fetch`). -/
def writeReg (s : State) (v : Word) : Reg → State
  | .arg0 => s.setArg0 v
  | .blen => s.setBlen v
  | .clen => s.setClen v
  | .tlvlen => s.setTlvlen v
  | .recVersion => s.setRecord { s.record with version := v }
  | .recVid => s.setRecord { s.record with vid := v }
  | .recPid => s.setRecord { s.record with pid := v }
  | .recFlow => s.setRecord { s.record with flow := v }
  | .recCaps => s.setRecord { s.record with caps := v }
  | .recDisc => s.setRecord { s.record with disc := v }
  | .recPasscode => s.setRecord { s.record with passcode := v }
  | .recPadding => s.setRecord { s.record with padding := v }
  | .recDiscShort => s.setRecord { s.record with discShort := v.getLsbD 0 }
  | .cmd => s
  | .status => s
  | .res0 => s
  | .bbWlen => s
  | .bbRpos => s
  | .bbRemain => s
  | .recHasTlv => s

/-- RegWrite (R64) to a number other than CMD's: an unmapped number ignores it (R46). -/
def regWrite (s : State) (n : RegNum) (v : Word) : State :=
  match regOf n with
  | some r => writeReg s v r
  | none => s

/-- BufRead (R64): an index at or above the capacity reads 0; an element nothing has written since reset is
the fault UNINIT_READ (R65). -/
def bufRead (s : State) (space : Space) (i : Nat) : Except Fault Byte :=
  if s.cap space ≤ i then .ok 0
  else
    match (s.mem space).read i with
    | some v => .ok v
    | none => .error (.uninitRead space i)

/-- Replace the memory of a space. -/
def setMem (s : State) (space : Space) (m : Memory) : State :=
  match space with
  | .bytes => s.setBytes m
  | .chars => s.setChars m
  | .tlv => s.setTlv m

/-- BufWrite (R64): an index at or above the capacity writes nothing. -/
def bufWrite (s : State) (space : Space) (i : Nat) (v : Byte) : State :=
  if s.cap space ≤ i then s else setMem s space ((s.mem space).write i v)

/-- Return a value to the host (log 7). -/
def respond (s : State) (r : Response) : State := s.setResponses (s.responses ++ [r])

/-- The reset input (R250): every piece of the block's state takes its reset value (R50). The parameters are
the implementation's, and the two lists are the host's (log 6). -/
def resetBlock (s : State) : State :=
  { State.reset with cfg := s.cfg, host := s.host, responses := s.responses }

/-- One access that is not a command. -/
def performAccess (a : HostAccess) (s : State) : Host.Outcome State Fault Refusal :=
  match a with
  | .regRead n => .next (respond s (.reg (regRead s n)))
  | .regWrite n v => .next (regWrite s n v)
  | .bufRead space i =>
    match bufRead s space i with
    | .ok v => .next (respond s (.elem v))
    | .error f => .fault f
  | .bufWrite space i v => .next (bufWrite s space i v)
  | .reset => .next (resetBlock s)

/-- What the block does next: wait when no access is pending (R251), run a command on a write to CMD (R23),
or perform another access. -/
def fetch (s : State) : Fetch :=
  match s.host with
  | [] => .idle
  | .regWrite n v :: rest =>
    if regOf n = some .cmd then .command v (s.setHost rest) else .access (.regWrite n v) (s.setHost rest)
  | a :: rest => .access a (s.setHost rest)

/-- The answer to a command word that decodes to nothing: ILLEGAL_COMMAND in STATUS.ERR and no other change
(R86, R222). -/
def rejectCommand (e : DecodeError) (s : State) : Host.Outcome State Fault Refusal :=
  match e with
  | .illegalCommand => commit s (raiseErr .illegalCommand)

/-- The host's transaction for a command: `WR CMD, <command word>` (R88). -/
def commandAccess (i : Instr) : HostAccess := .regWrite Reg.cmd.number (encode i)

/-- `WB SPACE[k], b` for the elements of a sequence, from element k on (R88). -/
def loadElems (space : Space) (k : Nat) : List Byte → List HostAccess
  | [] => []
  | v :: vs => .bufWrite space k v :: loadElems space (k + 1) vs

/-- The record fields SETREC names (R89). -/
inductive RecField where
  | version | vid | pid | flow | caps | disc | passcode | padding | discShort
deriving DecidableEq, Repr

/-- The register of a SETREC field (R89). -/
def RecField.reg : RecField → Reg
  | .version => .recVersion
  | .vid => .recVid
  | .pid => .recPid
  | .flow => .recFlow
  | .caps => .recCaps
  | .disc => .recDisc
  | .passcode => .recPasscode
  | .padding => .recPadding
  | .discShort => .recDiscShort

/-- The pseudo-instructions of the host syntax (R89). -/
inductive Pseudo where
  | putbits (v : Word) (w : Nat)
  | getbits (w : Nat)
  | getbytes (n : Word)
  | loadstr (cs : List Byte)
  | loadbytes (vs : List Byte)
  | loadtlv (vs : List Byte)
  | setrec (fields : List (RecField × Word))
  | check
deriving DecidableEq, Repr

/-- The exact expansion of a pseudo-instruction into host transactions (R89). -/
def Pseudo.expand : Pseudo → List HostAccess
  | .putbits v w => [.regWrite Reg.arg0.number v, commandAccess (.bbWrbits w)]
  | .getbits w => [commandAccess (.bbRdbits w), .regRead Reg.res0.number]
  | .getbytes n => [.regWrite Reg.arg0.number n, commandAccess .bbRdbytes]
  | .loadstr cs => loadElems .chars 0 cs ++ [.regWrite Reg.clen.number (BitVec.ofNat 32 cs.length)]
  | .loadbytes vs => loadElems .bytes 0 vs ++ [.regWrite Reg.blen.number (BitVec.ofNat 32 vs.length)]
  | .loadtlv vs => loadElems .tlv 0 vs ++ [.regWrite Reg.tlvlen.number (BitVec.ofNat 32 vs.length)]
  | .setrec fields => fields.map (fun f => .regWrite f.1.reg.number f.2)
  | .check => [.regRead Reg.status.number]

end Sys2Proof.Machine
end

