-- ==== Sys2Proof/Machine/Step.lean ====
section
/-! DEFINITION. One step: one host access, taken whole, or one command, run to its commit (20_memory.md R66,
60_exceptions.md R222). -/

namespace Sys2Proof.Machine

/-- One step. With no access pending the block waits, unchanged (R251; log 5). -/
def step (s : State) : Host.Outcome State Fault Refusal :=
  match fetch s with
  | .idle => .next s
  | .command w s' =>
    match decode w with
    | .ok i => exec i s'
    | .error e => rejectCommand e s'
  | .access a s' => performAccess a s'

/-- `s` with the host's next access a write of the command word `w` to CMD: the one place a command comes
from (R22, R23; log 1). -/
def State.withFetchWord (s : State) (nbits w : Nat) : State :=
  s.setHost (.regWrite Reg.cmd.number (BitVec.ofNat 32 (w % 2 ^ nbits)) :: s.host)

end Sys2Proof.Machine
end

