-- ==== Sys2Proof/Safety.lean ====
section
/-! DEFINITION. What a safe run is, in the terms statements use: the invariant of the block's state, operands
that have been written, and a step that stops on nothing. -/

namespace Sys2Proof.Machine

/-- The invariant of the block's state: legal parameters (R9), canonical buffers whose elements all exist
(R60), S within its capacity (R30), and RPOS within S (R32). -/
abbrev State.Inv (s : State) : Prop :=
  s.cfg.Wf ∧
  (Memory.wf s.bytes ∧ Memory.within s.cfg.byteCap s.bytes) ∧
  (Memory.wf s.chars ∧ Memory.within s.cfg.charCap s.chars) ∧
  (Memory.wf s.tlv ∧ Memory.within s.cfg.tlvCap s.tlv) ∧
  s.stream.length ≤ s.cfg.bbCapBits ∧
  s.rpos ≤ s.stream.length

/-- Elements 0 to n-1 of a memory have been written since reset (R65). -/
abbrev Memory.written (m : Memory) (n : Nat) : Prop := ∀ k, k < n → (m.read k).isSome = true

/-- Elements 0 to len(l)-1 of a memory are the sequence `l`. -/
abbrev Memory.holds (m : Memory) (l : List Byte) : Prop := ∀ k, k < l.length → m.read k = l[k]?

/-- What R252 requires of the host before a command: the buffer elements it will read have been written. -/
def operandsWritten (i : Instr) (s : State) : Prop :=
  match i with
  | .bbAppend | .b38Enc => Memory.written s.bytes s.blen.toNat
  | .b38Dec | .vhCompute | .vhValidate | .vhAppend | .pcParse _ => Memory.written s.chars s.clen.toNat
  | .pcEncqr => Memory.written s.tlv s.tlvlen.toNat
  | .bbClear | .bbWrbits _ | .bbRdbits _ | .bbRdbytes | .bbTobytes | .pcEncman => True

/-- A step that stops on nothing. -/
def SafeStep (s : State) : Prop := ∃ t, step s = .next t

/-- OPC, bits [7:0] of a command word (R81). -/
abbrev opcField (w : Word) : Nat := (w.extractLsb' 0 8).toNat

/-- An OPC that R84 assigns to no command (R86). -/
abbrev unassignedOpc (opc : Nat) : Prop :=
  opc = 0x00 ∨ (0x07 ≤ opc ∧ opc ≤ 0x0F) ∨ (0x12 ≤ opc ∧ opc ≤ 0x1F) ∨ (0x23 ≤ opc ∧ opc ≤ 0x2F) ∨ 0x33 ≤ opc

/-- The words R86 lists as illegal: an unassigned OPC, a nonzero reserved bit, or a nonzero WIDTH or STRICT
where R85 does not free it. -/
abbrev illegalWord (w : Word) : Prop :=
  unassignedOpc (opcField w) ∨
  (w.extractLsb' 9 7 ≠ 0 ∨ w.extractLsb' 22 10 ≠ 0) ∨
  (w.extractLsb' 16 6 ≠ 0 ∧ opcField w ≠ 0x02 ∧ opcField w ≠ 0x03) ∨
  (w.extractLsb' 8 1 ≠ 0 ∧ opcField w ≠ 0x32)

/-- The outcome of a step with a change applied to its next state, if it has one. -/
def mapNext (f : State → State) (o : Host.Outcome State Fault Refusal) : Host.Outcome State Fault Refusal :=
  match o with
  | .next t => .next (f t)
  | .fault e => .fault e
  | .refused r => .refused r

/-- A passcode R170 allows. -/
abbrev PasscodeValid (cfg : Config) (p : Nat) : Prop := 1 ≤ p ∧ p ≤ 99999999 ∧ p ∉ cfg.invalidPasscodes

/-- Every record field fits its declared width (R171, R174). -/
abbrev QrWidthsFit (r : Record) : Prop :=
  r.vid.toNat < 2 ^ 16 ∧ r.pid.toNat < 2 ^ 16 ∧ r.flow.toNat < 2 ^ 2 ∧ r.caps.toNat < 2 ^ 8 ∧
  r.disc.toNat < 2 ^ 12 ∧ r.passcode.toNat < 2 ^ 27 ∧ r.padding.toNat < 2 ^ 4

/-- The VALIDATION conditions of R174 for a record with `n` TLV bytes. -/
abbrev QrInvalid (cfg : Config) (r : Record) (n : Nat) : Prop :=
  r.flow = 3 ∨ ¬ PasscodeValid cfg r.passcode.toNat ∨ r.padding ≠ 0 ∨ (r.flow = 2 ∧ n = 0) ∨ r.discShort = true

/-- A record PC.ENCQR accepts with `n` TLV bytes, the CHARS capacity apart (R174). -/
abbrev QrEncodable (cfg : Config) (r : Record) (n : Nat) : Prop :=
  r.version = 0 ∧ QrWidthsFit r ∧ n ≤ cfg.tlvCap ∧ ¬ QrInvalid cfg r n

/-- The widths PC.ENCMAN checks (R178): VID and PID only in the long form. -/
abbrev ManualWidthsFit (r : Record) : Prop :=
  r.flow.toNat < 2 ^ 2 ∧ r.disc.toNat < 2 ^ 12 ∧
  (r.flow ≠ 0 → r.vid.toNat < 2 ^ 16 ∧ r.pid.toNat < 2 ^ 16)

/-- PUTBITS of a list of (value, width) fields, in order (R89, R108). -/
def writeFields : List (Word × Nat) → State → Host.Outcome State Fault Refusal
  | [], s => .next s
  | (v, w) :: fs, s =>
    match exec (.bbWrbits w) { s with arg0 := v } with
    | .next t => writeFields fs t
    | o => o

/-- BB.RDBITS of a list of widths, in order: the values read and the state after; none when a read does not
succeed (R108). -/
def readFields : List Nat → State → Option (List Word × State)
  | [], s => some ([], s)
  | w :: ws, s =>
    match exec (.bbRdbits w) s with
    | .next t => if t.err = .none then (readFields ws t).map (fun p => (t.res0 :: p.1, p.2)) else none
    | _ => none

end Sys2Proof.Machine
end

