-- ==== Sys2Proof/Certificates/Slice0/Obligations.lean ====
section
/-! DEFINITION. The statements for the provers. Each docstring names the rule of spec/ it formalises, and says
where a clause is a choice of the model. -/

open Sys2Proof Sys2Proof.Machine

/-! ## Encoding and the command cycle -/

/-- Decoding the word of any command the assembler accepts gives it back, at every WIDTH 0..63 and both STRICT
values (R82, R83, R85, R88). -/
def Obligations.DecodeInvertsEncode : Prop :=
  ∀ i : Instr, i.WellFormed → decode (encode i) = .ok i

/-- Every word that decodes is the word of its command: no bit of a legal word is dropped (R85). -/
def Obligations.EncodeInvertsDecode : Prop :=
  ∀ (w : Word) (i : Instr), decode w = .ok i → i.WellFormed ∧ encode i = w

/-- R86: exactly the words it lists are illegal; writing one to CMD changes STATUS.ERR to ILLEGAL_COMMAND and
nothing else (the access itself leaves the host's list, which is the model's own). -/
def Obligations.IllegalWordOnlySetsStatus : Prop :=
  (∀ (s : State) (rest : List HostAccess) (w : Word), s.host = .regWrite 0x00 w :: rest → illegalWord w →
    step s = .next { s with host := rest, err := .illegalCommand }) ∧
  (∀ w : Word, ¬ illegalWord w → ∃ i, decode w = .ok i)

/-- Words written out from R88's table decode to their commands (R85, R88). -/
def Obligations.WrittenOutWordsDecode : Prop :=
  decode 0x00000001 = .ok .bbClear ∧ decode 0x00030002 = .ok (.bbWrbits 3) ∧
  decode 0x003F0003 = .ok (.bbRdbits 63) ∧ decode 0x00000010 = .ok .b38Enc ∧
  decode 0x00000022 = .ok .vhAppend ∧ decode 0x00000032 = .ok (.pcParse false) ∧
  decode 0x00000132 = .ok (.pcParse true)

/-- A write to CMD of a word that decodes runs the command, in the state with the access taken off the host's
list (R22, R23, R222; the list is the model's, log 1). -/
def Obligations.StepRunsTheDecodedCommand : Prop :=
  ∀ (s : State) (rest : List HostAccess) (w : Word) (i : Instr),
    s.host = .regWrite 0x00 w :: rest → decode w = .ok i → step s = exec i { s with host := rest }

/-- With no access pending the block waits, its state unchanged (R251; that a wait is a step is the model's
choice, log 5). -/
def Obligations.StepWaitsForTheHost : Prop :=
  ∀ s : State, s.host = [] → step s = .next s

/-- A step takes at most the oldest access off the list, returns at most one value to the host, and never
changes the parameters (R66, R72; the lists are the model's, logs 1 and 7). -/
def Obligations.StepConsumesOneAccess : Prop :=
  ∀ s t : State, step s = .next t →
    t.cfg = s.cfg ∧ t.host = s.host.tail ∧ ∃ r, t.responses = s.responses ++ r ∧ r.length ≤ 1

/-! ## Reset, the invariant, and what stops a step -/

/-- R50: after reset every register number reads 0, S is empty, RPOS is 0, and no buffer element has a
value. The parameters are R9's defaults. -/
def Obligations.ResetReadsZero : Prop :=
  (∀ n : RegNum, regRead State.reset n = 0) ∧ State.reset.err = .none ∧ State.reset.stream = [] ∧
  State.reset.rpos = 0 ∧ (∀ (space : Space) (i : Nat), (State.reset.mem space).read i = none) ∧
  State.reset.cfg = ⟨1024, 128, 256, 117, [0, 11111111, 22222222, 33333333, 44444444, 55555555, 66666666,
    77777777, 88888888, 99999999, 12345678, 87654321]⟩

/-- R250: the reset input puts every piece of the block's state to its reset value. It lands between two
accesses; the parameters and the two lists are not the block's state (logs 3 and 6). -/
def Obligations.ResetInputRestoresReset : Prop :=
  ∀ (s : State) (rest : List HostAccess), s.host = .reset :: rest →
    step s = .next { State.reset with cfg := s.cfg, host := rest, responses := s.responses }

/-- The reset state meets the invariant of `StepKeepsTheInvariant`. -/
def Obligations.ResetMeetsTheInvariant : Prop := State.reset.Inv

/-- Every step, on any access or command word, keeps the invariant: buffers canonical with every element below
its capacity, len(S) <= BB_CAP_BITS (R30), 0 <= RPOS <= len(S) (R32), legal parameters (R9). -/
def Obligations.StepKeepsTheInvariant : Prop :=
  ∀ s t : State, s.Inv → step s = .next t → t.Inv

/-- R226: the only thing that stops a step is UNINIT_READ, on an element that exists and that nothing has
written. -/
def Obligations.OnlyUninitReadStopsAStep : Prop :=
  ∀ s : State, (∀ q, step s ≠ .refused q) ∧
    ∀ f, step s = .fault f →
      ∃ space i, f = .uninitRead space i ∧ i < s.cap space ∧ (s.mem space).read i = none

/-- R252: every command whose buffer operands have been written completes. -/
def Obligations.WrittenOperandsComplete : Prop :=
  ∀ (i : Instr) (s : State), operandsWritten i s → ∃ t, exec i s = .next t

/-- R65: a command that comes to read an element nothing has written is the fault UNINIT_READ, and not a block
error. The element named is an unwritten one at or before it (log 11). -/
def Obligations.UnwrittenOperandStops : Prop :=
  ∀ (s : State) (k : Nat),
    (k < s.blen.toNat → s.bytes.read k = none →
      (s.blen.toNat ≤ s.cfg.byteCap → s.stream.length % 8 = 0 →
        s.stream.length + 8 * s.blen.toNat ≤ s.cfg.bbCapBits →
        ∃ j, j ≤ k ∧ s.bytes.read j = none ∧ exec .bbAppend s = .fault (.uninitRead .bytes j)) ∧
      (s.blen.toNat ≤ s.cfg.byteCap → b38len s.blen.toNat ≤ s.cfg.charCap →
        ∃ j, j ≤ k ∧ s.bytes.read j = none ∧ exec .b38Enc s = .fault (.uninitRead .bytes j))) ∧
    (k < s.clen.toNat → s.chars.read k = none → s.clen.toNat ≤ s.cfg.charCap →
      ∃ j, j ≤ k ∧ s.chars.read j = none ∧
        exec .vhCompute s = .fault (.uninitRead .chars j) ∧
        exec .vhValidate s = .fault (.uninitRead .chars j) ∧
        exec .vhAppend s = .fault (.uninitRead .chars j) ∧
        (∀ strict, exec (.pcParse strict) s = .fault (.uninitRead .chars j)) ∧
        (s.clen.toNat % 5 ≠ 1 → s.clen.toNat % 5 ≠ 3 → b38bytes s.clen.toNat ≤ s.cfg.byteCap →
          exec .b38Dec s = .fault (.uninitRead .chars j))) ∧
    (k < s.tlvlen.toNat → s.tlv.read k = none → QrEncodable s.cfg s.record s.tlvlen.toNat →
      3 + b38len (11 + s.tlvlen.toNat) ≤ s.cfg.charCap →
      ∃ j, j ≤ k ∧ s.tlv.read j = none ∧ exec .pcEncqr s = .fault (.uninitRead .tlv j))

/-! ## Host accesses -/

/-- R21, R23, R24, R31, R33, R44, R45, R46: what every register number reads, and that a register read changes
nothing but the model's list of responses. -/
def Obligations.RegisterReads : Prop :=
  (∀ (s : State) (n : RegNum) (rest : List HostAccess), s.host = .regRead n :: rest →
    step s = .next { s with host := rest, responses := s.responses ++ [.reg (regRead s n)] }) ∧
  ∀ s : State,
    regRead s 0x00 = 0 ∧ regRead s 0x01 = s.err.code.setWidth 32 ∧ regRead s 0x02 = s.arg0 ∧
    regRead s 0x03 = s.res0 ∧ regRead s 0x04 = BitVec.ofNat 32 s.stream.length ∧
    regRead s 0x05 = BitVec.ofNat 32 s.rpos ∧ regRead s 0x06 = BitVec.ofNat 32 (s.stream.length - s.rpos) ∧
    regRead s 0x07 = s.blen ∧ regRead s 0x08 = s.clen ∧ regRead s 0x09 = s.tlvlen ∧
    regRead s 0x10 = s.record.version ∧ regRead s 0x11 = s.record.vid ∧ regRead s 0x12 = s.record.pid ∧
    regRead s 0x13 = s.record.flow ∧ regRead s 0x14 = s.record.caps ∧ regRead s 0x15 = s.record.disc ∧
    regRead s 0x16 = s.record.passcode ∧ regRead s 0x17 = s.record.padding ∧
    regRead s 0x18 = (if s.record.discShort then 1 else 0) ∧ regRead s 0x19 = (if s.tlvlen ≠ 0 then 1 else 0) ∧
    ∀ n : RegNum, (0x0A ≤ n.toNat ∧ n.toNat ≤ 0x0F) ∨ 0x1A ≤ n.toNat → regRead s n = 0

/-- R31, R33: in a state of the invariant the three views are the exact counts, none cut to 32 bits. -/
def Obligations.BitBufferViewsAreExact : Prop :=
  ∀ s : State, s.Inv →
    (regRead s 0x04).toNat = s.stream.length ∧ (regRead s 0x05).toNat = s.rpos ∧
    (regRead s 0x06).toNat = s.stream.length - s.rpos ∧
    (regRead s 0x05).toNat + (regRead s 0x06).toNat = (regRead s 0x04).toNat

/-- R25, R27 to R29, R35, R44 to R46: a write to a register other than CMD stores all 32 bits of a read-write
register (bit 0 of REC_DISC_SHORT), is ignored by a read-only or unmapped one, and shows in no other register
but REC_HAS_TLV, the view of TLVLEN. -/
def Obligations.RegisterWrites : Prop :=
  ∀ (s : State) (n : RegNum) (v : Word) (rest : List HostAccess),
    n ≠ 0x00 → s.host = .regWrite n v :: rest →
    ∃ t, step s = .next t ∧
      t = { s with host := rest, arg0 := t.arg0, blen := t.blen, clen := t.clen, tlvlen := t.tlvlen,
                   record := t.record } ∧
      ∀ m : RegNum, regRead t m =
        if m = n ∧ n ∈ [0x02#5, 0x07, 0x08, 0x09, 0x10, 0x11, 0x12, 0x13, 0x14, 0x15, 0x16, 0x17] then v
        else if m = n ∧ n = 0x18 then v &&& 1
        else if m = 0x19 ∧ n = 0x09 then (if v ≠ 0 then 1 else 0)
        else regRead s m

/-- R64: a host buffer read gives the element, and 0 at or above the capacity. On an element nothing has written it is
the fault UNINIT_READ: of the two outcomes R65 allows there, a fault or a free draw, the model chooses the fault (log 2;
R252). A read changes nothing but the model's list of responses (log 7). -/
def Obligations.BufferReads : Prop :=
  ∀ (s : State) (space : Space) (i : Nat) (rest : List HostAccess), s.host = .bufRead space i :: rest →
    (s.cap space ≤ i → step s = .next { s with host := rest, responses := s.responses ++ [.elem 0] }) ∧
    (∀ v, i < s.cap space → (s.mem space).read i = some v →
      step s = .next { s with host := rest, responses := s.responses ++ [.elem v] }) ∧
    (i < s.cap space → (s.mem space).read i = none → step s = .fault (.uninitRead space i))

/-- R64: a host buffer write below the capacity changes its one element, and above it nothing; no other
element, space or register changes. -/
def Obligations.BufferWrites : Prop :=
  ∀ (s : State) (space : Space) (i : Nat) (v : Byte) (rest : List HostAccess),
    s.host = .bufWrite space i v :: rest →
    ∃ t, step s = .next t ∧
      t = { s with host := rest, bytes := t.bytes, chars := t.chars, tlv := t.tlv } ∧
      ∀ (space' : Space) (a : Nat), (t.mem space').read a =
        if space' = space ∧ a = i ∧ i < s.cap space then some v else (s.mem space').read a

/-- R24, R221: the numbers STATUS reads for the error codes, bits [31:8] being 0. -/
def Obligations.StatusCodeNumbers : Prop :=
  ∀ s : State,
    [ErrorCode.none, .range, .validation, .invalidCharacter, .invalidLength, .invalidEncoding, .checksumMismatch,
      .truncatedData, .unsupportedVersion, .invalidFormat, .passcodeOutOfRange, .capacity, .alignment,
      .illegalCommand].map (fun e => regRead { s with err := e } 0x01) =
    [0, 1, 2, 3, 4, 5, 6, 7, 8, 9, 10, 11, 12, 13]

/-- R88, R89: LOADSTR, LOADBYTES and LOADTLV put a sequence that fits at the start of their buffer and its
length in the count register, and change nothing else. -/
def Obligations.LoadPseudoInstructions : Prop :=
  ∀ (s : State) (vs : List Byte) (rest : List HostAccess),
    (s.host = (Pseudo.loadstr vs).expand ++ rest → vs.length ≤ s.cfg.charCap →
      ∃ t, Sys2Proof.core.run (vs.length + 1) s = .next t ∧
        t = { s with host := rest, chars := t.chars, clen := BitVec.ofNat 32 vs.length } ∧
        ∀ a, t.chars.read a = if a < vs.length then vs[a]? else s.chars.read a) ∧
    (s.host = (Pseudo.loadbytes vs).expand ++ rest → vs.length ≤ s.cfg.byteCap →
      ∃ t, Sys2Proof.core.run (vs.length + 1) s = .next t ∧
        t = { s with host := rest, bytes := t.bytes, blen := BitVec.ofNat 32 vs.length } ∧
        ∀ a, t.bytes.read a = if a < vs.length then vs[a]? else s.bytes.read a) ∧
    (s.host = (Pseudo.loadtlv vs).expand ++ rest → vs.length ≤ s.cfg.tlvCap →
      ∃ t, Sys2Proof.core.run (vs.length + 1) s = .next t ∧
        t = { s with host := rest, tlv := t.tlv, tlvlen := BitVec.ofNat 32 vs.length } ∧
        ∀ a, t.tlv.read a = if a < vs.length then vs[a]? else s.tlv.read a)

/-! ## Rules over all commands -/

/-- R223: a failed command changes STATUS.ERR and nothing else. -/
def Obligations.FailedCommandChangesOnlyStatus : Prop :=
  ∀ (i : Instr) (s t : State), exec i s = .next t → t.err ≠ .none → t = { s with err := t.err }

/-- R47, R230: no command reads STATUS: after any earlier error code a command does the same. -/
def Obligations.CommandsIgnoreStatus : Prop :=
  ∀ (i : Instr) (s : State) (e : ErrorCode), exec i { s with err := e } = exec i s

/-- R25, R26: no command writes ARG0, and RES0 changes only by a successful BB.RDBITS, VH.COMPUTE, VH.VALIDATE or
VH.APPEND. -/
def Obligations.CommandsKeepArg0AndRes0 : Prop :=
  ∀ (i : Instr) (s t : State), exec i s = .next t →
    t.arg0 = s.arg0 ∧
    (t.res0 ≠ s.res0 → t.err = .none ∧
      ((∃ w, i = .bbRdbits w) ∨ i = .vhCompute ∨ i = .vhValidate ∨ i = .vhAppend))

/-- R30, R32: no command changes a bit of S once appended or moves RPOS back, except BB.CLEAR, which empties S
and sets RPOS to 0; len(S) never passes BB_CAP_BITS, and appends do not move RPOS. -/
def Obligations.StreamOnlyGrowsUntilClear : Prop :=
  ∀ (i : Instr) (s t : State), exec i s = .next t →
    (i = .bbClear → t.stream = [] ∧ t.rpos = 0) ∧
    (i ≠ .bbClear → (∃ added, t.stream = s.stream ++ added ∧ (added ≠ [] → t.rpos = s.rpos)) ∧
      s.rpos ≤ t.rpos) ∧
    (s.stream.length ≤ s.cfg.bbCapBits → t.stream.length ≤ s.cfg.bbCapBits)

/-- R100: no BitBuffer command reads or writes the record registers, CHARS, CLEN, TLV or TLVLEN: with any values
there it does the same and leaves them. It changes S only by appending at its end or by BB.CLEAR. -/
def Obligations.BitBufferCommandsTouchOnlyTheirState : Prop :=
  ∀ (i : Instr) (s : State) (r : Record) (c : Memory) (cl : Word) (v : Memory) (vl : Word),
    (i = .bbClear ∨ (∃ w, i = .bbWrbits w) ∨ (∃ w, i = .bbRdbits w) ∨ i = .bbAppend ∨ i = .bbRdbytes ∨
      i = .bbTobytes) →
    exec i { s with record := r, chars := c, clen := cl, tlv := v, tlvlen := vl } =
      mapNext (fun t => { t with record := r, chars := c, clen := cl, tlv := v, tlvlen := vl }) (exec i s) ∧
    ∀ t, exec i s = .next t →
      t.record = s.record ∧ t.chars = s.chars ∧ t.clen = s.clen ∧ t.tlv = s.tlv ∧ t.tlvlen = s.tlvlen ∧
      ((i = .bbClear ∧ t.stream = []) ∨ ∃ added, t.stream = s.stream ++ added)

/-- R48: PC.ENCQR, PC.ENCMAN and PC.PARSE never read or write the visible BitBuffer (S, RPOS), BYTES or
BLEN. -/
def Obligations.PayloadCommandsLeaveTheBitBuffer : Prop :=
  ∀ (i : Instr) (s : State) (b : Bits) (p : Nat) (m : Memory) (n : Word),
    (i = .pcEncqr ∨ i = .pcEncman ∨ ∃ strict, i = .pcParse strict) →
    exec i { s with stream := b, rpos := p, bytes := m, blen := n } =
      mapNext (fun t => { t with stream := b, rpos := p, bytes := m, blen := n }) (exec i s)

/-- R178: PC.ENCMAN does not read REC_VERSION, REC_CAPS, REC_PADDING, REC_DISC_SHORT, TLV or TLVLEN, nor REC_VID
and REC_PID in the short form, and writes no record register. -/
def Obligations.EncmanIgnoresFieldsItDoesNotCarry : Prop :=
  ∀ (s : State) (v c p : Word) (d : Bool) (m : Memory) (n : Word) (vid pid : Word),
    (∀ r : Record, r = { s.record with version := v, caps := c, padding := p, discShort := d } →
      exec .pcEncman { s with tlv := m, tlvlen := n, record := r } =
        mapNext (fun t => { t with tlv := m, tlvlen := n, record := r }) (exec .pcEncman s)) ∧
    (s.record.flow = 0 →
      exec .pcEncman { s with record := { s.record with vid := vid, pid := pid } } =
        mapNext (fun t => { t with record := { s.record with vid := vid, pid := pid } }) (exec .pcEncman s))

/-! ## The BitBuffer commands -/

/-- R101: BB.CLEAR empties S, sets RPOS to 0, and changes nothing else but STATUS; the three views then
read 0. -/
def Obligations.ClearEmptiesTheBitBuffer : Prop :=
  decode 0x00000001 = .ok .bbClear ∧
  ∀ s : State, ∃ t, exec .bbClear s = .next t ∧ t = { s with stream := [], rpos := 0, err := .none } ∧
    regRead t 0x04 = 0 ∧ regRead t 0x05 = 0 ∧ regRead t 0x06 = 0

/-- R102: BB.WRBITS appends the width low bits of ARG0, least significant first, or raises RANGE, RANGE or
CAPACITY in that order; nothing else changes. -/
def Obligations.WrbitsAppendsOrRaises : Prop :=
  ∀ (s : State) (w : Nat),
    (w < 64 → decode (0x00000002 ||| (BitVec.ofNat 32 w <<< 16)) = .ok (.bbWrbits w)) ∧
    (w < 1 ∨ 32 < w → exec (.bbWrbits w) s = .next { s with err := .range }) ∧
    (1 ≤ w → w ≤ 32 → 2 ^ w ≤ s.arg0.toNat → exec (.bbWrbits w) s = .next { s with err := .range }) ∧
    (1 ≤ w → w ≤ 32 → s.arg0.toNat < 2 ^ w → s.cfg.bbCapBits < s.stream.length + w →
      exec (.bbWrbits w) s = .next { s with err := .capacity }) ∧
    (1 ≤ w → w ≤ 32 → s.arg0.toNat < 2 ^ w → s.stream.length + w ≤ s.cfg.bbCapBits →
      ∃ t, exec (.bbWrbits w) s = .next t ∧ t = { s with stream := t.stream, err := .none } ∧
        t.stream.length = s.stream.length + w ∧
        (∀ j, j < s.stream.length → t.stream[j]? = s.stream[j]?) ∧
        ∀ j, j < w → t.stream[s.stream.length + j]? = some (s.arg0.getLsbD j))

/-- R103: BB.RDBITS puts the next width bits, zero-extended, in RES0 and advances RPOS, or raises RANGE or
TRUNCATED_DATA in that order; nothing else changes. -/
def Obligations.RdbitsConsumesOrRaises : Prop :=
  ∀ (s : State) (w : Nat),
    (w < 64 → decode (0x00000003 ||| (BitVec.ofNat 32 w <<< 16)) = .ok (.bbRdbits w)) ∧
    (w < 1 ∨ 32 < w → exec (.bbRdbits w) s = .next { s with err := .range }) ∧
    (1 ≤ w → w ≤ 32 → s.stream.length < s.rpos + w →
      exec (.bbRdbits w) s = .next { s with err := .truncatedData }) ∧
    (1 ≤ w → w ≤ 32 → s.rpos + w ≤ s.stream.length →
      ∃ t, exec (.bbRdbits w) s = .next t ∧
        t = { s with res0 := t.res0, rpos := s.rpos + w, err := .none } ∧
        (∀ j, j < w → s.stream[s.rpos + j]? = some (t.res0.getLsbD j)) ∧
        ∀ j, w ≤ j → t.res0.getLsbD j = false)

/-- R104: BB.APPEND appends BYTES[0..BLEN), each byte least significant bit first, or raises CAPACITY,
ALIGNMENT or CAPACITY in that order; nothing else changes. -/
def Obligations.AppendAddsBytesOrRaises : Prop :=
  decode 0x00000004 = .ok .bbAppend ∧
  ∀ s : State,
    (s.cfg.byteCap < s.blen.toNat → exec .bbAppend s = .next { s with err := .capacity }) ∧
    (s.blen.toNat ≤ s.cfg.byteCap → s.stream.length % 8 ≠ 0 →
      exec .bbAppend s = .next { s with err := .alignment }) ∧
    (s.blen.toNat ≤ s.cfg.byteCap → s.stream.length % 8 = 0 →
      s.cfg.bbCapBits < s.stream.length + 8 * s.blen.toNat →
      exec .bbAppend s = .next { s with err := .capacity }) ∧
    ∀ l : List Byte, l.length = s.blen.toNat → Memory.holds s.bytes l →
      s.blen.toNat ≤ s.cfg.byteCap → s.stream.length % 8 = 0 →
      s.stream.length + 8 * s.blen.toNat ≤ s.cfg.bbCapBits →
      ∃ t, exec .bbAppend s = .next t ∧ t = { s with stream := t.stream, err := .none } ∧
        t.stream.length = s.stream.length + 8 * l.length ∧
        (∀ j, j < s.stream.length → t.stream[j]? = s.stream[j]?) ∧
        ∀ k j, k < l.length → j < 8 →
          t.stream[s.stream.length + 8 * k + j]? = l[k]?.map (fun v => v.getLsbD j)

/-- R105: BB.RDBYTES moves ARG0 whole bytes from S at RPOS to BYTES[0..n), sets BLEN and advances RPOS, or raises
CAPACITY, ALIGNMENT or TRUNCATED_DATA in that order; BYTES elements at and above n, and everything else, keep
their contents. -/
def Obligations.RdbytesMovesBytesOrRaises : Prop :=
  decode 0x00000005 = .ok .bbRdbytes ∧
  ∀ s : State,
    (s.cfg.byteCap < s.arg0.toNat → exec .bbRdbytes s = .next { s with err := .capacity }) ∧
    (s.arg0.toNat ≤ s.cfg.byteCap → s.rpos % 8 ≠ 0 → exec .bbRdbytes s = .next { s with err := .alignment }) ∧
    (s.arg0.toNat ≤ s.cfg.byteCap → s.rpos % 8 = 0 → s.stream.length - s.rpos < 8 * s.arg0.toNat →
      exec .bbRdbytes s = .next { s with err := .truncatedData }) ∧
    (s.arg0.toNat ≤ s.cfg.byteCap → s.rpos % 8 = 0 → 8 * s.arg0.toNat ≤ s.stream.length - s.rpos →
      ∃ t, exec .bbRdbytes s = .next t ∧
        t = { s with bytes := t.bytes, blen := s.arg0, rpos := s.rpos + 8 * s.arg0.toNat, err := .none } ∧
        (∀ a, a < s.arg0.toNat → ∃ v, t.bytes.read a = some v ∧
          ∀ j, j < 8 → s.stream[s.rpos + 8 * a + j]? = some (v.getLsbD j)) ∧
        ∀ a, s.arg0.toNat ≤ a → t.bytes.read a = s.bytes.read a)

/-- R106: BB.TOBYTES writes the byte image of the whole of S to BYTES and its length to BLEN, zero above the last
bit, or raises CAPACITY; S, RPOS, the other BYTES elements and everything else keep their contents. -/
def Obligations.TobytesExportsTheImageOrRaises : Prop :=
  decode 0x00000006 = .ok .bbTobytes ∧
  ∀ s : State,
    (s.cfg.byteCap < (s.stream.length + 7) / 8 → exec .bbTobytes s = .next { s with err := .capacity }) ∧
    ((s.stream.length + 7) / 8 ≤ s.cfg.byteCap →
      ∃ t, exec .bbTobytes s = .next t ∧
        t = { s with bytes := t.bytes, blen := BitVec.ofNat 32 ((s.stream.length + 7) / 8), err := .none } ∧
        (∀ a, a < (s.stream.length + 7) / 8 → ∃ v, t.bytes.read a = some v ∧
          ∀ j, j < 8 → v.getLsbD j = s.stream[8 * a + j]?.getD false) ∧
        ∀ a, (s.stream.length + 7) / 8 ≤ a → t.bytes.read a = s.bytes.read a)

/-- R108, a law the spec marks as its own derivation: `PUTBITS v, w` then `BB.RDBITS w` at the end of S gives v back; and any list of fields written in
order is read back in order with the same widths. -/
def Obligations.WrittenFieldsAreReadBack : Prop :=
  (∀ (s : State) (v : Word) (w : Nat), s.rpos = s.stream.length → s.stream.length + w ≤ s.cfg.bbCapBits →
    1 ≤ w → w ≤ 32 → v.toNat < 2 ^ w →
    ∃ s1 t, exec (.bbWrbits w) { s with arg0 := v } = .next s1 ∧ exec (.bbRdbits w) s1 = .next t ∧
      t.res0 = v ∧ t.err = .none ∧ t.rpos = t.stream.length) ∧
  (∀ (s : State) (fs : List (Word × Nat)), s.rpos = s.stream.length →
    s.stream.length + (fs.map Prod.snd).sum ≤ s.cfg.bbCapBits →
    (∀ f ∈ fs, 1 ≤ f.2 ∧ f.2 ≤ 32 ∧ f.1.toNat < 2 ^ f.2) →
    ∃ s1 t, writeFields fs s = .next s1 ∧ readFields (fs.map Prod.snd) s1 = some (fs.map Prod.fst, t) ∧
      t.rpos = t.stream.length)

/-- R109, a law the spec marks as its own derivation: BB.APPEND of bytes at a whole-byte position, then BB.TOBYTES, gives those bytes as BYTES elements
len(S) div 8 onwards. -/
def Obligations.AppendedBytesAreExported : Prop :=
  ∀ (s : State) (l : List Byte), l.length = s.blen.toNat → Memory.holds s.bytes l →
    s.stream.length % 8 = 0 → s.stream.length + 8 * l.length ≤ s.cfg.bbCapBits →
    s.stream.length / 8 + l.length ≤ s.cfg.byteCap →
    ∃ s1 t, exec .bbAppend s = .next s1 ∧ exec .bbTobytes s1 = .next t ∧ t.err = .none ∧
      t.blen = BitVec.ofNat 32 (s.stream.length / 8 + l.length) ∧
      ∀ k, k < l.length → t.bytes.read (s.stream.length / 8 + k) = l[k]?

/-! ## Base38 -/

/-- R130, R131: which code each Base38 value has, and that no other code has a value: `0`-`9` for 0..9, `A`-`Z` for
10..35, `-` for 36, `.` for 37. R132, R133, R68: the characters of each group are base-38 digits, least significant
first, of the group's little-endian value; 3 bytes give 5 characters, tails of 2 and 1 give 4 and 2. -/
def Obligations.Base38GroupDigits : Prop :=
  (∀ k, k < 10 → (chr38 k).toNat = 0x30 + k) ∧
  (∀ k, 10 ≤ k → k < 36 → (chr38 k).toNat = 0x41 + (k - 10)) ∧
  chr38 36 = 0x2D ∧ chr38 37 = 0x2E ∧
  (∀ (c : Byte) (k : Nat), val38 c = some k ↔ k < 38 ∧ chr38 k = c) ∧
  (∀ c : Byte, (in38 c = true ↔ ∃ k, k < 38 ∧ chr38 k = c) ∧ (c ∈ alphabet38 ↔ in38 c = true)) ∧
  b38enc [] = [] ∧
  (∀ b0 : Byte, ∃ k0 k1, k0 < 38 ∧ k1 < 38 ∧ b0.toNat = k0 + 38 * k1 ∧ b38enc [b0] = [chr38 k0, chr38 k1]) ∧
  (∀ b0 b1 : Byte, ∃ k0 k1 k2 k3, k0 < 38 ∧ k1 < 38 ∧ k2 < 38 ∧ k3 < 38 ∧
    b0.toNat + 256 * b1.toNat = k0 + 38 * (k1 + 38 * (k2 + 38 * k3)) ∧
    b38enc [b0, b1] = [chr38 k0, chr38 k1, chr38 k2, chr38 k3]) ∧
  (∀ (b0 b1 b2 : Byte) (rest : List Byte), ∃ k0 k1 k2 k3 k4,
    k0 < 38 ∧ k1 < 38 ∧ k2 < 38 ∧ k3 < 38 ∧ k4 < 38 ∧
    b0.toNat + 256 * b1.toNat + 65536 * b2.toNat = k0 + 38 * (k1 + 38 * (k2 + 38 * (k3 + 38 * k4))) ∧
    b38enc (b0 :: b1 :: b2 :: rest) = [chr38 k0, chr38 k1, chr38 k2, chr38 k3, chr38 k4] ++ b38enc rest)

/-- R134, a law the spec marks as its own derivation: the lengths of encoding and decoding. -/
def Obligations.Base38Lengths : Prop :=
  (∀ n, b38len n = 5 * (n / 3) + [0, 2, 4].getD (n % 3) 0) ∧
  (∀ l : List Byte, (b38enc l).length = b38len l.length) ∧
  (∀ n, b38bytes (b38len n) = n) ∧
  (∀ t b : List Byte, b38dec t = .ok b → b.length = b38bytes t.length)

/-- R135: a decode raises INVALID_LENGTH first, then INVALID_CHARACTER for a character anywhere, and then gives
bytes or INVALID_ENCODING, the latter exactly when no byte sequence encodes to the text. -/
def Obligations.Base38DecodeErrorOrder : Prop :=
  ∀ t : List Byte,
    (t.length % 5 = 1 ∨ t.length % 5 = 3 → b38dec t = .error (.raise .invalidLength)) ∧
    (t.length % 5 ≠ 1 → t.length % 5 ≠ 3 → (∃ c ∈ t, c ∉ alphabet38) →
      b38dec t = .error (.raise .invalidCharacter)) ∧
    (t.length % 5 ≠ 1 → t.length % 5 ≠ 3 → (∀ c ∈ t, c ∈ alphabet38) →
      (∃ b, b38enc b = t ∧ b38dec t = .ok b) ∨
      ((∀ b, b38enc b ≠ t) ∧ b38dec t = .error (.raise .invalidEncoding)))

/-- R136: B38.ENC writes the Base38 text of BYTES[0..BLEN) to CHARS and its length to CLEN, or raises CAPACITY;
BYTES, BLEN, the other CHARS elements and everything else keep their contents. -/
def Obligations.B38EncWritesTextOrRaises : Prop :=
  decode 0x00000010 = .ok .b38Enc ∧
  ∀ s : State,
    (s.cfg.byteCap < s.blen.toNat ∨ s.cfg.charCap < b38len s.blen.toNat →
      exec .b38Enc s = .next { s with err := .capacity }) ∧
    ∀ l : List Byte, l.length = s.blen.toNat → Memory.holds s.bytes l →
      s.blen.toNat ≤ s.cfg.byteCap → b38len s.blen.toNat ≤ s.cfg.charCap →
      ∃ t, exec .b38Enc s = .next t ∧
        t = { s with chars := t.chars, clen := BitVec.ofNat 32 (b38len l.length), err := .none } ∧
        ∀ a, t.chars.read a = if a < b38len l.length then (b38enc l)[a]? else s.chars.read a

/-- R137: B38.DEC writes the bytes of CHARS[0..CLEN) to BYTES and their number to BLEN, or raises CAPACITY,
INVALID_LENGTH, CAPACITY, INVALID_CHARACTER or INVALID_ENCODING in that order; CHARS, CLEN, the other BYTES elements
and everything else keep their contents. -/
def Obligations.B38DecWritesBytesOrRaises : Prop :=
  decode 0x00000011 = .ok .b38Dec ∧
  ∀ s : State,
    (s.cfg.charCap < s.clen.toNat → exec .b38Dec s = .next { s with err := .capacity }) ∧
    (s.clen.toNat ≤ s.cfg.charCap → s.clen.toNat % 5 = 1 ∨ s.clen.toNat % 5 = 3 →
      exec .b38Dec s = .next { s with err := .invalidLength }) ∧
    (s.clen.toNat ≤ s.cfg.charCap → s.clen.toNat % 5 ≠ 1 → s.clen.toNat % 5 ≠ 3 →
      s.cfg.byteCap < b38bytes s.clen.toNat → exec .b38Dec s = .next { s with err := .capacity }) ∧
    ∀ text : List Byte, text.length = s.clen.toNat → Memory.holds s.chars text →
      s.clen.toNat ≤ s.cfg.charCap → s.clen.toNat % 5 ≠ 1 → s.clen.toNat % 5 ≠ 3 →
      b38bytes s.clen.toNat ≤ s.cfg.byteCap →
      ((∃ c ∈ text, c ∉ alphabet38) → exec .b38Dec s = .next { s with err := .invalidCharacter }) ∧
      ((∀ c ∈ text, c ∈ alphabet38) → (∀ b, b38enc b ≠ text) →
        exec .b38Dec s = .next { s with err := .invalidEncoding }) ∧
      ∀ b : List Byte, b38enc b = text →
        ∃ t, exec .b38Dec s = .next t ∧
          t = { s with bytes := t.bytes, blen := BitVec.ofNat 32 b.length, err := .none } ∧
          ∀ a, t.bytes.read a = if a < b.length then b[a]? else s.bytes.read a

/-- R138, a law the spec marks as its own derivation: B38.ENC followed by B38.DEC gives BYTES back with STATUS.ERR = 0, and a length 1 or 3 modulo 5 raises
INVALID_LENGTH. -/
def Obligations.Base38CommandsRoundTrip : Prop :=
  (∀ s : State, s.cfg.Wf → s.blen.toNat ≤ s.cfg.byteCap → b38len s.blen.toNat ≤ s.cfg.charCap →
    Memory.written s.bytes s.blen.toNat →
    ∃ s1 t, exec .b38Enc s = .next s1 ∧ exec .b38Dec s1 = .next t ∧ t.err = .none ∧ t.blen = s.blen ∧
      ∀ a, t.bytes.read a = s.bytes.read a) ∧
  (∀ s : State, s.clen.toNat ≤ s.cfg.charCap → s.clen.toNat % 5 = 1 ∨ s.clen.toNat % 5 = 3 →
    exec .b38Dec s = .next { s with err := .invalidLength })

/-! ## Verhoeff -/

/-- R160, a law the spec marks as its own derivation: the check digit makes a sequence valid, and a single altered digit or a swap of two different adjacent
digits makes a valid sequence invalid, for every length. -/
def Obligations.VerhoeffDetectsErrors : Prop :=
  (∀ ds : List Nat, (∀ d ∈ ds, d < 10) → vvalid (ds ++ [vcheck ds]) = true) ∧
  (∀ (xs ys : List Nat) (a b : Nat), (∀ d ∈ xs, d < 10) → (∀ d ∈ ys, d < 10) → a < 10 → b < 10 → a ≠ b →
    vvalid (xs ++ a :: ys) = true → vvalid (xs ++ b :: ys) = false) ∧
  (∀ (xs ys : List Nat) (a b : Nat), (∀ d ∈ xs, d < 10) → (∀ d ∈ ys, d < 10) → a < 10 → b < 10 → a ≠ b →
    vvalid (xs ++ a :: b :: ys) = true → vvalid (xs ++ b :: a :: ys) = false)

/-- R150 to R152: the table d is the multiplication of the dihedral group D5 (0..4 the rotations, 5..9 the
reflections), row 0 of p is the identity, row 1 as R151 gives it, and row r is row 1 applied r times, and inv c is the
one digit with d[c][inv[c]] = 0. R153 to R155: the accumulator takes the digits from the right, the rightmost at position
0 plus the offset, and the check digit and the validity come from it. -/
def Obligations.VerhoeffTablesAndAccumulator : Prop :=
  (∀ c x, c < 5 → x < 5 → vMul c x = (c + x) % 5 ∧ vMul c (5 + x) = 5 + (c + x) % 5 ∧
    vMul (5 + c) x = 5 + (5 + c - x) % 5 ∧ vMul (5 + c) (5 + x) = (5 + c - x) % 5) ∧
  (∀ x, x < 10 → vPerm 0 x = x) ∧
  (List.range 10).map (vPerm 1) = [1, 5, 7, 6, 2, 8, 3, 0, 9, 4] ∧
  (∀ r x, 1 ≤ r → r < 8 → x < 10 → vPerm r x = vPerm 1 (vPerm (r - 1) x)) ∧
  (∀ c k, c < 10 → k < 10 → (k = vInv c ↔ vMul c k = 0)) ∧
  (∀ offset, vacc [] offset = 0) ∧
  (∀ (x : Nat) (ds : List Nat) (offset : Nat),
    vacc (x :: ds) offset = vMul (vacc ds offset) (vPerm ((ds.length + offset) % 8) x)) ∧
  ∀ ds : List Nat, vcheck ds = vInv (vacc ds 1) ∧ (vvalid ds = true ↔ vacc ds 0 = 0)

/-- R156, R157: VH.COMPUTE puts the check digit of the digits CHARS[0..CLEN) in RES0, 0..9, or raises CAPACITY or
INVALID_CHARACTER in that order; nothing else changes. The character of the digit d has the code 0x30 + d. -/
def Obligations.VhComputeGivesTheCheckDigit : Prop :=
  decode 0x00000020 = .ok .vhCompute ∧ (∀ d, d < 10 → (digitChar d).toNat = 0x30 + d) ∧
  ∀ s : State,
    (s.cfg.charCap < s.clen.toNat → exec .vhCompute s = .next { s with err := .capacity }) ∧
    (∀ text : List Byte, text.length = s.clen.toNat → Memory.holds s.chars text → s.clen.toNat ≤ s.cfg.charCap →
      (∃ c ∈ text, c.toNat < 0x30 ∨ 0x39 < c.toNat) →
      exec .vhCompute s = .next { s with err := .invalidCharacter }) ∧
    ∀ ds : List Nat, (∀ d ∈ ds, d < 10) → ds.length = s.clen.toNat →
      Memory.holds s.chars (ds.map digitChar) → s.clen.toNat ≤ s.cfg.charCap →
      exec .vhCompute s = .next { s with res0 := BitVec.ofNat 32 (vcheck ds), err := .none } ∧
      vcheck ds < 10 ∧ ∀ k, k < 10 → (vvalid (ds ++ [k]) = true ↔ k = vcheck ds)

/-- R156, R158: VH.VALIDATE puts 1 in RES0 when the digits CHARS[0..CLEN) checksum to 0 and 0 when they do not,
with STATUS.ERR = 0 in both, or raises CAPACITY or INVALID_CHARACTER in that order; nothing else changes. -/
def Obligations.VhValidateGivesValidity : Prop :=
  decode 0x00000021 = .ok .vhValidate ∧
  ∀ s : State,
    (s.cfg.charCap < s.clen.toNat → exec .vhValidate s = .next { s with err := .capacity }) ∧
    (∀ text : List Byte, text.length = s.clen.toNat → Memory.holds s.chars text → s.clen.toNat ≤ s.cfg.charCap →
      (∃ c ∈ text, c.toNat < 0x30 ∨ 0x39 < c.toNat) →
      exec .vhValidate s = .next { s with err := .invalidCharacter }) ∧
    ∀ ds : List Nat, (∀ d ∈ ds, d < 10) → ds.length = s.clen.toNat →
      Memory.holds s.chars (ds.map digitChar) → s.clen.toNat ≤ s.cfg.charCap →
      exec .vhValidate s = .next { s with res0 := if vacc ds 0 = 0 then 1 else 0, err := .none }

/-- R156, R159: VH.APPEND writes the check digit of CHARS[0..CLEN) as a character at CHARS[CLEN], increments CLEN
and puts the digit in RES0, or raises CAPACITY, INVALID_CHARACTER or CAPACITY in that order; every other element and
register keeps its contents. VH.VALIDATE then gives RES0 = 1. -/
def Obligations.VhAppendWritesTheCheckDigit : Prop :=
  decode 0x00000022 = .ok .vhAppend ∧
  ∀ s : State,
    (s.cfg.charCap < s.clen.toNat → exec .vhAppend s = .next { s with err := .capacity }) ∧
    (∀ text : List Byte, text.length = s.clen.toNat → Memory.holds s.chars text → s.clen.toNat ≤ s.cfg.charCap →
      (∃ c ∈ text, c.toNat < 0x30 ∨ 0x39 < c.toNat) →
      exec .vhAppend s = .next { s with err := .invalidCharacter }) ∧
    (∀ ds : List Nat, (∀ d ∈ ds, d < 10) → ds.length = s.clen.toNat →
      Memory.holds s.chars (ds.map digitChar) → s.clen.toNat = s.cfg.charCap →
      exec .vhAppend s = .next { s with err := .capacity }) ∧
    ∀ ds : List Nat, (∀ d ∈ ds, d < 10) → ds.length = s.clen.toNat →
      Memory.holds s.chars (ds.map digitChar) → s.clen.toNat < s.cfg.charCap →
      ∃ t, exec .vhAppend s = .next t ∧
        t = { s with chars := t.chars, clen := BitVec.ofNat 32 (ds.length + 1),
                     res0 := BitVec.ofNat 32 (vcheck ds), err := .none } ∧
        (∀ a, t.chars.read a = if a = ds.length then some (digitChar (vcheck ds)) else s.chars.read a) ∧
        (s.cfg.Wf → exec .vhValidate t = .next { t with res0 := 1 })

/-! ## Payload -/

/-- R171, R173: the bit image of a QR payload holds each field at its offset, least significant bit first, with
version and padding 0, and the TLV bytes from byte 11 on. -/
def Obligations.QrPayloadLayout : Prop :=
  ∀ (r : Record) (tlv : List Byte), QrWidthsFit r →
    (qrBytes r tlv).length = 11 + tlv.length ∧ (qrBytes r tlv).drop 11 = tlv ∧
    fieldAt (bitImage (qrBytes r tlv)) 0 3 = 0 ∧
    fieldAt (bitImage (qrBytes r tlv)) 3 16 = r.vid.toNat ∧
    fieldAt (bitImage (qrBytes r tlv)) 19 16 = r.pid.toNat ∧
    fieldAt (bitImage (qrBytes r tlv)) 35 2 = r.flow.toNat ∧
    fieldAt (bitImage (qrBytes r tlv)) 37 8 = r.caps.toNat ∧
    fieldAt (bitImage (qrBytes r tlv)) 45 12 = r.disc.toNat ∧
    fieldAt (bitImage (qrBytes r tlv)) 57 27 = r.passcode.toNat ∧
    fieldAt (bitImage (qrBytes r tlv)) 84 4 = 0

/-- R174: PC.ENCQR writes `MT:` and the Base38 text of the payload to CHARS and its length to CLEN, or raises
UNSUPPORTED_VERSION, RANGE, CAPACITY, VALIDATION or CAPACITY in that order; the record, TLV, the other CHARS elements
and everything else keep their contents. -/
def Obligations.EncqrWritesTheQrTextOrRaises : Prop :=
  decode 0x00000030 = .ok .pcEncqr ∧
  ∀ s : State,
    (s.record.version ≠ 0 → exec .pcEncqr s = .next { s with err := .unsupportedVersion }) ∧
    (s.record.version = 0 → ¬ QrWidthsFit s.record → exec .pcEncqr s = .next { s with err := .range }) ∧
    (s.record.version = 0 → QrWidthsFit s.record → s.cfg.tlvCap < s.tlvlen.toNat →
      exec .pcEncqr s = .next { s with err := .capacity }) ∧
    (s.record.version = 0 → QrWidthsFit s.record → s.tlvlen.toNat ≤ s.cfg.tlvCap →
      QrInvalid s.cfg s.record s.tlvlen.toNat → exec .pcEncqr s = .next { s with err := .validation }) ∧
    (QrEncodable s.cfg s.record s.tlvlen.toNat → s.cfg.charCap < 3 + b38len (11 + s.tlvlen.toNat) →
      exec .pcEncqr s = .next { s with err := .capacity }) ∧
    ∀ l : List Byte, l.length = s.tlvlen.toNat → Memory.holds s.tlv l →
      QrEncodable s.cfg s.record s.tlvlen.toNat → 3 + b38len (11 + s.tlvlen.toNat) ≤ s.cfg.charCap →
      ∃ t, exec .pcEncqr s = .next t ∧
        t = { s with chars := t.chars, clen := BitVec.ofNat 32 (3 + b38len (11 + l.length)), err := .none } ∧
        ∀ a, t.chars.read a =
          if a < 3 + b38len (11 + l.length) then ([0x4D, 0x54, 0x3A] ++ b38enc (qrBytes s.record l))[a]?
          else s.chars.read a

/-- R175 to R177: the digits of a manual code are the groups c1, c2, c3, then VID and PID when the flow is not
Standard, each most significant first, then the Verhoeff check digit of those before it; 11 or 21 digits. The character of
the digit d has the code 0x30 + d (R12). -/
def Obligations.ManualCodeLayout : Prop :=
  (∀ d, d < 10 → (digitChar d).toNat = 0x30 + d) ∧
  ∀ r : Record, ManualWidthsFit r → r.passcode.toNat < 2 ^ 27 →
    ∃ ds : List Nat, manualText r = ds.map digitChar ∧ (∀ d ∈ ds, d < 10) ∧
      ds.length = (if r.flow = 0 then 11 else 21) ∧ vvalid ds = true ∧
      num ((ds.drop 0).take 1) = (if r.flow = 0 then 0 else 4) + r.disc.toNat / 2 ^ 10 ∧
      num ((ds.drop 1).take 5) = r.disc.toNat / 2 ^ 8 % 4 * 2 ^ 14 + r.passcode.toNat % 2 ^ 14 ∧
      num ((ds.drop 6).take 4) = r.passcode.toNat / 2 ^ 14 ∧
      (r.flow ≠ 0 → num ((ds.drop 10).take 5) = r.vid.toNat ∧ num ((ds.drop 15).take 5) = r.pid.toNat)

/-- R178: PC.ENCMAN writes the manual code to CHARS and its length, 11 or 21, to CLEN, or raises RANGE, VALIDATION or
PASSCODE_OUT_OF_RANGE in that order; the record, the other CHARS elements and everything else keep their
contents. -/
def Obligations.EncmanWritesTheManualCodeOrRaises : Prop :=
  decode 0x00000031 = .ok .pcEncman ∧
  ∀ s : State,
    (¬ ManualWidthsFit s.record → exec .pcEncman s = .next { s with err := .range }) ∧
    (ManualWidthsFit s.record → s.record.flow = 3 → exec .pcEncman s = .next { s with err := .validation }) ∧
    (ManualWidthsFit s.record → s.record.flow ≠ 3 → ¬ PasscodeValid s.cfg s.record.passcode.toNat →
      exec .pcEncman s = .next { s with err := .passcodeOutOfRange }) ∧
    (ManualWidthsFit s.record → s.record.flow ≠ 3 → PasscodeValid s.cfg s.record.passcode.toNat →
      ∃ t, exec .pcEncman s = .next t ∧
        t = { s with chars := t.chars, clen := if s.record.flow = 0 then 11 else 21, err := .none } ∧
        ∀ a, t.chars.read a =
          if a < (if s.record.flow = 0 then 11 else 21) then (manualText s.record)[a]? else s.chars.read a)

/-- R179: PC.PARSE raises CAPACITY for CLEN > CHAR_CAP, and INVALID_FORMAT for a text that neither starts with the
marker nor is 11 or 21 digits; nothing else changes. -/
def Obligations.ParseRejectsOtherShapes : Prop :=
  decode 0x00000032 = .ok (.pcParse false) ∧ decode 0x00000132 = .ok (.pcParse true) ∧
  ∀ (s : State) (strict : Bool),
    (s.cfg.charCap < s.clen.toNat → exec (.pcParse strict) s = .next { s with err := .capacity }) ∧
    ∀ text : List Byte, text.length = s.clen.toNat → Memory.holds s.chars text → s.clen.toNat ≤ s.cfg.charCap →
      text.take 3 ≠ [0x4D, 0x54, 0x3A] →
      (text.length ≠ 11 ∧ text.length ≠ 21) ∨ (∃ c ∈ text, c.toNat < 0x30 ∨ 0x39 < c.toNat) →
      exec (.pcParse strict) s = .next { s with err := .invalidFormat }

/-- R180, R181: PC.PARSE of `MT:` and a Base38 text decodes it, checks it in the rules' order, and on success writes
every record register, TLV and TLVLEN, padding copied (refused under STRICT when nonzero); the other TLV elements and
everything else keep their contents. -/
def Obligations.ParseReadsTheQrForm : Prop :=
  ∀ (s : State) (strict : Bool) (u : List Byte), 3 + u.length = s.clen.toNat →
    Memory.holds s.chars ([0x4D, 0x54, 0x3A] ++ u) → s.clen.toNat ≤ s.cfg.charCap →
    (∀ e, b38dec u = .error (.raise e) → exec (.pcParse strict) s = .next { s with err := e }) ∧
    ∀ b : List Byte, b38dec u = .ok b →
      (b.length < 11 → exec (.pcParse strict) s = .next { s with err := .truncatedData }) ∧
      (11 ≤ b.length → s.cfg.tlvCap < b.length - 11 →
        exec (.pcParse strict) s = .next { s with err := .capacity }) ∧
      (11 ≤ b.length → b.length - 11 ≤ s.cfg.tlvCap → fieldAt (bitImage b) 0 3 ≠ 0 →
        exec (.pcParse strict) s = .next { s with err := .unsupportedVersion }) ∧
      (11 ≤ b.length → b.length - 11 ≤ s.cfg.tlvCap → fieldAt (bitImage b) 0 3 = 0 →
        (fieldAt (bitImage b) 35 2 = 3 ∨ ¬ PasscodeValid s.cfg (fieldAt (bitImage b) 57 27) ∨
          (fieldAt (bitImage b) 35 2 = 2 ∧ b.length = 11) ∨
          (strict = true ∧ fieldAt (bitImage b) 84 4 ≠ 0)) →
        exec (.pcParse strict) s = .next { s with err := .validation }) ∧
      (11 ≤ b.length → b.length - 11 ≤ s.cfg.tlvCap → fieldAt (bitImage b) 0 3 = 0 →
        fieldAt (bitImage b) 35 2 ≠ 3 → PasscodeValid s.cfg (fieldAt (bitImage b) 57 27) →
        (fieldAt (bitImage b) 35 2 = 2 → b.length ≠ 11) →
        (strict = true → fieldAt (bitImage b) 84 4 = 0) →
        ∃ t, exec (.pcParse strict) s = .next t ∧
          t = { s with record := t.record, tlv := t.tlv, tlvlen := BitVec.ofNat 32 (b.length - 11),
                       err := .none } ∧
          t.record.version = 0 ∧ t.record.vid.toNat = fieldAt (bitImage b) 3 16 ∧
          t.record.pid.toNat = fieldAt (bitImage b) 19 16 ∧ t.record.flow.toNat = fieldAt (bitImage b) 35 2 ∧
          t.record.caps.toNat = fieldAt (bitImage b) 37 8 ∧ t.record.disc.toNat = fieldAt (bitImage b) 45 12 ∧
          t.record.passcode.toNat = fieldAt (bitImage b) 57 27 ∧
          t.record.padding.toNat = fieldAt (bitImage b) 84 4 ∧ t.record.discShort = false ∧
          ∀ a, t.tlv.read a = if a < b.length - 11 then b[11 + a]? else s.tlv.read a)

/-- R182 to R184: PC.PARSE of 11 or 21 digits checks the checksum first, then the groups, then the flag, then the
passcode, and on success writes every record register (the uncarried ones as R184 fixes them) and TLVLEN = 0; STRICT
has no effect, and TLV elements and everything else keep their contents. -/
def Obligations.ParseReadsTheManualForm : Prop :=
  ∀ (s : State) (strict : Bool) (ds : List Nat), (∀ d ∈ ds, d < 10) → ds.length = s.clen.toNat →
    ds.length = 11 ∨ ds.length = 21 → Memory.holds s.chars (ds.map digitChar) → s.clen.toNat ≤ s.cfg.charCap →
    let c1 := num ((ds.drop 0).take 1)
    let c2 := num ((ds.drop 1).take 5)
    let c3 := num ((ds.drop 6).take 4)
    let vid := if ds.length = 21 then num ((ds.drop 10).take 5) else 0
    let pid := if ds.length = 21 then num ((ds.drop 15).take 5) else 0
    let fits := c1 ≤ 7 ∧ c2 ≤ 65535 ∧ c3 ≤ 8191 ∧ vid ≤ 65535 ∧ pid ≤ 65535
    let flag := c1 / 4 = (if ds.length = 21 then 1 else 0)
    let passcode := c3 * 2 ^ 14 + c2 % 2 ^ 14
    (vvalid ds = false → exec (.pcParse strict) s = .next { s with err := .checksumMismatch }) ∧
    (vvalid ds = true → ¬ fits → exec (.pcParse strict) s = .next { s with err := .range }) ∧
    (vvalid ds = true → fits → ¬ flag → exec (.pcParse strict) s = .next { s with err := .invalidFormat }) ∧
    (vvalid ds = true → fits → flag → ¬ PasscodeValid s.cfg passcode →
      exec (.pcParse strict) s = .next { s with err := .passcodeOutOfRange }) ∧
    (vvalid ds = true → fits → flag → PasscodeValid s.cfg passcode →
      ∃ r : Record, exec (.pcParse strict) s = .next { s with record := r, tlvlen := 0, err := .none } ∧
        r.version = 0 ∧ r.vid.toNat = vid ∧ r.pid.toNat = pid ∧
        r.flow = (if ds.length = 21 then 2 else 0) ∧ r.caps = 0 ∧
        r.disc.toNat = (c1 % 4 * 4 + c2 / 2 ^ 14) * 2 ^ 8 ∧ r.passcode.toNat = passcode ∧ r.padding = 0 ∧
        r.discShort = true)

/-- R185, law 1 (the spec's own derivation): PC.PARSE, strict or not, of the text PC.ENCQR has written succeeds and gives the record and the TLV
data back. -/
def Obligations.QrFormRoundTrips : Prop :=
  ∀ (s s1 : State) (strict : Bool), s.cfg.Wf → exec .pcEncqr s = .next s1 → s1.err = .none →
    ∃ t, exec (.pcParse strict) s1 = .next t ∧ t.err = .none ∧ t.record = s.record ∧
      t.record.padding = 0 ∧ t.record.discShort = false ∧ t.tlvlen = s.tlvlen ∧
      ∀ a, t.tlv.read a = s.tlv.read a

/-- R185, laws 2 and 3 (the spec's own derivation): PC.PARSE of the code PC.ENCMAN has written succeeds and gives the passcode, the short
discriminator and, in the long form, VID and PID back, and PC.ENCMAN of that record gives the same code. -/
def Obligations.ManualFormRoundTrips : Prop :=
  ∀ (s s1 : State) (strict : Bool), s.cfg.Wf → exec .pcEncman s = .next s1 → s1.err = .none →
    ∃ t, exec (.pcParse strict) s1 = .next t ∧ t.err = .none ∧ t.record.passcode = s.record.passcode ∧
      t.record.disc.toNat = s.record.disc.toNat / 2 ^ 8 * 2 ^ 8 ∧
      (s1.clen = 21 → t.record.vid = s.record.vid ∧ t.record.pid = s.record.pid) ∧
      ∃ u, exec .pcEncman t = .next u ∧ u.err = .none ∧ u.clen = s1.clen ∧
        ∀ a, u.chars.read a = s1.chars.read a

/-- R181: every record PC.PARSE yields from a QR text is one PC.ENCQR accepts, nonzero padding apart. PC.ENCQR then
writes the very text that was parsed: that clause is no sentence of the spec, it follows from R133, R135 and R172 to
R174. -/
def Obligations.ParsedQrTextReencodes : Prop :=
  ∀ (s t : State) (strict : Bool), s.cfg.Wf → exec (.pcParse strict) s = .next t → t.err = .none →
    t.record.discShort = false → t.record.padding = 0 →
    ∃ u, exec .pcEncqr t = .next u ∧ u.err = .none ∧ u.clen = s.clen ∧
      ∀ a, u.chars.read a = s.chars.read a

/-- R160 (the spec's own derivation), R182: a manual code PC.ENCMAN has written, with any one digit altered to another, fails PC.PARSE with
CHECKSUM_MISMATCH, and no record register changes. -/
def Obligations.AlteredManualCodeIsRejected : Prop :=
  ∀ (s s1 : State) (strict : Bool) (k d : Nat), s.cfg.Wf → exec .pcEncman s = .next s1 → s1.err = .none →
    k < s1.clen.toNat → d < 10 → s1.chars.read k ≠ some (digitChar d) →
    exec (.pcParse strict) { s1 with chars := s1.chars.write k (digitChar d) } =
      .next { s1 with chars := s1.chars.write k (digitChar d), err := .checksumMismatch }
end

