-- ==== Sys2Proof/Laws/State.lean ====
section
/-! SUPPORT. One lemma per field per update of State, each by rfl, so that no proof unfolds a record update. -/

namespace Sys2Proof.Machine

variable (s : State)

@[simp] theorem State.setHost_cfg (v : List HostAccess) : (s.setHost v).cfg = s.cfg := rfl
@[simp] theorem State.setHost_host (v : List HostAccess) : (s.setHost v).host = v := rfl
@[simp] theorem State.setHost_responses (v : List HostAccess) : (s.setHost v).responses = s.responses := rfl
@[simp] theorem State.setHost_err (v : List HostAccess) : (s.setHost v).err = s.err := rfl
@[simp] theorem State.setHost_arg0 (v : List HostAccess) : (s.setHost v).arg0 = s.arg0 := rfl
@[simp] theorem State.setHost_res0 (v : List HostAccess) : (s.setHost v).res0 = s.res0 := rfl
@[simp] theorem State.setHost_blen (v : List HostAccess) : (s.setHost v).blen = s.blen := rfl
@[simp] theorem State.setHost_clen (v : List HostAccess) : (s.setHost v).clen = s.clen := rfl
@[simp] theorem State.setHost_tlvlen (v : List HostAccess) : (s.setHost v).tlvlen = s.tlvlen := rfl
@[simp] theorem State.setHost_stream (v : List HostAccess) : (s.setHost v).stream = s.stream := rfl
@[simp] theorem State.setHost_rpos (v : List HostAccess) : (s.setHost v).rpos = s.rpos := rfl
@[simp] theorem State.setHost_bytes (v : List HostAccess) : (s.setHost v).bytes = s.bytes := rfl
@[simp] theorem State.setHost_chars (v : List HostAccess) : (s.setHost v).chars = s.chars := rfl
@[simp] theorem State.setHost_tlv (v : List HostAccess) : (s.setHost v).tlv = s.tlv := rfl
@[simp] theorem State.setHost_record (v : List HostAccess) : (s.setHost v).record = s.record := rfl
@[simp] theorem State.setHost_setHost (v w : List HostAccess) : (s.setHost v).setHost w = s.setHost w := rfl
@[simp] theorem State.setHost_self : s.setHost s.host = s := rfl

@[simp] theorem State.setResponses_cfg (v : List Response) : (s.setResponses v).cfg = s.cfg := rfl
@[simp] theorem State.setResponses_host (v : List Response) : (s.setResponses v).host = s.host := rfl
@[simp] theorem State.setResponses_responses (v : List Response) : (s.setResponses v).responses = v := rfl
@[simp] theorem State.setResponses_err (v : List Response) : (s.setResponses v).err = s.err := rfl
@[simp] theorem State.setResponses_arg0 (v : List Response) : (s.setResponses v).arg0 = s.arg0 := rfl
@[simp] theorem State.setResponses_res0 (v : List Response) : (s.setResponses v).res0 = s.res0 := rfl
@[simp] theorem State.setResponses_blen (v : List Response) : (s.setResponses v).blen = s.blen := rfl
@[simp] theorem State.setResponses_clen (v : List Response) : (s.setResponses v).clen = s.clen := rfl
@[simp] theorem State.setResponses_tlvlen (v : List Response) : (s.setResponses v).tlvlen = s.tlvlen := rfl
@[simp] theorem State.setResponses_stream (v : List Response) : (s.setResponses v).stream = s.stream := rfl
@[simp] theorem State.setResponses_rpos (v : List Response) : (s.setResponses v).rpos = s.rpos := rfl
@[simp] theorem State.setResponses_bytes (v : List Response) : (s.setResponses v).bytes = s.bytes := rfl
@[simp] theorem State.setResponses_chars (v : List Response) : (s.setResponses v).chars = s.chars := rfl
@[simp] theorem State.setResponses_tlv (v : List Response) : (s.setResponses v).tlv = s.tlv := rfl
@[simp] theorem State.setResponses_record (v : List Response) : (s.setResponses v).record = s.record := rfl
@[simp] theorem State.setResponses_setResponses (v w : List Response) : (s.setResponses v).setResponses w = s.setResponses w := rfl
@[simp] theorem State.setResponses_self : s.setResponses s.responses = s := rfl

@[simp] theorem State.setErr_cfg (v : ErrorCode) : (s.setErr v).cfg = s.cfg := rfl
@[simp] theorem State.setErr_host (v : ErrorCode) : (s.setErr v).host = s.host := rfl
@[simp] theorem State.setErr_responses (v : ErrorCode) : (s.setErr v).responses = s.responses := rfl
@[simp] theorem State.setErr_err (v : ErrorCode) : (s.setErr v).err = v := rfl
@[simp] theorem State.setErr_arg0 (v : ErrorCode) : (s.setErr v).arg0 = s.arg0 := rfl
@[simp] theorem State.setErr_res0 (v : ErrorCode) : (s.setErr v).res0 = s.res0 := rfl
@[simp] theorem State.setErr_blen (v : ErrorCode) : (s.setErr v).blen = s.blen := rfl
@[simp] theorem State.setErr_clen (v : ErrorCode) : (s.setErr v).clen = s.clen := rfl
@[simp] theorem State.setErr_tlvlen (v : ErrorCode) : (s.setErr v).tlvlen = s.tlvlen := rfl
@[simp] theorem State.setErr_stream (v : ErrorCode) : (s.setErr v).stream = s.stream := rfl
@[simp] theorem State.setErr_rpos (v : ErrorCode) : (s.setErr v).rpos = s.rpos := rfl
@[simp] theorem State.setErr_bytes (v : ErrorCode) : (s.setErr v).bytes = s.bytes := rfl
@[simp] theorem State.setErr_chars (v : ErrorCode) : (s.setErr v).chars = s.chars := rfl
@[simp] theorem State.setErr_tlv (v : ErrorCode) : (s.setErr v).tlv = s.tlv := rfl
@[simp] theorem State.setErr_record (v : ErrorCode) : (s.setErr v).record = s.record := rfl
@[simp] theorem State.setErr_setErr (v w : ErrorCode) : (s.setErr v).setErr w = s.setErr w := rfl
@[simp] theorem State.setErr_self : s.setErr s.err = s := rfl

@[simp] theorem State.setArg0_cfg (v : Word) : (s.setArg0 v).cfg = s.cfg := rfl
@[simp] theorem State.setArg0_host (v : Word) : (s.setArg0 v).host = s.host := rfl
@[simp] theorem State.setArg0_responses (v : Word) : (s.setArg0 v).responses = s.responses := rfl
@[simp] theorem State.setArg0_err (v : Word) : (s.setArg0 v).err = s.err := rfl
@[simp] theorem State.setArg0_arg0 (v : Word) : (s.setArg0 v).arg0 = v := rfl
@[simp] theorem State.setArg0_res0 (v : Word) : (s.setArg0 v).res0 = s.res0 := rfl
@[simp] theorem State.setArg0_blen (v : Word) : (s.setArg0 v).blen = s.blen := rfl
@[simp] theorem State.setArg0_clen (v : Word) : (s.setArg0 v).clen = s.clen := rfl
@[simp] theorem State.setArg0_tlvlen (v : Word) : (s.setArg0 v).tlvlen = s.tlvlen := rfl
@[simp] theorem State.setArg0_stream (v : Word) : (s.setArg0 v).stream = s.stream := rfl
@[simp] theorem State.setArg0_rpos (v : Word) : (s.setArg0 v).rpos = s.rpos := rfl
@[simp] theorem State.setArg0_bytes (v : Word) : (s.setArg0 v).bytes = s.bytes := rfl
@[simp] theorem State.setArg0_chars (v : Word) : (s.setArg0 v).chars = s.chars := rfl
@[simp] theorem State.setArg0_tlv (v : Word) : (s.setArg0 v).tlv = s.tlv := rfl
@[simp] theorem State.setArg0_record (v : Word) : (s.setArg0 v).record = s.record := rfl
@[simp] theorem State.setArg0_setArg0 (v w : Word) : (s.setArg0 v).setArg0 w = s.setArg0 w := rfl
@[simp] theorem State.setArg0_self : s.setArg0 s.arg0 = s := rfl

@[simp] theorem State.setRes0_cfg (v : Word) : (s.setRes0 v).cfg = s.cfg := rfl
@[simp] theorem State.setRes0_host (v : Word) : (s.setRes0 v).host = s.host := rfl
@[simp] theorem State.setRes0_responses (v : Word) : (s.setRes0 v).responses = s.responses := rfl
@[simp] theorem State.setRes0_err (v : Word) : (s.setRes0 v).err = s.err := rfl
@[simp] theorem State.setRes0_arg0 (v : Word) : (s.setRes0 v).arg0 = s.arg0 := rfl
@[simp] theorem State.setRes0_res0 (v : Word) : (s.setRes0 v).res0 = v := rfl
@[simp] theorem State.setRes0_blen (v : Word) : (s.setRes0 v).blen = s.blen := rfl
@[simp] theorem State.setRes0_clen (v : Word) : (s.setRes0 v).clen = s.clen := rfl
@[simp] theorem State.setRes0_tlvlen (v : Word) : (s.setRes0 v).tlvlen = s.tlvlen := rfl
@[simp] theorem State.setRes0_stream (v : Word) : (s.setRes0 v).stream = s.stream := rfl
@[simp] theorem State.setRes0_rpos (v : Word) : (s.setRes0 v).rpos = s.rpos := rfl
@[simp] theorem State.setRes0_bytes (v : Word) : (s.setRes0 v).bytes = s.bytes := rfl
@[simp] theorem State.setRes0_chars (v : Word) : (s.setRes0 v).chars = s.chars := rfl
@[simp] theorem State.setRes0_tlv (v : Word) : (s.setRes0 v).tlv = s.tlv := rfl
@[simp] theorem State.setRes0_record (v : Word) : (s.setRes0 v).record = s.record := rfl
@[simp] theorem State.setRes0_setRes0 (v w : Word) : (s.setRes0 v).setRes0 w = s.setRes0 w := rfl
@[simp] theorem State.setRes0_self : s.setRes0 s.res0 = s := rfl

@[simp] theorem State.setBlen_cfg (v : Word) : (s.setBlen v).cfg = s.cfg := rfl
@[simp] theorem State.setBlen_host (v : Word) : (s.setBlen v).host = s.host := rfl
@[simp] theorem State.setBlen_responses (v : Word) : (s.setBlen v).responses = s.responses := rfl
@[simp] theorem State.setBlen_err (v : Word) : (s.setBlen v).err = s.err := rfl
@[simp] theorem State.setBlen_arg0 (v : Word) : (s.setBlen v).arg0 = s.arg0 := rfl
@[simp] theorem State.setBlen_res0 (v : Word) : (s.setBlen v).res0 = s.res0 := rfl
@[simp] theorem State.setBlen_blen (v : Word) : (s.setBlen v).blen = v := rfl
@[simp] theorem State.setBlen_clen (v : Word) : (s.setBlen v).clen = s.clen := rfl
@[simp] theorem State.setBlen_tlvlen (v : Word) : (s.setBlen v).tlvlen = s.tlvlen := rfl
@[simp] theorem State.setBlen_stream (v : Word) : (s.setBlen v).stream = s.stream := rfl
@[simp] theorem State.setBlen_rpos (v : Word) : (s.setBlen v).rpos = s.rpos := rfl
@[simp] theorem State.setBlen_bytes (v : Word) : (s.setBlen v).bytes = s.bytes := rfl
@[simp] theorem State.setBlen_chars (v : Word) : (s.setBlen v).chars = s.chars := rfl
@[simp] theorem State.setBlen_tlv (v : Word) : (s.setBlen v).tlv = s.tlv := rfl
@[simp] theorem State.setBlen_record (v : Word) : (s.setBlen v).record = s.record := rfl
@[simp] theorem State.setBlen_setBlen (v w : Word) : (s.setBlen v).setBlen w = s.setBlen w := rfl
@[simp] theorem State.setBlen_self : s.setBlen s.blen = s := rfl

@[simp] theorem State.setClen_cfg (v : Word) : (s.setClen v).cfg = s.cfg := rfl
@[simp] theorem State.setClen_host (v : Word) : (s.setClen v).host = s.host := rfl
@[simp] theorem State.setClen_responses (v : Word) : (s.setClen v).responses = s.responses := rfl
@[simp] theorem State.setClen_err (v : Word) : (s.setClen v).err = s.err := rfl
@[simp] theorem State.setClen_arg0 (v : Word) : (s.setClen v).arg0 = s.arg0 := rfl
@[simp] theorem State.setClen_res0 (v : Word) : (s.setClen v).res0 = s.res0 := rfl
@[simp] theorem State.setClen_blen (v : Word) : (s.setClen v).blen = s.blen := rfl
@[simp] theorem State.setClen_clen (v : Word) : (s.setClen v).clen = v := rfl
@[simp] theorem State.setClen_tlvlen (v : Word) : (s.setClen v).tlvlen = s.tlvlen := rfl
@[simp] theorem State.setClen_stream (v : Word) : (s.setClen v).stream = s.stream := rfl
@[simp] theorem State.setClen_rpos (v : Word) : (s.setClen v).rpos = s.rpos := rfl
@[simp] theorem State.setClen_bytes (v : Word) : (s.setClen v).bytes = s.bytes := rfl
@[simp] theorem State.setClen_chars (v : Word) : (s.setClen v).chars = s.chars := rfl
@[simp] theorem State.setClen_tlv (v : Word) : (s.setClen v).tlv = s.tlv := rfl
@[simp] theorem State.setClen_record (v : Word) : (s.setClen v).record = s.record := rfl
@[simp] theorem State.setClen_setClen (v w : Word) : (s.setClen v).setClen w = s.setClen w := rfl
@[simp] theorem State.setClen_self : s.setClen s.clen = s := rfl

@[simp] theorem State.setTlvlen_cfg (v : Word) : (s.setTlvlen v).cfg = s.cfg := rfl
@[simp] theorem State.setTlvlen_host (v : Word) : (s.setTlvlen v).host = s.host := rfl
@[simp] theorem State.setTlvlen_responses (v : Word) : (s.setTlvlen v).responses = s.responses := rfl
@[simp] theorem State.setTlvlen_err (v : Word) : (s.setTlvlen v).err = s.err := rfl
@[simp] theorem State.setTlvlen_arg0 (v : Word) : (s.setTlvlen v).arg0 = s.arg0 := rfl
@[simp] theorem State.setTlvlen_res0 (v : Word) : (s.setTlvlen v).res0 = s.res0 := rfl
@[simp] theorem State.setTlvlen_blen (v : Word) : (s.setTlvlen v).blen = s.blen := rfl
@[simp] theorem State.setTlvlen_clen (v : Word) : (s.setTlvlen v).clen = s.clen := rfl
@[simp] theorem State.setTlvlen_tlvlen (v : Word) : (s.setTlvlen v).tlvlen = v := rfl
@[simp] theorem State.setTlvlen_stream (v : Word) : (s.setTlvlen v).stream = s.stream := rfl
@[simp] theorem State.setTlvlen_rpos (v : Word) : (s.setTlvlen v).rpos = s.rpos := rfl
@[simp] theorem State.setTlvlen_bytes (v : Word) : (s.setTlvlen v).bytes = s.bytes := rfl
@[simp] theorem State.setTlvlen_chars (v : Word) : (s.setTlvlen v).chars = s.chars := rfl
@[simp] theorem State.setTlvlen_tlv (v : Word) : (s.setTlvlen v).tlv = s.tlv := rfl
@[simp] theorem State.setTlvlen_record (v : Word) : (s.setTlvlen v).record = s.record := rfl
@[simp] theorem State.setTlvlen_setTlvlen (v w : Word) : (s.setTlvlen v).setTlvlen w = s.setTlvlen w := rfl
@[simp] theorem State.setTlvlen_self : s.setTlvlen s.tlvlen = s := rfl

@[simp] theorem State.setStream_cfg (v : Bits) : (s.setStream v).cfg = s.cfg := rfl
@[simp] theorem State.setStream_host (v : Bits) : (s.setStream v).host = s.host := rfl
@[simp] theorem State.setStream_responses (v : Bits) : (s.setStream v).responses = s.responses := rfl
@[simp] theorem State.setStream_err (v : Bits) : (s.setStream v).err = s.err := rfl
@[simp] theorem State.setStream_arg0 (v : Bits) : (s.setStream v).arg0 = s.arg0 := rfl
@[simp] theorem State.setStream_res0 (v : Bits) : (s.setStream v).res0 = s.res0 := rfl
@[simp] theorem State.setStream_blen (v : Bits) : (s.setStream v).blen = s.blen := rfl
@[simp] theorem State.setStream_clen (v : Bits) : (s.setStream v).clen = s.clen := rfl
@[simp] theorem State.setStream_tlvlen (v : Bits) : (s.setStream v).tlvlen = s.tlvlen := rfl
@[simp] theorem State.setStream_stream (v : Bits) : (s.setStream v).stream = v := rfl
@[simp] theorem State.setStream_rpos (v : Bits) : (s.setStream v).rpos = s.rpos := rfl
@[simp] theorem State.setStream_bytes (v : Bits) : (s.setStream v).bytes = s.bytes := rfl
@[simp] theorem State.setStream_chars (v : Bits) : (s.setStream v).chars = s.chars := rfl
@[simp] theorem State.setStream_tlv (v : Bits) : (s.setStream v).tlv = s.tlv := rfl
@[simp] theorem State.setStream_record (v : Bits) : (s.setStream v).record = s.record := rfl
@[simp] theorem State.setStream_setStream (v w : Bits) : (s.setStream v).setStream w = s.setStream w := rfl
@[simp] theorem State.setStream_self : s.setStream s.stream = s := rfl

@[simp] theorem State.setRpos_cfg (v : Nat) : (s.setRpos v).cfg = s.cfg := rfl
@[simp] theorem State.setRpos_host (v : Nat) : (s.setRpos v).host = s.host := rfl
@[simp] theorem State.setRpos_responses (v : Nat) : (s.setRpos v).responses = s.responses := rfl
@[simp] theorem State.setRpos_err (v : Nat) : (s.setRpos v).err = s.err := rfl
@[simp] theorem State.setRpos_arg0 (v : Nat) : (s.setRpos v).arg0 = s.arg0 := rfl
@[simp] theorem State.setRpos_res0 (v : Nat) : (s.setRpos v).res0 = s.res0 := rfl
@[simp] theorem State.setRpos_blen (v : Nat) : (s.setRpos v).blen = s.blen := rfl
@[simp] theorem State.setRpos_clen (v : Nat) : (s.setRpos v).clen = s.clen := rfl
@[simp] theorem State.setRpos_tlvlen (v : Nat) : (s.setRpos v).tlvlen = s.tlvlen := rfl
@[simp] theorem State.setRpos_stream (v : Nat) : (s.setRpos v).stream = s.stream := rfl
@[simp] theorem State.setRpos_rpos (v : Nat) : (s.setRpos v).rpos = v := rfl
@[simp] theorem State.setRpos_bytes (v : Nat) : (s.setRpos v).bytes = s.bytes := rfl
@[simp] theorem State.setRpos_chars (v : Nat) : (s.setRpos v).chars = s.chars := rfl
@[simp] theorem State.setRpos_tlv (v : Nat) : (s.setRpos v).tlv = s.tlv := rfl
@[simp] theorem State.setRpos_record (v : Nat) : (s.setRpos v).record = s.record := rfl
@[simp] theorem State.setRpos_setRpos (v w : Nat) : (s.setRpos v).setRpos w = s.setRpos w := rfl
@[simp] theorem State.setRpos_self : s.setRpos s.rpos = s := rfl

@[simp] theorem State.setBytes_cfg (v : Memory) : (s.setBytes v).cfg = s.cfg := rfl
@[simp] theorem State.setBytes_host (v : Memory) : (s.setBytes v).host = s.host := rfl
@[simp] theorem State.setBytes_responses (v : Memory) : (s.setBytes v).responses = s.responses := rfl
@[simp] theorem State.setBytes_err (v : Memory) : (s.setBytes v).err = s.err := rfl
@[simp] theorem State.setBytes_arg0 (v : Memory) : (s.setBytes v).arg0 = s.arg0 := rfl
@[simp] theorem State.setBytes_res0 (v : Memory) : (s.setBytes v).res0 = s.res0 := rfl
@[simp] theorem State.setBytes_blen (v : Memory) : (s.setBytes v).blen = s.blen := rfl
@[simp] theorem State.setBytes_clen (v : Memory) : (s.setBytes v).clen = s.clen := rfl
@[simp] theorem State.setBytes_tlvlen (v : Memory) : (s.setBytes v).tlvlen = s.tlvlen := rfl
@[simp] theorem State.setBytes_stream (v : Memory) : (s.setBytes v).stream = s.stream := rfl
@[simp] theorem State.setBytes_rpos (v : Memory) : (s.setBytes v).rpos = s.rpos := rfl
@[simp] theorem State.setBytes_bytes (v : Memory) : (s.setBytes v).bytes = v := rfl
@[simp] theorem State.setBytes_chars (v : Memory) : (s.setBytes v).chars = s.chars := rfl
@[simp] theorem State.setBytes_tlv (v : Memory) : (s.setBytes v).tlv = s.tlv := rfl
@[simp] theorem State.setBytes_record (v : Memory) : (s.setBytes v).record = s.record := rfl
@[simp] theorem State.setBytes_setBytes (v w : Memory) : (s.setBytes v).setBytes w = s.setBytes w := rfl
@[simp] theorem State.setBytes_self : s.setBytes s.bytes = s := rfl

@[simp] theorem State.setChars_cfg (v : Memory) : (s.setChars v).cfg = s.cfg := rfl
@[simp] theorem State.setChars_host (v : Memory) : (s.setChars v).host = s.host := rfl
@[simp] theorem State.setChars_responses (v : Memory) : (s.setChars v).responses = s.responses := rfl
@[simp] theorem State.setChars_err (v : Memory) : (s.setChars v).err = s.err := rfl
@[simp] theorem State.setChars_arg0 (v : Memory) : (s.setChars v).arg0 = s.arg0 := rfl
@[simp] theorem State.setChars_res0 (v : Memory) : (s.setChars v).res0 = s.res0 := rfl
@[simp] theorem State.setChars_blen (v : Memory) : (s.setChars v).blen = s.blen := rfl
@[simp] theorem State.setChars_clen (v : Memory) : (s.setChars v).clen = s.clen := rfl
@[simp] theorem State.setChars_tlvlen (v : Memory) : (s.setChars v).tlvlen = s.tlvlen := rfl
@[simp] theorem State.setChars_stream (v : Memory) : (s.setChars v).stream = s.stream := rfl
@[simp] theorem State.setChars_rpos (v : Memory) : (s.setChars v).rpos = s.rpos := rfl
@[simp] theorem State.setChars_bytes (v : Memory) : (s.setChars v).bytes = s.bytes := rfl
@[simp] theorem State.setChars_chars (v : Memory) : (s.setChars v).chars = v := rfl
@[simp] theorem State.setChars_tlv (v : Memory) : (s.setChars v).tlv = s.tlv := rfl
@[simp] theorem State.setChars_record (v : Memory) : (s.setChars v).record = s.record := rfl
@[simp] theorem State.setChars_setChars (v w : Memory) : (s.setChars v).setChars w = s.setChars w := rfl
@[simp] theorem State.setChars_self : s.setChars s.chars = s := rfl

@[simp] theorem State.setTlv_cfg (v : Memory) : (s.setTlv v).cfg = s.cfg := rfl
@[simp] theorem State.setTlv_host (v : Memory) : (s.setTlv v).host = s.host := rfl
@[simp] theorem State.setTlv_responses (v : Memory) : (s.setTlv v).responses = s.responses := rfl
@[simp] theorem State.setTlv_err (v : Memory) : (s.setTlv v).err = s.err := rfl
@[simp] theorem State.setTlv_arg0 (v : Memory) : (s.setTlv v).arg0 = s.arg0 := rfl
@[simp] theorem State.setTlv_res0 (v : Memory) : (s.setTlv v).res0 = s.res0 := rfl
@[simp] theorem State.setTlv_blen (v : Memory) : (s.setTlv v).blen = s.blen := rfl
@[simp] theorem State.setTlv_clen (v : Memory) : (s.setTlv v).clen = s.clen := rfl
@[simp] theorem State.setTlv_tlvlen (v : Memory) : (s.setTlv v).tlvlen = s.tlvlen := rfl
@[simp] theorem State.setTlv_stream (v : Memory) : (s.setTlv v).stream = s.stream := rfl
@[simp] theorem State.setTlv_rpos (v : Memory) : (s.setTlv v).rpos = s.rpos := rfl
@[simp] theorem State.setTlv_bytes (v : Memory) : (s.setTlv v).bytes = s.bytes := rfl
@[simp] theorem State.setTlv_chars (v : Memory) : (s.setTlv v).chars = s.chars := rfl
@[simp] theorem State.setTlv_tlv (v : Memory) : (s.setTlv v).tlv = v := rfl
@[simp] theorem State.setTlv_record (v : Memory) : (s.setTlv v).record = s.record := rfl
@[simp] theorem State.setTlv_setTlv (v w : Memory) : (s.setTlv v).setTlv w = s.setTlv w := rfl
@[simp] theorem State.setTlv_self : s.setTlv s.tlv = s := rfl

@[simp] theorem State.setRecord_cfg (v : Record) : (s.setRecord v).cfg = s.cfg := rfl
@[simp] theorem State.setRecord_host (v : Record) : (s.setRecord v).host = s.host := rfl
@[simp] theorem State.setRecord_responses (v : Record) : (s.setRecord v).responses = s.responses := rfl
@[simp] theorem State.setRecord_err (v : Record) : (s.setRecord v).err = s.err := rfl
@[simp] theorem State.setRecord_arg0 (v : Record) : (s.setRecord v).arg0 = s.arg0 := rfl
@[simp] theorem State.setRecord_res0 (v : Record) : (s.setRecord v).res0 = s.res0 := rfl
@[simp] theorem State.setRecord_blen (v : Record) : (s.setRecord v).blen = s.blen := rfl
@[simp] theorem State.setRecord_clen (v : Record) : (s.setRecord v).clen = s.clen := rfl
@[simp] theorem State.setRecord_tlvlen (v : Record) : (s.setRecord v).tlvlen = s.tlvlen := rfl
@[simp] theorem State.setRecord_stream (v : Record) : (s.setRecord v).stream = s.stream := rfl
@[simp] theorem State.setRecord_rpos (v : Record) : (s.setRecord v).rpos = s.rpos := rfl
@[simp] theorem State.setRecord_bytes (v : Record) : (s.setRecord v).bytes = s.bytes := rfl
@[simp] theorem State.setRecord_chars (v : Record) : (s.setRecord v).chars = s.chars := rfl
@[simp] theorem State.setRecord_tlv (v : Record) : (s.setRecord v).tlv = s.tlv := rfl
@[simp] theorem State.setRecord_record (v : Record) : (s.setRecord v).record = v := rfl
@[simp] theorem State.setRecord_setRecord (v w : Record) : (s.setRecord v).setRecord w = s.setRecord w := rfl
@[simp] theorem State.setRecord_self : s.setRecord s.record = s := rfl

@[simp] theorem State.mem_bytes : s.mem .bytes = s.bytes := rfl
@[simp] theorem State.mem_chars : s.mem .chars = s.chars := rfl
@[simp] theorem State.mem_tlv : s.mem .tlv = s.tlv := rfl
@[simp] theorem State.cap_bytes : s.cap .bytes = s.cfg.byteCap := rfl
@[simp] theorem State.cap_chars : s.cap .chars = s.cfg.charCap := rfl
@[simp] theorem State.cap_tlv : s.cap .tlv = s.cfg.tlvCap := rfl

end Sys2Proof.Machine
end

