-- ==== Sys2Proof/Laws/Memory.lean ====
section
/-! SUPPORT. The buffer memories: a read after a write, the canonical form, what reading and writing a
sequence can do. -/

namespace Sys2Proof.Machine

@[simp] theorem Memory.wf_nil : Memory.wf [] := List.Pairwise.nil

theorem Memory.wf_cons {c : Host.Cell} {m : Memory} :
    Memory.wf (c :: m) ↔ (∀ d ∈ m, c.1 < d.1) ∧ Memory.wf m := by
  simp [Memory.wf, List.pairwise_cons]

/-- A read of the element a write names gives the value written. -/
@[simp] theorem Memory.read_write_same (m : Memory) (i : Nat) (v : Byte) :
    (m.write i v).read i = some v := by
  induction m with
  | nil => simp [Memory.write, Memory.read]
  | cons c m ih =>
    obtain ⟨j, w⟩ := c
    unfold Memory.write
    split
    · simp [Memory.read]
    · split
      · simp [Memory.read]
      · rename_i h1 h2
        simp [Memory.read, h2, ih]

/-- A write leaves every other element alone. -/
theorem Memory.read_write_other (m : Memory) {i k : Nat} (v : Byte) (h : k ≠ i) :
    (m.write i v).read k = m.read k := by
  induction m with
  | nil => simp [Memory.write, Memory.read, h]
  | cons c m ih =>
    obtain ⟨j, w⟩ := c
    unfold Memory.write
    split
    · simp [Memory.read, h]
    · split
      · rename_i h1 h2
        subst h2
        simp [Memory.read, h]
      · simp [Memory.read, ih]

theorem Memory.mem_write {m : Memory} {i : Nat} {v : Byte} {c : Host.Cell} (h : c ∈ m.write i v) :
    c = (i, v) ∨ c ∈ m := by
  induction m with
  | nil => simpa [Memory.write] using h
  | cons d m ih =>
    obtain ⟨j, w⟩ := d
    unfold Memory.write at h
    split at h
    · simpa using h
    · split at h
      · simp only [List.mem_cons] at h ⊢
        tauto
      · simp only [List.mem_cons] at h ⊢
        rcases h with h | h
        · tauto
        · rcases ih h with h | h <;> tauto

/-- A write keeps the canonical form. -/
theorem Memory.wf_write {m : Memory} (h : Memory.wf m) (i : Nat) (v : Byte) : Memory.wf (m.write i v) := by
  induction m with
  | nil => simp [Memory.write, Memory.wf]
  | cons c m ih =>
    obtain ⟨j, w⟩ := c
    obtain ⟨h1, h2⟩ := Memory.wf_cons.1 h
    unfold Memory.write
    split
    · rename_i hij
      refine Memory.wf_cons.2 ⟨?_, h⟩
      intro d hd
      rcases List.mem_cons.1 hd with rfl | hd
      · exact hij
      · exact lt_trans hij (h1 d hd)
    · split
      · rename_i _ hij
        subst hij
        exact Memory.wf_cons.2 ⟨h1, h2⟩
      · rename_i hn hij
        refine Memory.wf_cons.2 ⟨?_, ih h2⟩
        intro d hd
        rcases Memory.mem_write hd with rfl | hd
        · show j < i
          omega
        · exact h1 d hd

/-- A write below the capacity keeps every listed element below it. -/
theorem Memory.within_write {m : Memory} {cap : Nat} (h : Memory.within cap m) {i : Nat} (hi : i < cap)
    (v : Byte) : Memory.within cap (m.write i v) := by
  intro c hc
  rcases Memory.mem_write hc with rfl | hc
  · exact hi
  · exact h c hc

/-- What writing a sequence leaves: its elements where they go, and everything else as before. -/
theorem Memory.read_writeSeq (vs : List Byte) (m : Memory) (k a : Nat) :
    (m.writeSeq k vs).read a = if k ≤ a ∧ a < k + vs.length then vs[a - k]? else m.read a := by
  induction vs generalizing m k with
  | nil => simp [Memory.writeSeq]
  | cons v vs ih =>
    simp only [Memory.writeSeq, ih, List.length_cons]
    by_cases h : a = k
    · subst h
      simp
    · by_cases h2 : k + 1 ≤ a ∧ a < k + 1 + vs.length
      · have h3 : k ≤ a ∧ a < k + (vs.length + 1) := by omega
        have h4 : a - k = a - (k + 1) + 1 := by omega
        rw [if_pos h2, if_pos h3, h4, List.getElem?_cons_succ]
      · have h3 : ¬ (k ≤ a ∧ a < k + (vs.length + 1)) := by omega
        rw [if_neg h2, if_neg h3, Memory.read_write_other _ _ h]

/-- Writing a sequence from element 0. -/
theorem Memory.read_writeSeq_zero (vs : List Byte) (m : Memory) (a : Nat) :
    (m.writeSeq 0 vs).read a = if a < vs.length then vs[a]? else m.read a := by
  simp [Memory.read_writeSeq]

theorem Memory.wf_writeSeq {m : Memory} (h : Memory.wf m) (k : Nat) (vs : List Byte) :
    Memory.wf (m.writeSeq k vs) := by
  induction vs generalizing m k with
  | nil => exact h
  | cons v vs ih => exact ih (Memory.wf_write h k v) _

theorem Memory.within_writeSeq {m : Memory} {cap : Nat} (h : Memory.within cap m) (k : Nat) (vs : List Byte)
    (hk : k + vs.length ≤ cap) : Memory.within cap (m.writeSeq k vs) := by
  induction vs generalizing m k with
  | nil => exact h
  | cons v vs ih =>
    simp only [List.length_cons] at hk
    exact ih (Memory.within_write h (by omega) v) _ (by omega)

/-- What reading a sequence can do: it answers the elements, or stops at the first that nothing has
written. -/
theorem readFrom_cases (space : Space) (m : Memory) (n k : Nat) :
    (∃ l, readFrom space m k n = .ok l ∧ l.length = n ∧ ∀ j, j < n → m.read (k + j) = l[j]?) ∨
    (∃ j, j < n ∧ m.read (k + j) = none ∧ (∀ i, i < j → (m.read (k + i)).isSome = true) ∧
      readFrom space m k n = .error (.fault (.uninitRead space (k + j)))) := by
  induction n generalizing k with
  | zero => exact .inl ⟨[], rfl, rfl, by omega⟩
  | succ n ih =>
    cases hk : m.read k with
    | none =>
      refine .inr ⟨0, by omega, hk, by omega, ?_⟩
      simp [readFrom, hk]
    | some v =>
      rcases ih (k + 1) with ⟨l, hl, hn, hr⟩ | ⟨j, hj, hr, hb, he⟩
      · refine .inl ⟨v :: l, by simp [readFrom, hk, hl, Except.map], by simp [hn], ?_⟩
        intro j hj
        cases j with
        | zero => simpa using hk
        | succ j =>
          have := hr j (by omega)
          simpa [Nat.add_assoc, Nat.add_comm 1 j] using this
      · refine .inr ⟨j + 1, by omega, ?_, ?_, ?_⟩
        · rw [← hr]; congr 1; omega
        · intro i hi
          cases i with
          | zero => simp [hk]
          | succ i =>
            have := hb i (by omega)
            simpa [Nat.add_assoc, Nat.add_comm 1 i] using this
        · rw [readFrom, hk]
          simp only [he, Except.map]
          congr 3
          omega

/-- Reading the elements a memory holds gives them. -/
theorem readFrom_holds (space : Space) {m : Memory} {l : List Byte} (h : Memory.holds m l) :
    readFrom space m 0 l.length = .ok l := by
  rcases readFrom_cases space m l.length 0 with ⟨l', hl, hn, hr⟩ | ⟨j, hj, hr, -, -⟩
  · rw [hl]
    congr 1
    apply List.ext_getElem?
    intro j
    by_cases hj : j < l.length
    · rw [← hr j hj, ← h j hj, Nat.zero_add]
    · rw [List.getElem?_eq_none (by omega), List.getElem?_eq_none (by omega)]
  · rw [Nat.zero_add, h j hj] at hr
    simp [hj] at hr

/-- Reading the operands of a command whose buffer holds them. -/
theorem readElems_holds {s : State} {space : Space} {l : List Byte} {n : Nat} (hn : n = l.length)
    (h : Memory.holds (s.mem space) l) : readElems s space n = .ok l := by
  subst hn
  exact readFrom_holds space h

/-- A sequence that has been read is what the memory holds. -/
theorem holds_of_readElems {s : State} {space : Space} {l : List Byte} {n : Nat}
    (h : readElems s space n = .ok l) : l.length = n ∧ Memory.holds (s.mem space) l := by
  rcases readFrom_cases space (s.mem space) n 0 with ⟨l', hl, hn, hr⟩ | ⟨j, -, -, -, he⟩
  · rw [readElems, hl] at h
    cases h
    refine ⟨hn, fun k hk => ?_⟩
    rw [← hr k (by omega), Nat.zero_add]
  · rw [readElems, he] at h
    cases h

/-- Reading stops only with UNINIT_READ, on an element below the count that nothing has written. -/
theorem readElems_error {s : State} {space : Space} {n : Nat} {e : Stop} (h : readElems s space n = .error e) :
    ∃ j, j < n ∧ (s.mem space).read j = none ∧ e = .fault (.uninitRead space j) := by
  rcases readFrom_cases space (s.mem space) n 0 with ⟨l, hl, -⟩ | ⟨j, hj, hr, -, he⟩
  · rw [readElems, hl] at h
    cases h
  · rw [readElems, he] at h
    cases h
    exact ⟨j, hj, by simpa using hr, by simp⟩

/-- Written operands are read. -/
theorem readElems_written {s : State} {space : Space} {n : Nat} (h : Memory.written (s.mem space) n) :
    ∃ l, readElems s space n = .ok l := by
  cases hr : readElems s space n with
  | ok l => exact ⟨l, rfl⟩
  | error e =>
    obtain ⟨j, hj, hn, -⟩ := readElems_error hr
    have := h j hj
    simp [hn] at this

end Sys2Proof.Machine
end

