-- ==== Sys2Proof/Laws/Commit.lean ====
section
/-! SUPPORT. How a command ends: the checks, the commit rule, and what the result operations can do
(60_exceptions.md R222, R223). -/

namespace Sys2Proof.Machine

theorem raiseIf_pos {c : Prop} [Decidable c] (h : c) (e : ErrorCode) : raiseIf c e = .error (.raise e) := by
  simp [raiseIf, h]

theorem raiseIf_neg {c : Prop} [Decidable c] (h : ¬ c) (e : ErrorCode) : raiseIf c e = .ok () := by
  simp [raiseIf, h]

/-- A check, then the rest: the error when the condition holds, else the rest. -/
@[simp] theorem raiseIf_bind {α : Type} (c : Prop) [Decidable c] (e : ErrorCode)
    (k : Unit → Except Stop α) :
    (raiseIf c e >>= k) = if c then .error (.raise e) else k () := by
  by_cases h : c
  · rw [raiseIf_pos h, if_pos h]; rfl
  · rw [raiseIf_neg h, if_neg h]; rfl

@[simp] theorem except_ok_bind {α β : Type} (a : α) (k : α → Except Stop β) :
    ((Except.ok a : Except Stop α) >>= k) = k a := rfl

@[simp] theorem except_error_bind {α β : Type} (e : Stop) (k : α → Except Stop β) :
    ((Except.error e : Except Stop α) >>= k) = .error e := rfl

@[simp] theorem except_pure {α : Type} (a : α) : (pure a : Except Stop α) = .ok a := rfl

@[simp] theorem raiseErr_eq {α : Type} (e : ErrorCode) : (raiseErr e : Except Stop α) = .error (.raise e) := rfl

@[simp] theorem commit_ok (s s' : State) : commit s (.ok s') = .next (s'.setErr .none) := rfl

@[simp] theorem commit_raise (s : State) (e : ErrorCode) :
    commit s (.error (.raise e)) = .next (s.setErr e) := rfl

@[simp] theorem commit_fault (s : State) (f : Fault) : commit s (.error (.fault f)) = .fault f := rfl

/-- The commit of a check and the rest. -/
@[simp] theorem commit_ite (s : State) (c : Prop) [Decidable c] (a b : Except Stop State) :
    commit s (if c then a else b) = if c then commit s a else commit s b := by
  split <;> rfl

/-- What a commit can do when it answers a next state: report an error and change nothing else, or write the
results and report success. -/
theorem commit_next {s t : State} {r : Except Stop State} (h : commit s r = .next t) :
    (∃ e, r = .error (.raise e) ∧ t = s.setErr e) ∨ (∃ s', r = .ok s' ∧ t = s'.setErr .none) := by
  unfold commit at h
  split at h
  · cases h; exact .inr ⟨_, rfl, rfl⟩
  · cases h; exact .inl ⟨_, rfl, rfl⟩
  · cases h

/-- A pseudocode that never raises code 0: an error is one of 1 to 13 (R221). -/
def Reports {α : Type} (r : Except Stop α) : Prop := r ≠ .error (.raise .none)

theorem reports_ok {α : Type} (a : α) : Reports (Except.ok a : Except Stop α) := fun h => nomatch h

theorem reports_raise {α : Type} {e : ErrorCode} (h : e ≠ .none) :
    Reports (Except.error (.raise e) : Except Stop α) := by
  intro h'
  cases h'
  exact h rfl

theorem reports_ite {α : Type} {c : Prop} [Decidable c] {a b : Except Stop α} (ha : Reports a) (hb : Reports b) :
    Reports (if c then a else b) := by
  split
  · exact ha
  · exact hb

theorem reports_bind {α β : Type} {x : Except Stop α} {k : α → Except Stop β} (hx : Reports x)
    (hk : ∀ a, Reports (k a)) : Reports (x >>= k) := by
  cases x with
  | ok a => exact hk a
  | error e =>
    intro h
    cases h
    exact hx rfl

theorem reports_readElems (s : State) (space : Space) (n : Nat) : Reports (readElems s space n) := by
  intro h
  obtain ⟨_, _, _, h'⟩ := readElems_error h
  cases h'

/-- `commit_next` for a pseudocode that never raises code 0: an error state has a nonzero code. -/
theorem commit_reports {s t : State} {r : Except Stop State} (hr : Reports r) (h : commit s r = .next t) :
    (∃ e, e ≠ .none ∧ t = s.setErr e) ∨ (∃ s', r = .ok s' ∧ t = s'.setErr .none) := by
  rcases commit_next h with ⟨e, he, rfl⟩ | h
  · refine .inl ⟨e, ?_, rfl⟩
    rintro rfl
    exact hr he
  · exact .inr h

/-- A commit stops only with a fault of the pseudocode. -/
theorem commit_stop {s : State} {r : Except Stop State} :
    (∀ f, commit s r = .fault f → r = .error (.fault f)) ∧ (∀ q, commit s r ≠ .refused q) := by
  unfold commit
  constructor
  · intro f h
    split at h
    · cases h
    · cases h
    · cases h; rfl
  · intro q h
    split at h <;> cases h

theorem storeBytes_eq (s : State) (vs : List Byte) :
    storeBytes s vs = { s with bytes := s.bytes.writeSeq 0 vs, blen := BitVec.ofNat 32 vs.length } := rfl

theorem storeChars_eq (s : State) (vs : List Byte) :
    storeChars s vs = { s with chars := s.chars.writeSeq 0 vs, clen := BitVec.ofNat 32 vs.length } := rfl

theorem storeTlv_eq (s : State) (vs : List Byte) :
    storeTlv s vs = { s with tlv := s.tlv.writeSeq 0 vs, tlvlen := BitVec.ofNat 32 vs.length } := rfl

end Sys2Proof.Machine
end

