-- ==== Sys2Proof/Laws/Base38.lean ====
section
/-! SUPPORT. Base38: characters and their values, groups of digits, groups of bytes (41_base38.md R130 to
R135). -/

namespace Sys2Proof.Machine

theorem val38_chr38 {k : Nat} (h : k < 38) : val38 (chr38 k) = some k := by
  have : ∀ k : Fin 38, val38 (chr38 k) = some k.1 := by decide
  exact this ⟨k, h⟩

theorem in38_chr38 {k : Nat} (h : k < 38) : in38 (chr38 k) = true := by
  simp [in38, val38_chr38 h]

/-- A character of value k is the k-th of the alphabet (R131). -/
theorem val38_some {c : Byte} {k : Nat} (h : val38 c = some k) : k < 38 ∧ chr38 k = c := by
  obtain ⟨hk, hc, -⟩ := List.findIdx?_eq_some_iff_getElem.1 h
  have h38 : k < 38 := hk
  refine ⟨h38, ?_⟩
  rw [chr38, List.getD_eq_getElem?_getD, List.getElem?_eq_getElem hk]
  exact eq_of_beq hc

theorem in38_iff {c : Byte} : in38 c = true ↔ ∃ k, k < 38 ∧ val38 c = some k ∧ chr38 k = c := by
  constructor
  · intro h
    obtain ⟨k, hk⟩ := Option.isSome_iff_exists.1 h
    exact ⟨k, (val38_some hk).1, hk, (val38_some hk).2⟩
  · rintro ⟨k, -, hk, -⟩
    simp [in38, hk]

@[simp] theorem length_digits38 (v m : Nat) : (digits38 v m).length = m := by
  induction m generalizing v with
  | zero => rfl
  | succ m ih => simp [digits38, ih]

theorem all_in38_digits38 (v m : Nat) : (digits38 v m).all in38 = true := by
  induction m generalizing v with
  | zero => rfl
  | succ m ih => simp only [digits38, List.all_cons, ih, in38_chr38 (Nat.mod_lt v (by omega)), Bool.and_true]

/-- The value of m base-38 digits of v. -/
theorem charsVal_digits38 (v m : Nat) : charsVal (digits38 v m) = v % 38 ^ m := by
  induction m generalizing v with
  | zero => simp [digits38, charsVal, Nat.mod_one]
  | succ m ih =>
    rw [digits38, charsVal, ih, val38_chr38 (Nat.mod_lt v (by omega)), Option.getD_some,
      Nat.pow_succ, Nat.mul_comm (38 ^ m) 38, Nat.mod_mul]

theorem charsVal_lt (cs : List Byte) : charsVal cs < 38 ^ cs.length := by
  induction cs with
  | nil => simp [charsVal]
  | cons c cs ih =>
    rw [charsVal, List.length_cons, Nat.pow_succ]
    have : (val38 c).getD 0 < 38 := by
      cases h : val38 c with
      | none => simp
      | some k => simpa using (val38_some h).1
    omega

/-- The digits of the value of a group of alphabet characters are the characters. -/
theorem digits38_charsVal (cs : List Byte) (h : cs.all in38 = true) :
    digits38 (charsVal cs) cs.length = cs := by
  induction cs with
  | nil => rfl
  | cons c cs ih =>
    simp only [List.all_cons, Bool.and_eq_true] at h
    obtain ⟨k, hk, hv, hc⟩ := in38_iff.1 h.1
    rw [charsVal, hv, Option.getD_some, List.length_cons, digits38]
    have h1 : (k + 38 * charsVal cs) % 38 = k := by omega
    have h2 : (k + 38 * charsVal cs) / 38 = charsVal cs := by omega
    rw [h1, h2, ih h.2, hc]

theorem groupVal_lt (l : List Byte) : groupVal l < 2 ^ (8 * l.length) := by
  induction l with
  | nil => simp [groupVal]
  | cons v vs ih =>
    rw [groupVal, List.length_cons]
    have h : 2 ^ (8 * (vs.length + 1)) = 256 * 2 ^ (8 * vs.length) := by
      rw [Nat.mul_add, Nat.pow_add]; omega
    have := v.isLt
    omega

@[simp] theorem length_bytesOf (v n : Nat) : (bytesOf v n).length = n := by
  induction n generalizing v with
  | zero => rfl
  | succ n ih => simp [bytesOf, ih]

/-- The bytes of the little-endian value of a group are the group. -/
theorem bytesOf_groupVal (l : List Byte) : bytesOf (groupVal l) l.length = l := by
  induction l with
  | nil => rfl
  | cons v vs ih =>
    have hv : v.toNat < 256 := v.isLt
    rw [groupVal, List.length_cons, bytesOf]
    have h1 : (v.toNat + 256 * groupVal vs) % 256 = v.toNat := by omega
    have h2 : (v.toNat + 256 * groupVal vs) / 256 = groupVal vs := by omega
    rw [h1, h2, ih, BitVec.ofNat_toNat, BitVec.setWidth_eq]

/-- The value of n bytes of v. -/
theorem groupVal_bytesOf (v n : Nat) : groupVal (bytesOf v n) = v % 2 ^ (8 * n) := by
  induction n generalizing v with
  | zero => simp [bytesOf, groupVal, Nat.mod_one]
  | succ n ih =>
    have h : 2 ^ (8 * (n + 1)) = 256 * 2 ^ (8 * n) := by rw [Nat.mul_add, Nat.pow_add]; omega
    rw [bytesOf, groupVal, ih, h, Nat.mod_mul]
    simp

/-- What decoding a group can do: its bytes when the value fits, else INVALID_ENCODING (R135). -/
theorem decodeGroup_cases (cs : List Byte) (n : Nat) :
    decodeGroup cs n =
      if 2 ^ (8 * n) ≤ charsVal cs then .error (.raise .invalidEncoding) else .ok (bytesOf (charsVal cs) n) := by
  simp [decodeGroup]

/-- `b38dec` reads no buffer: it stops only with an error of the block, of a nonzero code. -/
theorem b38dec_error {t : List Byte} {e : Stop} (h : b38dec t = .error e) : ∃ c, c ≠ .none ∧ e = .raise c := by
  have hg : ∀ (t : List Byte) (e : Stop), decodeGroups t = .error e → ∃ c, c ≠ .none ∧ e = .raise c := by
    intro t
    induction t using decodeGroups.induct with
    | case1 => intro e h; cases h
    | case2 => intro e h; cases h; exact ⟨_, by decide, rfl⟩
    | case3 =>
      intro e h
      rw [decodeGroups, decodeGroup_cases] at h
      split at h <;> cases h
      exact ⟨_, by decide, rfl⟩
    | case4 => intro e h; cases h; exact ⟨_, by decide, rfl⟩
    | case5 =>
      intro e h
      rw [decodeGroups, decodeGroup_cases] at h
      split at h <;> cases h
      exact ⟨_, by decide, rfl⟩
    | case6 c0 c1 c2 c3 c4 rest ih =>
      intro e h
      rw [decodeGroups, decodeGroup_cases] at h
      split at h
      · cases h; exact ⟨_, by decide, rfl⟩
      · rw [except_ok_bind] at h
        cases hr : decodeGroups rest with
        | ok l => rw [hr] at h; cases h
        | error e' =>
          rw [hr] at h
          obtain ⟨c, hc, rfl⟩ := ih e' hr
          cases h
          exact ⟨c, hc, rfl⟩
  simp only [b38dec, raiseIf_bind] at h
  split at h
  · cases h; exact ⟨_, by decide, rfl⟩
  · split at h
    · cases h; exact ⟨_, by decide, rfl⟩
    · exact hg t e h

theorem reports_b38dec (t : List Byte) : Reports (b38dec t) := by
  intro h
  obtain ⟨c, hc, h'⟩ := b38dec_error h
  cases h'
  exact hc rfl

end Sys2Proof.Machine
end

