-- ==== Sys2Proof/Laws/Operands.lean ====
section
/-! SUPPORT. Bits of a value and value of bits, stream fields, byte images, decimal digits. -/

namespace Sys2Proof.Machine

@[simp] theorem length_bitsOf (v w : Nat) : (bitsOf v w).length = w := by simp [bitsOf]

theorem getElem?_bitsOf (v w j : Nat) : (bitsOf v w)[j]? = if j < w then some (v.testBit j) else none := by
  by_cases h : j < w
  · simp [bitsOf, h]
  · simp [bitsOf, h]

@[simp] theorem getElem_bitsOf (v w j : Nat) (h : j < (bitsOf v w).length) : (bitsOf v w)[j] = v.testBit j := by
  simp [bitsOf]

/-- Bit j of the value of a bit sequence is its element j. -/
theorem testBit_valOf (b : Bits) (j : Nat) : (valOf b).testBit j = b[j]?.getD false := by
  induction b generalizing j with
  | nil => simp [valOf]
  | cons x xs ih =>
    cases j with
    | zero => cases x <;> simp [valOf, Nat.testBit_zero]
    | succ j =>
      rw [Nat.testBit_succ]
      have h : (valOf (x :: xs)) / 2 = valOf xs := by
        cases x
        · simp [valOf]
        · simp [valOf]; omega
      rw [h, ih]
      simp

theorem valOf_lt (b : Bits) : valOf b < 2 ^ b.length := by
  induction b with
  | nil => simp [valOf]
  | cons x xs ih =>
    rw [List.length_cons, Nat.pow_succ]
    cases x <;> simp [valOf] <;> omega

/-- The value of the w low bits of v (R15). -/
theorem valOf_bitsOf (v w : Nat) : valOf (bitsOf v w) = v % 2 ^ w := by
  apply Nat.eq_of_testBit_eq
  intro j
  rw [testBit_valOf, getElem?_bitsOf, Nat.testBit_mod_two_pow]
  by_cases h : j < w <;> simp [h]

theorem bitsOf_valOf (b : Bits) : bitsOf (valOf b) b.length = b := by
  apply List.ext_getElem?
  intro j
  rw [getElem?_bitsOf, testBit_valOf]
  by_cases h : j < b.length
  · simp [h]
  · simp [h]

/-- Bit j of a stream field is stream bit pos + j, and no bit is at or above the width. -/
theorem testBit_fieldAt (stream : Bits) (pos width j : Nat) :
    (fieldAt stream pos width).testBit j = (decide (j < width) && stream[pos + j]?.getD false) := by
  rw [fieldAt, testBit_valOf, List.getElem?_take]
  by_cases h : j < width <;> simp [h, List.getElem?_drop]

theorem fieldAt_lt (stream : Bits) (pos width : Nat) : fieldAt stream pos width < 2 ^ width := by
  apply lt_of_lt_of_le (valOf_lt _)
  apply Nat.pow_le_pow_right (by omega)
  simp

/-- A field written at the end of a stream is read back. -/
theorem fieldAt_append_bitsOf (a c : Bits) (v w : Nat) :
    fieldAt (a ++ (bitsOf v w ++ c)) a.length w = v % 2 ^ w := by
  rw [fieldAt, List.drop_left]
  rw [List.take_append_of_le_length (by simp)]
  rw [List.take_of_length_le (by simp), valOf_bitsOf]

@[simp] theorem length_bitImage (l : List Byte) : (bitImage l).length = 8 * l.length := by
  induction l with
  | nil => rfl
  | cons v vs ih => simp [bitImage, ih]; omega

theorem bitImage_append (a b : List Byte) : bitImage (a ++ b) = bitImage a ++ bitImage b := by
  induction a with
  | nil => rfl
  | cons v vs ih => simp [bitImage, ih]

/-- Bit 8k + j of a bit image is bit j of byte k (R34). -/
theorem getElem?_bitImage (l : List Byte) (k j : Nat) (hj : j < 8) :
    (bitImage l)[8 * k + j]? = l[k]?.map (fun v => v.getLsbD j) := by
  induction l generalizing k with
  | nil => simp [bitImage]
  | cons v vs ih =>
    cases k with
    | zero =>
      rw [bitImage, List.getElem?_append_left (by simp; omega), getElem?_bitsOf]
      simp [hj, BitVec.getLsbD]
    | succ k =>
      rw [bitImage, List.getElem?_append_right (by simp; omega)]
      have : 8 * (k + 1) + j - (bitsOf v.toNat 8).length = 8 * k + j := by simp; omega
      rw [this, ih]
      simp

@[simp] theorem length_byteImage (stream : Bits) : (byteImage stream).length = (stream.length + 7) / 8 := by
  simp [byteImage]

@[simp] theorem getElem_byteImage (stream : Bits) (k : Nat) (h : k < (byteImage stream).length) :
    (byteImage stream)[k] = BitVec.ofNat 8 (fieldAt stream (8 * k) 8) := by
  simp [byteImage]

theorem getElem?_byteImage (stream : Bits) (k : Nat) :
    (byteImage stream)[k]? =
      if k < (stream.length + 7) / 8 then some (BitVec.ofNat 8 (fieldAt stream (8 * k) 8)) else none := by
  by_cases h : k < (stream.length + 7) / 8 <;> simp [byteImage, h]

@[simp] theorem length_streamBytes (stream : Bits) (pos n : Nat) : (streamBytes stream pos n).length = n := by
  simp [streamBytes]

@[simp] theorem getElem_streamBytes (stream : Bits) (pos n k : Nat) (h : k < (streamBytes stream pos n).length) :
    (streamBytes stream pos n)[k] = BitVec.ofNat 8 (fieldAt stream (pos + 8 * k) 8) := by
  simp [streamBytes]

theorem getElem?_streamBytes (stream : Bits) (pos n k : Nat) :
    (streamBytes stream pos n)[k]? =
      if k < n then some (BitVec.ofNat 8 (fieldAt stream (pos + 8 * k) 8)) else none := by
  by_cases h : k < n <;> simp [streamBytes, h]

/-- Bit j of a byte read from a stream. -/
theorem getLsbD_fieldAt (stream : Bits) (pos j : Nat) :
    (BitVec.ofNat 8 (fieldAt stream pos 8)).getLsbD j =
      (decide (j < 8) && stream[pos + j]?.getD false) := by
  rw [BitVec.getLsbD_ofNat, testBit_fieldAt]
  by_cases h : j < 8 <;> simp [h]

/-- The byte image of a bit image is the bytes (R34). -/
theorem byteImage_bitImage (l : List Byte) : byteImage (bitImage l) = l := by
  apply List.ext_getElem?
  intro k
  rw [getElem?_byteImage, length_bitImage]
  have hl : (8 * l.length + 7) / 8 = l.length := by omega
  rw [hl]
  by_cases h : k < l.length
  · rw [if_pos h, List.getElem?_eq_getElem h]
    congr 1
    apply BitVec.eq_of_getLsbD_eq
    intro j hj
    rw [getLsbD_fieldAt, getElem?_bitImage _ _ _ hj]
    simp [hj, h]
  · rw [if_neg h, List.getElem?_eq_none (by omega)]

/-- The bit image of the byte image of a whole number of bytes is the stream (R34). -/
theorem bitImage_byteImage (stream : Bits) (h : stream.length % 8 = 0) :
    bitImage (byteImage stream) = stream := by
  apply List.ext_getElem?
  intro i
  have hi : i = 8 * (i / 8) + i % 8 := by omega
  rw [hi, getElem?_bitImage _ _ _ (Nat.mod_lt _ (by omega)), getElem?_byteImage]
  by_cases hk : i / 8 < (stream.length + 7) / 8
  · have hm : i % 8 < 8 := Nat.mod_lt _ (by omega)
    have hs : 8 * (i / 8) + i % 8 < stream.length := by omega
    rw [if_pos hk, Option.map_some, getLsbD_fieldAt]
    simp only [hm, decide_true, Bool.true_and]
    rw [List.getElem?_eq_getElem hs]
    rfl
  · rw [if_neg hk, List.getElem?_eq_none (by omega)]
    rfl

@[simp] theorem length_decDigits (v n : Nat) : (decDigits v n).length = n := by
  induction n generalizing v with
  | zero => rfl
  | succ n ih => simp [decDigits, ih]

theorem decDigits_lt (v n : Nat) : ∀ d ∈ decDigits v n, d < 10 := by
  induction n generalizing v with
  | zero => simp [decDigits]
  | succ n ih =>
    intro d hd
    rcases List.mem_append.1 hd with hd | hd
    · exact ih _ d hd
    · have : d = v % 10 := by simpa using hd
      omega

theorem num_append_single (ds : List Nat) (d : Nat) : num (ds ++ [d]) = 10 * num ds + d := by
  simp [num]

/-- `num(dec(v, n)) = v` for v < 10^n (R15). -/
theorem num_decDigits (v n : Nat) (h : v < 10 ^ n) : num (decDigits v n) = v := by
  induction n generalizing v with
  | zero =>
    have : v = 0 := by simpa using h
    subst this
    rfl
  | succ n ih =>
    rw [Nat.pow_succ] at h
    rw [decDigits, num_append_single, ih _ (by omega)]
    omega

/-- `dec(num(ds), len(ds)) = ds` for decimal digits (R15). -/
theorem decDigits_num (ds : List Nat) (h : ∀ d ∈ ds, d < 10) : decDigits (num ds) ds.length = ds := by
  induction ds using List.reverseRecOn with
  | nil => rfl
  | append_singleton ds d ih =>
    have hd : d < 10 := h d (by simp)
    rw [num_append_single, List.length_append, List.length_singleton, decDigits]
    have h1 : (10 * num ds + d) / 10 = num ds := by omega
    have h2 : (10 * num ds + d) % 10 = d := by omega
    rw [h1, h2, ih (fun x hx => h x (by simp [hx]))]

theorem toNat_digitChar {d : Nat} (h : d < 10) : (digitChar d).toNat = 0x30 + d := by
  simp [digitChar]; omega

theorem isDigit_digitChar {d : Nat} (h : d < 10) : isDigit (digitChar d) = true := by
  simp only [isDigit, toNat_digitChar h, decide_eq_true_eq]
  omega

theorem digitVal_digitChar {d : Nat} (h : d < 10) : digitVal (digitChar d) = d := by
  simp [digitVal, toNat_digitChar h]

theorem digitChar_digitVal {c : Byte} (h : isDigit c = true) : digitChar (digitVal c) = c := by
  simp only [isDigit, decide_eq_true_eq] at h
  apply BitVec.eq_of_toNat_eq
  simp [digitChar, digitVal]
  omega

theorem digitVal_lt {c : Byte} (h : isDigit c = true) : digitVal c < 10 := by
  simp only [isDigit, decide_eq_true_eq] at h
  simp only [digitVal]
  omega

/-- The characters of decimal digits are digits, and reading them back gives the digits. -/
theorem map_digitVal_digitChar (ds : List Nat) (h : ∀ d ∈ ds, d < 10) :
    (ds.map digitChar).all isDigit = true ∧ (ds.map digitChar).map digitVal = ds := by
  induction ds with
  | nil => exact ⟨rfl, rfl⟩
  | cons d ds ih =>
    obtain ⟨h1, h2⟩ := ih (fun x hx => h x (by simp [hx]))
    have hd : d < 10 := h d (by simp)
    refine ⟨?_, ?_⟩
    · simp only [List.map_cons, List.all_cons, isDigit_digitChar hd, Bool.true_and]
      exact h1
    · simp only [List.map_cons, digitVal_digitChar hd]
      exact congrArg _ h2

end Sys2Proof.Machine
end

