-- ==== Sys2Proof/Laws/Verhoeff.lean ====
section
/-! SUPPORT. Verhoeff: the tables stay within 0..9, and the accumulator of an extended sequence
(42_verhoeff.md R150 to R156). -/

namespace Sys2Proof.Machine

theorem vMul_lt {c x : Nat} (hc : c < 10) (hx : x < 10) : vMul c x < 10 := by
  have : ∀ c x : Fin 10, vMul c x < 10 := by decide
  exact this ⟨c, hc⟩ ⟨x, hx⟩

theorem vPerm_lt {r x : Nat} (hr : r < 8) (hx : x < 10) : vPerm r x < 10 := by
  have : ∀ (r : Fin 8) (x : Fin 10), vPerm r x < 10 := by decide
  exact this ⟨r, hr⟩ ⟨x, hx⟩

theorem vInv_lt {c : Nat} (hc : c < 10) : vInv c < 10 := by
  have : ∀ c : Fin 10, vInv c < 10 := by decide
  exact this ⟨c, hc⟩

theorem vaccFrom_lt (ds : List Nat) (i c : Nat) (hd : ∀ d ∈ ds, d < 10) (hc : c < 10) :
    vaccFrom ds i c < 10 := by
  induction ds generalizing i c with
  | nil => exact hc
  | cons d ds ih =>
    exact ih _ _ (fun x hx => hd x (by simp [hx]))
      (vMul_lt hc (vPerm_lt (Nat.mod_lt i (by omega)) (hd d (by simp))))

/-- The accumulator of decimal digits is in 0..9 (R153). -/
theorem vacc_lt {ds : List Nat} (hd : ∀ d ∈ ds, d < 10) (offset : Nat) : vacc ds offset < 10 :=
  vaccFrom_lt _ _ _ (fun d h => hd d (List.mem_reverse.1 h)) (by omega)

theorem vcheck_lt {ds : List Nat} (hd : ∀ d ∈ ds, d < 10) : vcheck ds < 10 := vInv_lt (vacc_lt hd 1)

theorem vaccFrom_append (xs ys : List Nat) (i c : Nat) :
    vaccFrom (xs ++ ys) i c = vaccFrom ys (i + xs.length) (vaccFrom xs i c) := by
  induction xs generalizing i c with
  | nil => rfl
  | cons x xs ih =>
    simp only [List.cons_append, vaccFrom, ih, List.length_cons]
    congr 1
    omega

/-- A last digit is position 0 of the accumulator (R153). -/
theorem vacc_append_single (ds : List Nat) (k offset : Nat) :
    vacc (ds ++ [k]) offset = vaccFrom ds.reverse (offset + 1) (vMul 0 (vPerm (offset % 8) k)) := by
  simp [vacc, vaccFrom]

/-- What reading the digits of CHARS can do: CAPACITY, the fault, INVALID_CHARACTER, or the digits of the
text CHARS holds (R156). -/
theorem vdigits_cases (s : State) :
    (s.cfg.charCap < s.clen.toNat ∧ vdigits s = .error (.raise .capacity)) ∨
    (s.clen.toNat ≤ s.cfg.charCap ∧ ∃ j, j < s.clen.toNat ∧ s.chars.read j = none ∧
      vdigits s = .error (.fault (.uninitRead .chars j))) ∨
    (s.clen.toNat ≤ s.cfg.charCap ∧ ∃ text, text.length = s.clen.toNat ∧ Memory.holds s.chars text ∧
      ((text.all isDigit = false ∧ vdigits s = .error (.raise .invalidCharacter)) ∨
       (text.all isDigit = true ∧ vdigits s = .ok (text.map digitVal)))) := by
  by_cases hc : s.cfg.charCap < s.clen.toNat
  · exact .inl ⟨hc, by simp [vdigits, hc]⟩
  · have hc' : s.clen.toNat ≤ s.cfg.charCap := by omega
    cases hr : readElems s .chars s.clen.toNat with
    | error e =>
      obtain ⟨j, hj, hn, rfl⟩ := readElems_error hr
      exact .inr (.inl ⟨hc', j, hj, hn, by simp [vdigits, hc, hr]⟩)
    | ok text =>
      obtain ⟨hl, hh⟩ := holds_of_readElems hr
      refine .inr (.inr ⟨hc', text, hl, hh, ?_⟩)
      cases hd : text.all isDigit with
      | false =>
        refine .inl ⟨rfl, ?_⟩
        simp only [vdigits, raiseIf_bind, hc, hr, hd, if_false, except_ok_bind, Bool.false_eq_true,
          not_false_eq_true, if_true]
      | true =>
        refine .inr ⟨rfl, ?_⟩
        simp only [vdigits, raiseIf_bind, hc, hr, hd, if_false, except_ok_bind, not_true, except_pure]

theorem reports_vdigits (s : State) : Reports (vdigits s) := by
  intro h
  rcases vdigits_cases s with ⟨-, he⟩ | ⟨_, _, _, _, he⟩ | ⟨_, _, _, _, ⟨-, he⟩ | ⟨_, he⟩⟩ <;> rw [he] at h <;> cases h

/-- Reading the digits of a text of decimal digits that CHARS holds. -/
theorem vdigits_holds {s : State} {ds : List Nat} (hd : ∀ d ∈ ds, d < 10)
    (hh : Memory.holds s.chars (ds.map digitChar)) (hl : s.clen.toNat = ds.length)
    (hc : s.clen.toNat ≤ s.cfg.charCap) : vdigits s = .ok ds := by
  obtain ⟨h1, h2⟩ := map_digitVal_digitChar ds hd
  have hr : readElems s .chars s.clen.toNat = .ok (ds.map digitChar) :=
    readElems_holds (by simpa using hl) hh
  have hc' : ¬ s.cfg.charCap < s.clen.toNat := by omega
  simp only [vdigits, raiseIf_bind, hc', hr, h1, if_false, except_ok_bind, not_true, except_pure, h2]

end Sys2Proof.Machine
end

