-- ==== Sys2Proof/Laws/Commands.lean ====
section
/-! SUPPORT. What each command can do when it answers a next state: it reports an error and changes nothing else,
or all its checks pass and it makes its writes (60_exceptions.md R223). One inversion lemma per command, so that a
proof about a command's next state need not unfold its meaning. -/

namespace Sys2Proof.Machine

/-- A passed check. -/
theorem raiseIf_ok {α : Type} {c : Prop} [Decidable c] {e : ErrorCode} {k : Except Stop α} {a : α}
    (h : (if c then Except.error (Stop.raise e) else k) = .ok a) : ¬ c ∧ k = .ok a := by
  split at h
  · cases h
  · exact ⟨by assumption, h⟩

/-- A bind that answers: both its parts answer. -/
theorem bind_ok {α β : Type} {x : Except Stop α} {k : α → Except Stop β} {b : β} (h : (x >>= k) = .ok b) :
    ∃ a, x = .ok a ∧ k a = .ok b := by
  cases x with
  | ok a => exact ⟨a, rfl, h⟩
  | error e => cases h

theorem execBbClear_next {s t : State} (h : execBbClear s = .next t) :
    t = ((s.setStream []).setRpos 0).setErr .none := by
  cases h
  rfl

theorem execBbWrbits_next {s t : State} {w : Nat} (h : execBbWrbits w s = .next t) :
    (∃ e, e ≠ .none ∧ t = s.setErr e) ∨
    (1 ≤ w ∧ w ≤ 32 ∧ s.arg0.toNat < 2 ^ w ∧ s.stream.length + w ≤ s.cfg.bbCapBits ∧
      t = (s.setStream (s.stream ++ bitsOf s.arg0.toNat w)).setErr .none) := by
  simp only [execBbWrbits, raiseIf_bind, except_pure] at h
  rcases commit_reports (by
    repeat' (first | exact reports_ok _ | exact reports_raise (by decide) | apply reports_ite)) h with
    ⟨e, he, rfl⟩ | ⟨s', hs, rfl⟩
  · exact .inl ⟨e, he, rfl⟩
  · obtain ⟨h1, hs⟩ := raiseIf_ok hs
    obtain ⟨h2, hs⟩ := raiseIf_ok hs
    obtain ⟨h3, hs⟩ := raiseIf_ok hs
    cases hs
    exact .inr ⟨by omega, by omega, by omega, by omega, rfl⟩

theorem execBbRdbits_next {s t : State} {w : Nat} (h : execBbRdbits w s = .next t) :
    (∃ e, e ≠ .none ∧ t = s.setErr e) ∨
    (1 ≤ w ∧ w ≤ 32 ∧ s.rpos + w ≤ s.stream.length ∧
      t = ((s.setRes0 (BitVec.ofNat 32 (fieldAt s.stream s.rpos w))).setRpos (s.rpos + w)).setErr .none) := by
  simp only [execBbRdbits, raiseIf_bind, except_pure] at h
  rcases commit_reports (by
    repeat' (first | exact reports_ok _ | exact reports_raise (by decide) | apply reports_ite)) h with
    ⟨e, he, rfl⟩ | ⟨s', hs, rfl⟩
  · exact .inl ⟨e, he, rfl⟩
  · obtain ⟨h1, hs⟩ := raiseIf_ok hs
    obtain ⟨h2, hs⟩ := raiseIf_ok hs
    cases hs
    exact .inr ⟨by omega, by omega, by omega, rfl⟩

theorem execBbAppend_next {s t : State} (h : execBbAppend s = .next t) :
    (∃ e, e ≠ .none ∧ t = s.setErr e) ∨
    (∃ l, l.length = s.blen.toNat ∧ Memory.holds s.bytes l ∧ s.blen.toNat ≤ s.cfg.byteCap ∧
      s.stream.length % 8 = 0 ∧ s.stream.length + 8 * s.blen.toNat ≤ s.cfg.bbCapBits ∧
      t = (s.setStream (s.stream ++ bitImage l)).setErr .none) := by
  simp only [execBbAppend, raiseIf_bind, except_pure] at h
  rcases commit_reports (by
    repeat' (first | exact reports_ok _ | exact reports_raise (by decide) | exact reports_readElems _ _ _ |
      exact reports_b38dec _ | exact reports_vdigits _ | apply reports_ite | apply reports_bind | intro _)) h with
    ⟨e, he, rfl⟩ | ⟨s', hs, rfl⟩
  · exact .inl ⟨e, he, rfl⟩
  · obtain ⟨h1, hs⟩ := raiseIf_ok hs
    obtain ⟨h2, hs⟩ := raiseIf_ok hs
    obtain ⟨h3, hs⟩ := raiseIf_ok hs
    obtain ⟨l, hl, hs⟩ := bind_ok hs
    obtain ⟨hn, hh⟩ := holds_of_readElems hl
    cases hs
    exact .inr ⟨l, hn, hh, by omega, by omega, by omega, rfl⟩

theorem execBbRdbytes_next {s t : State} (h : execBbRdbytes s = .next t) :
    (∃ e, e ≠ .none ∧ t = s.setErr e) ∨
    (s.arg0.toNat ≤ s.cfg.byteCap ∧ s.rpos % 8 = 0 ∧ 8 * s.arg0.toNat ≤ s.stream.length - s.rpos ∧
      t = ((storeBytes s (streamBytes s.stream s.rpos s.arg0.toNat)).setRpos
        (s.rpos + 8 * s.arg0.toNat)).setErr .none) := by
  simp only [execBbRdbytes, raiseIf_bind, except_pure] at h
  rcases commit_reports (by
    repeat' (first | exact reports_ok _ | exact reports_raise (by decide) | apply reports_ite)) h with
    ⟨e, he, rfl⟩ | ⟨s', hs, rfl⟩
  · exact .inl ⟨e, he, rfl⟩
  · obtain ⟨h1, hs⟩ := raiseIf_ok hs
    obtain ⟨h2, hs⟩ := raiseIf_ok hs
    obtain ⟨h3, hs⟩ := raiseIf_ok hs
    cases hs
    exact .inr ⟨by omega, by omega, by omega, rfl⟩

theorem execBbTobytes_next {s t : State} (h : execBbTobytes s = .next t) :
    (∃ e, e ≠ .none ∧ t = s.setErr e) ∨
    ((s.stream.length + 7) / 8 ≤ s.cfg.byteCap ∧ t = (storeBytes s (byteImage s.stream)).setErr .none) := by
  simp only [execBbTobytes, raiseIf_bind, except_pure] at h
  rcases commit_reports (by
    repeat' (first | exact reports_ok _ | exact reports_raise (by decide) | apply reports_ite)) h with
    ⟨e, he, rfl⟩ | ⟨s', hs, rfl⟩
  · exact .inl ⟨e, he, rfl⟩
  · obtain ⟨h1, hs⟩ := raiseIf_ok hs
    cases hs
    exact .inr ⟨by omega, rfl⟩

theorem execB38Enc_next {s t : State} (h : execB38Enc s = .next t) :
    (∃ e, e ≠ .none ∧ t = s.setErr e) ∨
    (∃ l, l.length = s.blen.toNat ∧ Memory.holds s.bytes l ∧ s.blen.toNat ≤ s.cfg.byteCap ∧
      b38len s.blen.toNat ≤ s.cfg.charCap ∧ t = (storeChars s (b38enc l)).setErr .none) := by
  simp only [execB38Enc, raiseIf_bind, except_pure] at h
  rcases commit_reports (by
    repeat' (first | exact reports_ok _ | exact reports_raise (by decide) | exact reports_readElems _ _ _ |
      exact reports_b38dec _ | exact reports_vdigits _ | apply reports_ite | apply reports_bind | intro _)) h with
    ⟨e, he, rfl⟩ | ⟨s', hs, rfl⟩
  · exact .inl ⟨e, he, rfl⟩
  · obtain ⟨h1, hs⟩ := raiseIf_ok hs
    obtain ⟨h2, hs⟩ := raiseIf_ok hs
    obtain ⟨l, hl, hs⟩ := bind_ok hs
    obtain ⟨hn, hh⟩ := holds_of_readElems hl
    cases hs
    exact .inr ⟨l, hn, hh, by omega, by omega, rfl⟩

theorem execB38Dec_next {s t : State} (h : execB38Dec s = .next t) :
    (∃ e, e ≠ .none ∧ t = s.setErr e) ∨
    (∃ text b, text.length = s.clen.toNat ∧ Memory.holds s.chars text ∧ s.clen.toNat ≤ s.cfg.charCap ∧
      b38bytes s.clen.toNat ≤ s.cfg.byteCap ∧ b38dec text = .ok b ∧
      t = (storeBytes s b).setErr .none) := by
  simp only [execB38Dec, raiseIf_bind, except_pure] at h
  rcases commit_reports (by
    repeat' (first | exact reports_ok _ | exact reports_raise (by decide) | exact reports_readElems _ _ _ |
      exact reports_b38dec _ | exact reports_vdigits _ | apply reports_ite | apply reports_bind | intro _)) h with
    ⟨e, he, rfl⟩ | ⟨s', hs, rfl⟩
  · exact .inl ⟨e, he, rfl⟩
  · obtain ⟨h1, hs⟩ := raiseIf_ok hs
    obtain ⟨h2, hs⟩ := raiseIf_ok hs
    obtain ⟨h3, hs⟩ := raiseIf_ok hs
    obtain ⟨text, ht, hs⟩ := bind_ok hs
    obtain ⟨hn, hh⟩ := holds_of_readElems ht
    obtain ⟨b, hb, hs⟩ := bind_ok hs
    cases hs
    exact .inr ⟨text, b, hn, hh, by omega, by omega, hb, rfl⟩

/-- The digits a VH.* command works on, when it does not stop or raise. -/
theorem vdigits_ok {s : State} {ds : List Nat} (h : vdigits s = .ok ds) :
    s.clen.toNat ≤ s.cfg.charCap ∧ ds.length = s.clen.toNat ∧ (∀ d ∈ ds, d < 10) ∧
    Memory.holds s.chars (ds.map digitChar) := by
  rcases vdigits_cases s with ⟨-, he⟩ | ⟨_, _, _, _, he⟩ | ⟨hc, text, hl, hh, ⟨-, he⟩ | ⟨hd, he⟩⟩
  · rw [he] at h; cases h
  · rw [he] at h; cases h
  · rw [he] at h; cases h
  · rw [he] at h
    cases h
    have hd' : ∀ c ∈ text, isDigit c = true := List.all_eq_true.1 hd
    refine ⟨hc, by simpa using hl, ?_, ?_⟩
    · intro d hd1
      obtain ⟨c, hc1, rfl⟩ := List.mem_map.1 hd1
      exact digitVal_lt (hd' c hc1)
    · have : (text.map digitVal).map digitChar = text := by
        rw [List.map_map]
        conv_rhs => rw [← List.map_id text]
        exact List.map_congr_left (fun c hc1 => digitChar_digitVal (hd' c hc1))
      rw [this]
      exact hh

theorem execVhCompute_next {s t : State} (h : execVhCompute s = .next t) :
    (∃ e, e ≠ .none ∧ t = s.setErr e) ∨
    (∃ ds, vdigits s = .ok ds ∧ t = (s.setRes0 (BitVec.ofNat 32 (vcheck ds))).setErr .none) := by
  simp only [execVhCompute, except_pure] at h
  rcases commit_reports (by
    repeat' (first | exact reports_ok _ | exact reports_raise (by decide) | exact reports_readElems _ _ _ |
      exact reports_b38dec _ | exact reports_vdigits _ | apply reports_ite | apply reports_bind | intro _)) h with
    ⟨e, he, rfl⟩ | ⟨s', hs, rfl⟩
  · exact .inl ⟨e, he, rfl⟩
  · obtain ⟨ds, hd, hs⟩ := bind_ok hs
    cases hs
    exact .inr ⟨ds, hd, rfl⟩

theorem execVhValidate_next {s t : State} (h : execVhValidate s = .next t) :
    (∃ e, e ≠ .none ∧ t = s.setErr e) ∨
    (∃ ds, vdigits s = .ok ds ∧ t = (s.setRes0 (resultFlag (vvalid ds))).setErr .none) := by
  simp only [execVhValidate, except_pure] at h
  rcases commit_reports (by
    repeat' (first | exact reports_ok _ | exact reports_raise (by decide) | exact reports_readElems _ _ _ |
      exact reports_b38dec _ | exact reports_vdigits _ | apply reports_ite | apply reports_bind | intro _)) h with
    ⟨e, he, rfl⟩ | ⟨s', hs, rfl⟩
  · exact .inl ⟨e, he, rfl⟩
  · obtain ⟨ds, hd, hs⟩ := bind_ok hs
    cases hs
    exact .inr ⟨ds, hd, rfl⟩

theorem execVhAppend_next {s t : State} (h : execVhAppend s = .next t) :
    (∃ e, e ≠ .none ∧ t = s.setErr e) ∨
    (∃ ds, vdigits s = .ok ds ∧ s.clen.toNat < s.cfg.charCap ∧
      t = (((s.setChars (s.chars.write s.clen.toNat (digitChar (vcheck ds)))).setClen
        (BitVec.ofNat 32 (s.clen.toNat + 1))).setRes0 (BitVec.ofNat 32 (vcheck ds))).setErr .none) := by
  simp only [execVhAppend, raiseIf_bind, except_pure] at h
  rcases commit_reports (by
    repeat' (first | exact reports_ok _ | exact reports_raise (by decide) | exact reports_readElems _ _ _ |
      exact reports_b38dec _ | exact reports_vdigits _ | apply reports_ite | apply reports_bind | intro _)) h with
    ⟨e, he, rfl⟩ | ⟨s', hs, rfl⟩
  · exact .inl ⟨e, he, rfl⟩
  · obtain ⟨ds, hd, hs⟩ := bind_ok hs
    obtain ⟨h1, hs⟩ := raiseIf_ok hs
    cases hs
    exact .inr ⟨ds, hd, by omega, rfl⟩

/-- The passcode check (R170) as the statements write it. -/
theorem passcodeOk_iff (cfg : Config) (p : Nat) :
    passcodeOk cfg p = true ↔ 1 ≤ p ∧ p ≤ 99999999 ∧ p ∉ cfg.invalidPasscodes := by
  simp [passcodeOk]

theorem qrFieldTooWide_iff (r : Record) :
    qrFieldTooWide r = true ↔ ¬ (r.vid.toNat < 2 ^ 16 ∧ r.pid.toNat < 2 ^ 16 ∧ r.flow.toNat < 2 ^ 2 ∧
      r.caps.toNat < 2 ^ 8 ∧ r.disc.toNat < 2 ^ 12 ∧ r.passcode.toNat < 2 ^ 27 ∧ r.padding.toNat < 2 ^ 4) := by
  simp only [qrFieldTooWide, decide_eq_true_eq]
  omega

theorem execPcEncqr_next {s t : State} (h : execPcEncqr s = .next t) :
    (∃ e, e ≠ .none ∧ t = s.setErr e) ∨
    (∃ l, l.length = s.tlvlen.toNat ∧ Memory.holds s.tlv l ∧ s.record.version = 0 ∧
      qrFieldTooWide s.record = false ∧ s.tlvlen.toNat ≤ s.cfg.tlvCap ∧ s.record.flow ≠ 3 ∧
      passcodeOk s.cfg s.record.passcode.toNat = true ∧ s.record.padding = 0 ∧
      (s.record.flow = 2 → s.tlvlen.toNat ≠ 0) ∧ s.record.discShort = false ∧
      3 + b38len (11 + s.tlvlen.toNat) ≤ s.cfg.charCap ∧
      t = (storeChars s (qrText s.record l)).setErr .none) := by
  simp only [execPcEncqr, raiseIf_bind, except_pure] at h
  rcases commit_reports (by
    repeat' (first | exact reports_ok _ | exact reports_raise (by decide) | exact reports_readElems _ _ _ |
      exact reports_b38dec _ | exact reports_vdigits _ | apply reports_ite | apply reports_bind | intro _)) h with
    ⟨e, he, rfl⟩ | ⟨s', hs, rfl⟩
  · exact .inl ⟨e, he, rfl⟩
  · obtain ⟨h1, hs⟩ := raiseIf_ok hs
    obtain ⟨h2, hs⟩ := raiseIf_ok hs
    obtain ⟨h3, hs⟩ := raiseIf_ok hs
    obtain ⟨h4, hs⟩ := raiseIf_ok hs
    obtain ⟨h5, hs⟩ := raiseIf_ok hs
    obtain ⟨h6, hs⟩ := raiseIf_ok hs
    obtain ⟨h7, hs⟩ := raiseIf_ok hs
    obtain ⟨h8, hs⟩ := raiseIf_ok hs
    obtain ⟨h9, hs⟩ := raiseIf_ok hs
    obtain ⟨l, hl, hs⟩ := bind_ok hs
    obtain ⟨hn, hh⟩ := holds_of_readElems hl
    cases hs
    exact .inr ⟨l, hn, hh, not_not.1 h1, by simpa using h2, by omega, h4, not_not.1 h5, not_not.1 h6,
      fun hf h0 => h7 ⟨hf, h0⟩, by simpa using h8, by omega, rfl⟩

theorem execPcEncman_next {s t : State} (h : execPcEncman s = .next t) :
    (∃ e, e ≠ .none ∧ t = s.setErr e) ∨
    (s.record.flow.toNat < 2 ^ 2 ∧ s.record.disc.toNat < 2 ^ 12 ∧
      (longForm s.record = true → s.record.vid.toNat < 2 ^ 16 ∧ s.record.pid.toNat < 2 ^ 16) ∧
      s.record.flow ≠ 3 ∧ passcodeOk s.cfg s.record.passcode.toNat = true ∧
      t = (storeChars s (manualText s.record)).setErr .none) := by
  simp only [execPcEncman, raiseIf_bind, except_pure] at h
  rcases commit_reports (by
    repeat' (first | exact reports_ok _ | exact reports_raise (by decide) | apply reports_ite)) h with
    ⟨e, he, rfl⟩ | ⟨s', hs, rfl⟩
  · exact .inl ⟨e, he, rfl⟩
  · obtain ⟨h1, hs⟩ := raiseIf_ok hs
    obtain ⟨h2, hs⟩ := raiseIf_ok hs
    obtain ⟨h3, hs⟩ := raiseIf_ok hs
    obtain ⟨h4, hs⟩ := raiseIf_ok hs
    cases hs
    refine .inr ⟨by omega, by omega, fun hl => ?_, h3, not_not.1 h4, rfl⟩
    rw [not_and] at h2
    have := h2 hl
    omega

/-- What the QR path can give when it does not raise (R180, R181). -/
theorem qrParse_ok {strict : Bool} {u : List Byte} {s s' : State} (h : qrParse strict u s = .ok s') :
    ∃ b, b38dec u = .ok b ∧ 11 ≤ b.length ∧ b.length - 11 ≤ s.cfg.tlvCap ∧ (parseHeader b).version = 0 ∧
      (parseHeader b).flow ≠ 3 ∧ passcodeOk s.cfg (parseHeader b).passcode.toNat = true ∧
      ((parseHeader b).flow = 2 → b.length ≠ 11) ∧ (strict = true → (parseHeader b).padding = 0) ∧
      s' = storeTlv (s.setRecord (parseHeader b)) (b.drop 11) := by
  simp only [qrParse, raiseIf_bind, except_pure] at h
  obtain ⟨b, hb, hs⟩ := bind_ok h
  obtain ⟨h1, hs⟩ := raiseIf_ok hs
  obtain ⟨h2, hs⟩ := raiseIf_ok hs
  obtain ⟨h3, hs⟩ := raiseIf_ok hs
  obtain ⟨h4, hs⟩ := raiseIf_ok hs
  obtain ⟨h5, hs⟩ := raiseIf_ok hs
  obtain ⟨h6, hs⟩ := raiseIf_ok hs
  obtain ⟨h7, hs⟩ := raiseIf_ok hs
  cases hs
  refine ⟨b, hb, by omega, by omega, not_not.1 h3, h4, not_not.1 h5, ?_, ?_, rfl⟩
  · intro hf hl
    exact h6 ⟨hf, by simp [hl]⟩
  · intro hst
    exact not_not.1 (fun hp => h7 ⟨hst, hp⟩)

/-- What the manual path can give when it does not raise (R182 to R184). -/
theorem manualParse_ok {ds : List Nat} {s s' : State} (h : manualParse ds s = .ok s') :
    ∃ r : Record, vvalid ds = true ∧ r.discShort = true ∧ s' = (s.setRecord r).setTlvlen 0 := by
  simp only [manualParse, raiseIf_bind, except_pure] at h
  obtain ⟨h1, hs⟩ := raiseIf_ok h
  obtain ⟨-, hs⟩ := raiseIf_ok hs
  obtain ⟨-, hs⟩ := raiseIf_ok hs
  obtain ⟨-, hs⟩ := raiseIf_ok hs
  cases hs
  exact ⟨_, not_not.1 h1, rfl, rfl⟩

theorem execPcParse_next {s t : State} {strict : Bool} (h : execPcParse strict s = .next t) :
    (∃ e, e ≠ .none ∧ t = s.setErr e) ∨
    (∃ text s', text.length = s.clen.toNat ∧ Memory.holds s.chars text ∧ s.clen.toNat ≤ s.cfg.charCap ∧
      ((hasQrMarker text = true ∧ qrParse strict (text.drop 3) s = .ok s') ∨
       (hasQrMarker text = false ∧ isManualShape text = true ∧
          manualParse (text.map digitVal) s = .ok s')) ∧
      t = s'.setErr .none) := by
  simp only [execPcParse, raiseIf_bind] at h
  rcases commit_reports (by
    repeat' (first | exact reports_ok _ | exact reports_raise (by decide) | exact reports_readElems _ _ _ |
      exact reports_b38dec _ | exact reports_vdigits _ | apply reports_ite | apply reports_bind | intro _)) h with
    ⟨e, he, rfl⟩ | ⟨s', hs, rfl⟩
  · exact .inl ⟨e, he, rfl⟩
  · obtain ⟨h1, hs⟩ := raiseIf_ok hs
    obtain ⟨text, ht, hs⟩ := bind_ok hs
    obtain ⟨hn, hh⟩ := holds_of_readElems ht
    refine .inr ⟨text, s', hn, hh, by omega, ?_, rfl⟩
    split at hs
    · exact .inl ⟨by assumption, hs⟩
    · split at hs
      · rename_i hq hm
        exact .inr ⟨by simpa using hq, hm, hs⟩
      · cases hs

end Sys2Proof.Machine
end

