-- ==== Sys2Proof/Laws/Invariant.lean ====
section
/-! SUPPORT. Each shared operation keeps the invariant of the block's state (Sys2Proof/Safety.lean). -/

namespace Sys2Proof.Machine

theorem Memory.within_nil (cap : Nat) : Memory.within cap [] := fun _ h => nomatch h

theorem inv_setErr {s : State} (h : s.Inv) (e : ErrorCode) : (s.setErr e).Inv := h

theorem inv_setHost {s : State} (h : s.Inv) (l : List HostAccess) : (s.setHost l).Inv := h

theorem inv_respond {s : State} (h : s.Inv) (r : Response) : (respond s r).Inv := h

theorem inv_setRes0 {s : State} (h : s.Inv) (v : Word) : (s.setRes0 v).Inv := h

theorem inv_setRecord {s : State} (h : s.Inv) (r : Record) : (s.setRecord r).Inv := h

theorem inv_setTlvlen {s : State} (h : s.Inv) (v : Word) : (s.setTlvlen v).Inv := h

theorem inv_setClen {s : State} (h : s.Inv) (v : Word) : (s.setClen v).Inv := h

/-- A stream within the capacity that RPOS does not pass. -/
theorem inv_setStream {s : State} (h : s.Inv) {b : Bits} (hb : b.length ≤ s.cfg.bbCapBits)
    (hr : s.rpos ≤ b.length) : (s.setStream b).Inv :=
  ⟨h.1, h.2.1, h.2.2.1, h.2.2.2.1, hb, hr⟩

theorem inv_setRpos {s : State} (h : s.Inv) {p : Nat} (hp : p ≤ s.stream.length) : (s.setRpos p).Inv :=
  ⟨h.1, h.2.1, h.2.2.1, h.2.2.2.1, h.2.2.2.2.1, hp⟩

theorem inv_storeBytes {s : State} (h : s.Inv) (vs : List Byte) (hl : vs.length ≤ s.cfg.byteCap) :
    (storeBytes s vs).Inv :=
  ⟨h.1, ⟨Memory.wf_writeSeq h.2.1.1 0 vs, Memory.within_writeSeq h.2.1.2 0 vs (by omega)⟩,
    h.2.2.1, h.2.2.2.1, h.2.2.2.2⟩

theorem inv_storeChars {s : State} (h : s.Inv) (vs : List Byte) (hl : vs.length ≤ s.cfg.charCap) :
    (storeChars s vs).Inv :=
  ⟨h.1, h.2.1, ⟨Memory.wf_writeSeq h.2.2.1.1 0 vs, Memory.within_writeSeq h.2.2.1.2 0 vs (by omega)⟩,
    h.2.2.2.1, h.2.2.2.2⟩

theorem inv_storeTlv {s : State} (h : s.Inv) (vs : List Byte) (hl : vs.length ≤ s.cfg.tlvCap) :
    (storeTlv s vs).Inv :=
  ⟨h.1, h.2.1, h.2.2.1, ⟨Memory.wf_writeSeq h.2.2.2.1.1 0 vs,
    Memory.within_writeSeq h.2.2.2.1.2 0 vs (by omega)⟩, h.2.2.2.2⟩

/-- One element of CHARS below the capacity. -/
theorem inv_write_chars {s : State} (h : s.Inv) {i : Nat} (hi : i < s.cfg.charCap) (v : Byte) :
    (s.setChars (s.chars.write i v)).Inv :=
  ⟨h.1, h.2.1, ⟨Memory.wf_write h.2.2.1.1 i v, Memory.within_write h.2.2.1.2 hi v⟩, h.2.2.2.1, h.2.2.2.2⟩

/-- A host write of one buffer element. -/
theorem inv_bufWrite {s : State} (h : s.Inv) (space : Space) (i : Nat) (v : Byte) :
    (bufWrite s space i v).Inv := by
  unfold bufWrite
  split
  · exact h
  · rename_i hi
    have hi' : i < s.cap space := by omega
    cases space
    · exact ⟨h.1, ⟨Memory.wf_write h.2.1.1 i v, Memory.within_write h.2.1.2 hi' v⟩, h.2.2⟩
    · exact inv_write_chars h hi' v
    · exact ⟨h.1, h.2.1, h.2.2.1, ⟨Memory.wf_write h.2.2.2.1.1 i v, Memory.within_write h.2.2.2.1.2 hi' v⟩,
        h.2.2.2.2⟩

/-- A host write of a register. -/
theorem inv_regWrite {s : State} (h : s.Inv) (n : RegNum) (v : Word) : (regWrite s n v).Inv := by
  unfold regWrite
  split
  · rename_i r _
    cases r <;> exact h
  · exact h

end Sys2Proof.Machine
end

