-- ==== Sys2Proof/Laws/PerInstr.lean ====
section
/-! SUPPORT. Laws proved per command, one lemma per constructor of Instr. -/

namespace Sys2Proof.Laws.ReservedBitsZero

/-- The word of a well-formed command has zero in RSV1, bits [15:9], and RSV2, bits [31:22] (R81). -/
def Statement (i : Sys2Proof.Instr) : Prop := i.WellFormed → Sys2Proof.encode i &&& 0xFFC0FE00#32 = 0#32

theorem width_word_reserved (opc : BitVec 32) (hopc : opc &&& 0xFFC0FE00#32 = 0#32) (width : Nat)
    (h : width < 64) : (opc ||| (BitVec.ofNat 32 width <<< 16)) &&& 0xFFC0FE00#32 = 0#32 := by
  have key : ∀ w : Fin 64, (BitVec.ofNat 32 w.1 <<< 16) &&& 0xFFC0FE00#32 = 0#32 := by decide
  have hw := key ⟨width, h⟩
  apply BitVec.eq_of_getLsbD_eq
  intro k hk
  have h1 := congrArg (fun b => b.getLsbD k) hopc
  have h2 := congrArg (fun b => b.getLsbD k) hw
  simp only [BitVec.getLsbD_and, BitVec.getLsbD_or] at h1 h2 ⊢
  rw [Bool.and_or_distrib_right, h1, h2]
  simp

theorem bbClear : Statement .bbClear := fun _ => by decide

theorem bbWrbits (width : Nat) : Statement (.bbWrbits width) := fun h =>
  width_word_reserved 0x00000002#32 (by decide) width (by simpa [Sys2Proof.Instr.WellFormed, Sys2Proof.Instr.wellFormed] using h)

theorem bbRdbits (width : Nat) : Statement (.bbRdbits width) := fun h =>
  width_word_reserved 0x00000003#32 (by decide) width (by simpa [Sys2Proof.Instr.WellFormed, Sys2Proof.Instr.wellFormed] using h)

theorem bbAppend : Statement .bbAppend := fun _ => by decide
theorem bbRdbytes : Statement .bbRdbytes := fun _ => by decide
theorem bbTobytes : Statement .bbTobytes := fun _ => by decide
theorem b38Enc : Statement .b38Enc := fun _ => by decide
theorem b38Dec : Statement .b38Dec := fun _ => by decide
theorem vhCompute : Statement .vhCompute := fun _ => by decide
theorem vhValidate : Statement .vhValidate := fun _ => by decide
theorem vhAppend : Statement .vhAppend := fun _ => by decide
theorem pcEncqr : Statement .pcEncqr := fun _ => by decide
theorem pcEncman : Statement .pcEncman := fun _ => by decide
theorem pcParse (strict : Bool) : Statement (.pcParse strict) := fun _ => by cases strict <;> decide

end Sys2Proof.Laws.ReservedBitsZero
end

