-- ==== Sys2Proof/Laws/Step.lean ====
section
/-! SUPPORT. What a step can do: wait, run or reject a command word, or perform another access (60_exceptions.md
R222, 20_memory.md R64); and the register map. -/

namespace Sys2Proof.Machine

@[simp] theorem regOf_number (r : Reg) : regOf r.number = some r := by cases r <;> rfl

/-- A register number names at most one register (R21). -/
theorem regOf_some {n : RegNum} {r : Reg} (h : regOf n = some r) : n = r.number := by
  have key : ∀ n : Fin 32, ∀ r ∈ regOf (BitVec.ofFin n), BitVec.ofFin n = r.number := by decide
  exact key n.toFin r h

theorem fetch_idle {s : State} (h : s.host = []) : fetch s = .idle := by simp [fetch, h]

theorem fetch_command {s : State} {w : Word} {rest : List HostAccess}
    (h : s.host = .regWrite Reg.cmd.number w :: rest) : fetch s = .command w (s.setHost rest) := by
  simp [fetch, h]

/-- What the block does next: nothing is pending, or the oldest access is taken off the list, and it is a
command exactly when it writes CMD. -/
theorem fetch_cases (s : State) :
    (s.host = [] ∧ fetch s = .idle) ∨
    (∃ w rest, s.host = .regWrite Reg.cmd.number w :: rest ∧ fetch s = .command w (s.setHost rest)) ∨
    (∃ a rest, s.host = a :: rest ∧ (∀ w, a ≠ .regWrite Reg.cmd.number w) ∧
      fetch s = .access a (s.setHost rest)) := by
  cases hs : s.host with
  | nil => exact .inl ⟨rfl, fetch_idle hs⟩
  | cons a rest =>
    cases a with
    | regWrite n v =>
      by_cases hn : regOf n = some .cmd
      · have := regOf_some hn
        subst this
        exact .inr (.inl ⟨v, rest, rfl, fetch_command hs⟩)
      · refine .inr (.inr ⟨.regWrite n v, rest, rfl, ?_, by simp [fetch, hs, hn]⟩)
        intro w hw
        cases hw
        exact hn (regOf_number .cmd)
    | regRead n => exact .inr (.inr ⟨_, rest, rfl, by simp, by simp [fetch, hs]⟩)
    | bufRead sp i => exact .inr (.inr ⟨_, rest, rfl, by simp, by simp [fetch, hs]⟩)
    | bufWrite sp i v => exact .inr (.inr ⟨_, rest, rfl, by simp, by simp [fetch, hs]⟩)
    | reset => exact .inr (.inr ⟨_, rest, rfl, by simp, by simp [fetch, hs]⟩)

theorem step_idle {s : State} (h : s.host = []) : step s = .next s := by simp [step, fetch_idle h]

theorem step_access {s : State} {a : HostAccess} {s' : State} (h : fetch s = .access a s') :
    step s = performAccess a s' := by simp [step, h]

/-- What a write to a register changes: one of the read-write registers (R46). -/
theorem writeReg_cases (s : State) (v : Word) (r : Reg) :
    writeReg s v r = s ∨ writeReg s v r = s.setArg0 v ∨ writeReg s v r = s.setBlen v ∨
    writeReg s v r = s.setClen v ∨ writeReg s v r = s.setTlvlen v ∨
    ∃ q, writeReg s v r = s.setRecord q := by
  cases r <;> first
    | exact .inl rfl
    | exact .inr (.inl rfl)
    | exact .inr (.inr (.inl rfl))
    | exact .inr (.inr (.inr (.inl rfl)))
    | exact .inr (.inr (.inr (.inr (.inl rfl))))
    | exact .inr (.inr (.inr (.inr (.inr ⟨_, rfl⟩))))

@[simp] theorem setMem_mem (s : State) (space : Space) (m : Memory) : (setMem s space m).mem space = m := by
  cases space <;> rfl

theorem setMem_mem_other (s : State) {space other : Space} (m : Memory) (h : other ≠ space) :
    (setMem s space m).mem other = s.mem other := by
  cases space <;> cases other <;> first | rfl | exact absurd rfl h

/-- What a host buffer read can do (R64, R65). -/
theorem bufRead_cases (s : State) (space : Space) (i : Nat) :
    (s.cap space ≤ i ∧ bufRead s space i = .ok 0) ∨
    (i < s.cap space ∧ ∃ v, (s.mem space).read i = some v ∧ bufRead s space i = .ok v) ∨
    (i < s.cap space ∧ (s.mem space).read i = none ∧ bufRead s space i = .error (.uninitRead space i)) := by
  by_cases h : s.cap space ≤ i
  · exact .inl ⟨h, by simp [bufRead, h]⟩
  · cases hr : (s.mem space).read i with
    | some v => exact .inr (.inl ⟨by omega, v, rfl, by simp [bufRead, h, hr]⟩)
    | none => exact .inr (.inr ⟨by omega, rfl, by simp [bufRead, h, hr]⟩)

/-- A host buffer write below the capacity changes its one element (R64). -/
theorem bufWrite_in {s : State} {space : Space} {i : Nat} (h : i < s.cap space) (v : Byte) :
    bufWrite s space i v = setMem s space ((s.mem space).write i v) := by
  simp [bufWrite]
  omega

theorem bufWrite_out {s : State} {space : Space} {i : Nat} (h : s.cap space ≤ i) (v : Byte) :
    bufWrite s space i v = s := by
  simp [bufWrite, h]

end Sys2Proof.Machine
end

