-- ==== Sys2Proof/Tests/Slice0.lean ====
section
/-! SUPPORT. The model's own tests. Expected results come from the spec: the words from 30_encoding.md R85 and R88,
the vectors (named in each docstring) from 95_test_vectors.md. The witnesses show, for each obligation with hypotheses,
a concrete state and operands that meet them all, clause by clause. -/

namespace Sys2Proof.Tests

open Sys2Proof Sys2Proof.Machine

/-! ## Helpers -/

def withBytes (l : List Byte) : State :=
  { State.reset with bytes := Memory.writeSeq [] 0 l, blen := BitVec.ofNat 32 l.length }

def withChars (l : List Byte) : State :=
  { State.reset with chars := Memory.writeSeq [] 0 l, clen := BitVec.ofNat 32 l.length }

def withDigits (ds : List Nat) : State := withChars (ds.map digitChar)

def withTlv (l : List Byte) (r : Record) : State :=
  { State.reset with tlv := Memory.writeSeq [] 0 l, tlvlen := BitVec.ofNat 32 l.length, record := r }

/-- The text CHARS[0..CLEN). -/
def text (t : State) : List Byte := (t.chars.take t.clen.toNat).map Prod.snd

/-- The bytes BYTES[0..BLEN). -/
def byteSeq (t : State) : List Byte := (t.bytes.take t.blen.toNat).map Prod.snd

/-- One step from a state whose host writes the word `w` to CMD. -/
def after (s : State) (w : Nat) (p : State → Bool) : Bool :=
  match step (s.withFetchWord 32 w) with
  | .next t => p t
  | _ => false

/-- An outcome is a next state with a property. -/
def nextWith (o : Host.Outcome State Fault Refusal) (p : State → Bool) : Bool :=
  match o with
  | .next t => p t
  | _ => false

theorem next_of {o : Host.Outcome State Fault Refusal} {p : State → Bool} (h : nextWith o p = true) :
    ∃ t, o = .next t ∧ p t = true := by
  cases o with
  | next t => exact ⟨t, rfl, h⟩
  | fault f => cases h
  | refused q => cases h

/-- The record W of 95_test_vectors.md. -/
def recW : Record := ⟨0, 65521, 32768, 0, 4, 1132, 69414998, 0, false⟩

/-- The record M of 95_test_vectors.md. -/
def recM : Record := ⟨0, 0, 0, 0, 0, 3840, 20202021, 0, false⟩

/-- `MT:Y.K904QI143LH13SH10` (W1). -/
def textW : List Byte :=
  [0x4D, 0x54, 0x3A, 0x59, 0x2E, 0x4B, 0x39, 0x30, 0x34, 0x51, 0x49, 0x31, 0x34, 0x33, 0x4C, 0x48, 0x31, 0x33,
   0x53, 0x48, 0x31, 0x30]

/-- `MT:Y.K904QI143LH13QOF0` (PC-P18): W1 with padding 5. -/
def textP18 : List Byte :=
  [0x4D, 0x54, 0x3A, 0x59, 0x2E, 0x4B, 0x39, 0x30, 0x34, 0x51, 0x49, 0x31, 0x34, 0x33, 0x4C, 0x48, 0x31, 0x33,
   0x51, 0x4F, 0x46, 0x30]

/-- `34970112332` (PC-M1). -/
def codeM : List Nat := [3, 4, 9, 7, 0, 1, 1, 2, 3, 3, 2]

/-- A state whose stream has `n` zero bits. -/
def withZeros (n : Nat) : State := { State.reset with stream := List.replicate n false }

/-! ## Well-formedness and decoding -/

theorem test_wellFormed_refuses_width :
    (Instr.bbWrbits 64).wellFormed = false ∧ (Instr.bbRdbits 64).wellFormed = false := by decide

theorem test_wellFormed_accepts_width :
    (Instr.bbWrbits 63).wellFormed = true ∧ (Instr.bbRdbits 0).wellFormed = true := by decide

/-- Words written bit by bit from R81 and R85: RSV2, WIDTH, RSV1, STRICT, OPC. -/
theorem test_decode_bitbuffer :
    decode 0b0000000000_000000_0000000_0_00000001#32 = .ok .bbClear ∧
    decode 0b0000000000_000011_0000000_0_00000010#32 = .ok (.bbWrbits 3) ∧
    decode 0b0000000000_100001_0000000_0_00000010#32 = .ok (.bbWrbits 33) ∧
    decode 0b0000000000_001000_0000000_0_00000011#32 = .ok (.bbRdbits 8) ∧
    decode 0b0000000000_000000_0000000_0_00000100#32 = .ok .bbAppend ∧
    decode 0b0000000000_000000_0000000_0_00000101#32 = .ok .bbRdbytes ∧
    decode 0b0000000000_000000_0000000_0_00000110#32 = .ok .bbTobytes := by decide

theorem test_decode_base38 :
    decode 0b0000000000_000000_0000000_0_00010000#32 = .ok .b38Enc ∧
    decode 0b0000000000_000000_0000000_0_00010001#32 = .ok .b38Dec := by decide

theorem test_decode_verhoeff :
    decode 0b0000000000_000000_0000000_0_00100000#32 = .ok .vhCompute ∧
    decode 0b0000000000_000000_0000000_0_00100001#32 = .ok .vhValidate ∧
    decode 0b0000000000_000000_0000000_0_00100010#32 = .ok .vhAppend := by decide

theorem test_decode_payload :
    decode 0b0000000000_000000_0000000_0_00110000#32 = .ok .pcEncqr ∧
    decode 0b0000000000_000000_0000000_0_00110001#32 = .ok .pcEncman ∧
    decode 0b0000000000_000000_0000000_0_00110010#32 = .ok (.pcParse false) ∧
    decode 0b0000000000_000000_0000000_1_00110010#32 = .ok (.pcParse true) := by decide

/-- ENC-1 to ENC-11: words R86 makes illegal. -/
theorem test_decode_illegal :
    [0x00000000#32, 0x00000007, 0x00000033, 0x000000FF, 0x00010001, 0x00000130, 0x00000101, 0x80000001,
      0x00000232, 0x00400002, 0x00000221].all
      (fun w => decide (decode w = .error .illegalCommand)) = true := by decide

/-- No two rows of R85's table accept one word. -/
theorem test_rows_disjoint :
    opcodeRows.Pairwise (fun a b => (a.pattern ^^^ b.pattern) &&& a.mask &&& b.mask ≠ 0) := by decide

/-! ## One step per command -/

/-- ENC-1: an illegal word sets ERR and leaves the rest. -/
theorem test_illegal :
    after State.reset 0 (fun t => t == { State.reset with err := .illegalCommand }) = true := by decide

/-- BB-25. -/
theorem test_bbClear :
    after { withZeros 9 with rpos := 4, err := .range } 0x00000001 (fun t => t == State.reset) = true := by decide

/-- BB-1. -/
theorem test_bbWrbits :
    after { State.reset with arg0 := 5 } 0x00030002
      (fun t => t.stream == [true, false, true] && t.rpos == 0 && t.err == .none) = true := by decide

set_option maxRecDepth 10000 in
/-- BB-6: the capacity. -/
theorem test_bbWrbits_capacity :
    after (withZeros 1020) 0x00050002
      (fun t => t.stream.length == 1020 && t.err == .capacity) = true := by decide

/-- BB-10: a read that straddles two bytes. -/
theorem test_bbRdbits :
    after { State.reset with stream := bitImage [0xBC, 0x5A], rpos := 4 } 0x00080003
      (fun t => t.res0 == 0xAB && t.rpos == 12 && t.err == .none) = true := by decide

/-- BB-11. -/
theorem test_bbRdbits_truncated :
    after { State.reset with stream := bitImage [0xBC, 0x5A], rpos := 12, res0 := 0xAB } 0x00050003
      (fun t => t.res0 == 0xAB && t.rpos == 12 && t.err == .truncatedData) = true := by decide

/-- BB-17. -/
theorem test_bbAppend :
    after { withBytes [0x12, 0x34] with stream := [true, false, true, false, false, true, false, true] } 0x00000004
      (fun t => t.stream == [true, false, true, false, false, true, false, true,
          false, true, false, false, true, false, false, false, false, false, true, false, true, true, false, false] &&
        t.err == .none) = true := by decide

/-- BB-16. -/
theorem test_bbAppend_alignment :
    after { withBytes [0x12] with stream := [true, false, true] } 0x00000004
      (fun t => t.stream == [true, false, true] && t.err == .alignment) = true := by decide

/-- BB-21. -/
theorem test_bbRdbytes :
    after { State.reset with stream := bitImage [0x12, 0x34], rpos := 8, arg0 := 1 } 0x00000005
      (fun t => byteSeq t == [0x34] && t.blen == 1 && t.rpos == 16 && t.err == .none) = true := by decide

/-- BB-20. -/
theorem test_bbRdbytes_truncated :
    after { State.reset with stream := bitImage [0x12, 0x34], rpos := 8, arg0 := 2 } 0x00000005
      (fun t => t.blen == 0 && t.rpos == 8 && t.err == .truncatedData) = true := by decide

/-- BB-8. -/
theorem test_bbTobytes :
    after { State.reset with stream := bitsOf 0xABC 12 ++ bitsOf 5 4 } 0x00000006
      (fun t => byteSeq t == [0xBC, 0x5A] && t.blen == 2 && t.rpos == 0 && t.err == .none) = true := by decide

/-- BB-14: the top bits of a partial byte are 0. -/
theorem test_bbTobytes_partial :
    after { State.reset with stream := [true, false, true] } 0x00000006
      (fun t => byteSeq t == [0x05] && t.blen == 1) = true := by decide

/-- B38-E8: `FJM3040`. -/
theorem test_b38Enc :
    after (withBytes [0x01, 0x02, 0x03, 0x04]) 0x00000010
      (fun t => text t == [0x46, 0x4A, 0x4D, 0x33, 0x30, 0x34, 0x30] && t.clen == 7 && t.err == .none) = true := by
  decide

/-- B38-E4: `S600`. -/
theorem test_b38Enc_tail :
    after (withBytes [0x00, 0x01]) 0x00000010
      (fun t => text t == [0x53, 0x36, 0x30, 0x30] && t.err == .none) = true := by decide

/-- B38-D8: `00000R6`. -/
theorem test_b38Dec :
    after (withChars [0x30, 0x30, 0x30, 0x30, 0x30, 0x52, 0x36]) 0x00000011
      (fun t => byteSeq t == [0x00, 0x00, 0x00, 0xFF] && t.blen == 4 && t.err == .none) = true := by decide

/-- B38-D5: `NF71`, 65536 in 2 bytes. -/
theorem test_b38Dec_encoding :
    after { withChars [0x4E, 0x46, 0x37, 0x31] with blen := 99 } 0x00000011
      (fun t => t.blen == 99 && t.err == .invalidEncoding) = true := by decide

/-- VH-7. -/
theorem test_vhCompute :
    after (withDigits [1, 2, 3, 4, 5]) 0x00000020 (fun t => t.res0 == 1 && t.err == .none) = true := by decide

/-- VH-11: `23a`. -/
theorem test_vhCompute_character :
    after (withChars [0x32, 0x33, 0x61]) 0x00000020
      (fun t => t.res0 == 0 && t.err == .invalidCharacter) = true := by decide

/-- VH-8. -/
theorem test_vhValidate :
    after (withDigits [1, 2, 3, 4, 5, 1]) 0x00000021 (fun t => t.res0 == 1 && t.err == .none) = true := by decide

/-- VH-9: two adjacent digits swapped. -/
theorem test_vhValidate_swap :
    after { withDigits [1, 2, 3, 4, 1, 5] with res0 := 1 } 0x00000021
      (fun t => t.res0 == 0 && t.err == .none) = true := by decide

/-- VH-13. -/
theorem test_vhAppend :
    after (withDigits [2, 3, 6]) 0x00000022
      (fun t => text t == [0x32, 0x33, 0x36, 0x33] && t.clen == 4 && t.res0 == 3 && t.err == .none) = true := by
  decide

/-- VH-16. -/
theorem test_vhAppend_empty :
    after State.reset 0x00000022 (fun t => text t == [0x30] && t.clen == 1 && t.res0 == 0) = true := by decide

/-- PC-Q1. -/
theorem test_pcEncqr :
    after (withTlv [] recW) 0x00000030
      (fun t => text t == textW && t.clen == 22 && t.record == recW && t.err == .none) = true := by decide

/-- PC-Q13: Custom flow without TLV. -/
theorem test_pcEncqr_custom :
    after (withTlv [] { recW with flow := 2 }) 0x00000030
      (fun t => t.clen == 0 && t.err == .validation) = true := by decide

/-- PC-M1. -/
theorem test_pcEncman :
    after (withTlv [] recM) 0x00000031
      (fun t => text t == codeM.map digitChar && t.clen == 11 && t.err == .none) = true := by decide

/-- PC-M4: the long form, without TLV. -/
theorem test_pcEncman_long :
    after (withTlv [] { recW with flow := 2 }) 0x00000031
      (fun t => text t == [5, 1, 2, 3, 7, 4, 4, 2, 3, 6, 6, 5, 5, 2, 1, 3, 2, 7, 6, 8, 7].map digitChar &&
        t.clen == 21) = true := by decide

/-- PC-P1. -/
theorem test_pcParse_manual :
    after { withDigits codeM with tlvlen := 7 } 0x00000032
      (fun t => t.record == ⟨0, 0, 0, 0, 0, 3840, 20202021, 0, true⟩ && t.tlvlen == 0 && t.err == .none) = true := by
  decide

/-- PC-P18 and PC-P19: nonzero padding, without and with STRICT. -/
theorem test_pcParse_padding :
    after (withChars textP18) 0x00000032
      (fun t => t.record == { recW with padding := 5 } && t.tlvlen == 0 && t.err == .none) = true ∧
    after { withChars textP18 with record := recM } 0x00000132
      (fun t => t.record == recM && t.err == .validation) = true := by decide

/-- The encoder's words, and `decodeTableWord` on the width-operand row. -/
theorem test_encode :
    encode (.bbWrbits 63) = 0x003F0002 ∧ encode (.pcParse true) = 0x00000132 ∧
    decodeTableWord 32 0x00200003 = some (.bbRdbits 32) ∧ decodeTableWord 32 0x00400002 = none := by decide

/-! ## Witnesses: hypotheses met together, for every obligation that has some -/

theorem witness_DecodeInvertsEncode :
    (Instr.bbWrbits 0).WellFormed ∧ (Instr.bbRdbits 63).WellFormed ∧ (Instr.pcParse true).WellFormed := by decide

theorem witness_EncodeInvertsDecode :
    decode 0x00000002#32 = .ok (.bbWrbits 0) ∧ decode 0x003F0003#32 = .ok (.bbRdbits 63) := by decide

theorem witness_IllegalWordOnlySetsStatus :
    { State.reset with host := [.regWrite 0x00 0x00400002] }.host = .regWrite 0x00 0x00400002 :: [] ∧
    illegalWord 0x00400002 ∧ illegalWord 0x00000033 ∧ ¬ illegalWord 0x003F0002 ∧ ¬ illegalWord 0x00000132 :=
  ⟨by decide, by decide, by decide, by decide, by decide⟩

theorem witness_StepRunsTheDecodedCommand :
    { State.reset with host := [.regWrite 0x00 0x00000001] }.host = .regWrite 0x00 0x00000001 :: [] ∧
    decode 0x00000001#32 = .ok .bbClear := by decide

theorem witness_StepWaitsForTheHost : State.reset.host = [] := by decide

theorem witness_StepConsumesOneAccess :
    ∃ t, step { State.reset with host := [.regRead 0x01] } = .next t ∧ (t.responses == [.reg 0]) = true :=
  next_of (by decide)

theorem witness_ResetInputRestoresReset :
    { withTlv [1] recW with host := [.reset] }.host = .reset :: [] := by decide

theorem witness_StepKeepsTheInvariant :
    { withZeros 3 with host := [.bufWrite .tlv 116 7] }.Inv ∧
    ∃ t, step { withZeros 3 with host := [.bufWrite .tlv 116 7] } = .next t ∧ (t.tlv == [(116, 7)]) = true :=
  ⟨by decide, next_of (by decide)⟩

theorem witness_OnlyUninitReadStopsAStep :
    step { State.reset with host := [.bufRead .chars 255] } = .fault (.uninitRead .chars 255) := rfl

theorem witness_WrittenOperandsComplete :
    operandsWritten .bbAppend (withBytes [1, 2]) ∧ operandsWritten .b38Enc (withBytes [1, 2]) ∧
    operandsWritten .b38Dec (withDigits codeM) ∧ operandsWritten .vhCompute (withDigits codeM) ∧
    operandsWritten .vhValidate (withDigits codeM) ∧ operandsWritten .vhAppend (withDigits codeM) ∧
    operandsWritten (.pcParse true) (withDigits codeM) ∧ operandsWritten .pcEncqr (withTlv [1] recW) ∧
    operandsWritten .bbClear State.reset ∧ operandsWritten (.bbWrbits 1) State.reset ∧
    operandsWritten (.bbRdbits 1) State.reset ∧ operandsWritten .bbRdbytes State.reset ∧
    operandsWritten .bbTobytes State.reset ∧ operandsWritten .pcEncman State.reset := by
  simp only [operandsWritten]
  decide

/-- Clause by clause: BYTES for BB.APPEND and B38.ENC, CHARS for the text commands, TLV for PC.ENCQR, each with its last
operand element unwritten. -/
theorem witness_UnwrittenOperandStops :
    (let s := { withBytes [1, 2] with blen := 3 }
     2 < s.blen.toNat ∧ s.bytes.read 2 = none ∧ s.blen.toNat ≤ s.cfg.byteCap ∧ s.stream.length % 8 = 0 ∧
       s.stream.length + 8 * s.blen.toNat ≤ s.cfg.bbCapBits ∧ b38len s.blen.toNat ≤ s.cfg.charCap) ∧
    (let s := { withChars [0x30] with clen := 2 }
     1 < s.clen.toNat ∧ s.chars.read 1 = none ∧ s.clen.toNat ≤ s.cfg.charCap ∧ s.clen.toNat % 5 ≠ 1 ∧
       s.clen.toNat % 5 ≠ 3 ∧ b38bytes s.clen.toNat ≤ s.cfg.byteCap) ∧
    (let s := { withTlv [] recW with tlvlen := 117 }
     116 < s.tlvlen.toNat ∧ s.tlv.read 116 = none ∧ QrEncodable s.cfg s.record s.tlvlen.toNat ∧
       3 + b38len (11 + s.tlvlen.toNat) ≤ s.cfg.charCap) := by decide

theorem witness_RegisterReads :
    { State.reset with host := [.regRead 0x19] }.host = .regRead 0x19 :: [] ∧
    [0x0A#5, 0x0F, 0x1A, 0x1F].all
      (fun n => decide ((0x0A ≤ n.toNat ∧ n.toNat ≤ 0x0F) ∨ 0x1A ≤ n.toNat)) = true := by decide

theorem witness_BitBufferViewsAreExact : { withZeros 9 with rpos := 9 }.Inv := by decide

theorem witness_RegisterWrites :
    [0x01#5, 0x02, 0x09, 0x18, 0x19, 0x1F].all (fun n => decide (n ≠ 0x00 ∧
      { State.reset with host := [.regWrite n 3] }.host = .regWrite n 3 :: [])) = true := by decide

/-- One index on each side of TLV_CAP, written and unwritten. -/
theorem witness_BufferReads :
    (let s := { State.reset with host := [.bufRead .tlv 117] }
     s.host = .bufRead .tlv 117 :: [] ∧ s.cap .tlv ≤ 117) ∧
    (let s := { State.reset with host := [.bufRead .tlv 116], tlv := [(116, 7)] }
     s.host = .bufRead .tlv 116 :: [] ∧ 116 < s.cap .tlv ∧ (s.mem .tlv).read 116 = some 7) ∧
    (let s := { State.reset with host := [.bufRead .tlv 116] }
     s.host = .bufRead .tlv 116 :: [] ∧ 116 < s.cap .tlv ∧ (s.mem .tlv).read 116 = none) := by decide

theorem witness_BufferWrites :
    { State.reset with host := [.bufWrite .chars 255 7] }.host = .bufWrite .chars 255 7 :: [] ∧
    { State.reset with host := [.bufWrite .chars 256 7] }.host = .bufWrite .chars 256 7 :: [] := by decide

/-- A sequence of length 2, one of length 0, and one as long as TLV. -/
theorem witness_LoadPseudoInstructions :
    ({ State.reset with host := (Pseudo.loadstr [0x32, 0x33]).expand }.host =
        (Pseudo.loadstr [0x32, 0x33]).expand ++ [] ∧ [0x32#8, 0x33].length ≤ State.reset.cfg.charCap) ∧
    ({ State.reset with host := (Pseudo.loadbytes []).expand }.host = (Pseudo.loadbytes []).expand ++ [] ∧
      ([] : List Byte).length ≤ State.reset.cfg.byteCap) ∧
    ({ State.reset with host := (Pseudo.loadtlv (List.replicate 117 0)).expand }.host =
        (Pseudo.loadtlv (List.replicate 117 0)).expand ++ [] ∧
      (List.replicate 117 (0 : Byte)).length ≤ State.reset.cfg.tlvCap) := by
  simp [State.reset, Config.default]

theorem witness_FailedCommandChangesOnlyStatus :
    ∃ t, exec (.bbWrbits 0) State.reset = .next t ∧ decide (t.err ≠ .none) = true := next_of (by decide)

/-- A command that changes RES0, and one that does not. -/
theorem witness_CommandsKeepArg0AndRes0 :
    (∃ t, exec .vhCompute (withDigits [2, 3, 6]) = .next t ∧
      decide (t.res0 ≠ (withDigits [2, 3, 6]).res0) = true) ∧
    ∃ t, exec .bbClear State.reset = .next t ∧ decide (t.arg0 = 0) = true :=
  ⟨next_of (by decide), next_of (by decide)⟩

/-- BB.CLEAR of a full S, and a command that fills S exactly. -/
theorem witness_StreamOnlyGrowsUntilClear :
    (let s := { withZeros 88 with cfg := { Config.default with bbCapBits := 88 } }
     (∃ t, exec .bbClear s = .next t ∧ decide (s.stream.length ≤ s.cfg.bbCapBits) = true)) ∧
    (let s := { withZeros 87 with cfg := { Config.default with bbCapBits := 88 } }
     (∃ t, exec (.bbWrbits 1) s = .next t ∧
      decide (Instr.bbWrbits 1 ≠ .bbClear ∧ s.stream.length ≤ s.cfg.bbCapBits ∧ t.stream.length = 88) = true)) :=
  ⟨next_of (by decide), next_of (by decide)⟩

theorem witness_BitBufferCommandsTouchOnlyTheirState :
    (∃ w, Instr.bbWrbits 63 = .bbWrbits w) ∧ (∃ w, Instr.bbRdbits 0 = .bbRdbits w) ∧
    ∃ t, exec .bbClear (withZeros 1) = .next t ∧ decide (t.stream = []) = true :=
  ⟨⟨63, rfl⟩, ⟨0, rfl⟩, next_of (by decide)⟩

theorem witness_PayloadCommandsLeaveTheBitBuffer : ∃ strict, Instr.pcParse true = .pcParse strict := ⟨true, rfl⟩

theorem witness_EncmanIgnoresFieldsItDoesNotCarry :
    (withTlv [] recM).record.flow = 0 ∧
    (⟨5, 0, 0, 0, 999, 3840, 20202021, 3, true⟩ : Record) =
      { (withTlv [] recM).record with version := 5, caps := 999, padding := 3, discShort := true } := by decide

/-- WIDTH 0, 1, 32 and 33; a value one too large; S one bit too full, and just filled. -/
theorem witness_WrbitsAppendsOrRaises :
    (0 < 64 ∧ 63 < 64) ∧ (0 < 1 ∨ 32 < 0) ∧ (33 < 1 ∨ 32 < 33) ∧
    (1 ≤ 1 ∧ 1 ≤ 32 ∧ 2 ^ 1 ≤ { State.reset with arg0 := 2 }.arg0.toNat) ∧
    (let s := { withZeros 57 with cfg := { Config.default with bbCapBits := 88 }, arg0 := 0xFFFFFFFF }
     1 ≤ 32 ∧ 32 ≤ 32 ∧ s.arg0.toNat < 2 ^ 32 ∧ s.cfg.bbCapBits < s.stream.length + 32) ∧
    (let s := { withZeros 56 with cfg := { Config.default with bbCapBits := 88 }, arg0 := 0xFFFFFFFF }
     1 ≤ 32 ∧ 32 ≤ 32 ∧ s.arg0.toNat < 2 ^ 32 ∧ s.stream.length + 32 ≤ s.cfg.bbCapBits) := by decide

/-- WIDTH 0, 33; a read one bit past S, and one of all that remains. -/
theorem witness_RdbitsConsumesOrRaises :
    (0 < 64 ∧ 63 < 64) ∧ (0 < 1 ∨ 32 < 0) ∧ (33 < 1 ∨ 32 < 33) ∧
    (let s := { withZeros 9 with rpos := 8 }
     (1 ≤ 2 ∧ 2 ≤ 32 ∧ s.stream.length < s.rpos + 2) ∧ (1 ≤ 1 ∧ 1 ≤ 32 ∧ s.rpos + 1 ≤ s.stream.length)) ∧
    (let s := withZeros 32
     1 ≤ 32 ∧ 32 ≤ 32 ∧ s.rpos + 32 ≤ s.stream.length) := by decide

/-- A state with a small BitBuffer, `n` zero bits of 88 used, and the given bytes. -/
def appendState (n : Nat) (l : List Byte) : State :=
  { withBytes l with cfg := { Config.default with bbCapBits := 88 }, stream := List.replicate n false }

theorem witness_AppendAddsBytesOrRaises :
    (let s := { State.reset with blen := 129 }
     s.cfg.byteCap < s.blen.toNat) ∧
    (let s := appendState 7 [1]
     s.blen.toNat ≤ s.cfg.byteCap ∧ s.stream.length % 8 ≠ 0) ∧
    (let s := appendState 88 [1]
     s.blen.toNat ≤ s.cfg.byteCap ∧ s.stream.length % 8 = 0 ∧
       s.cfg.bbCapBits < s.stream.length + 8 * s.blen.toNat) ∧
    (let s := appendState 80 [1]
     [1#8].length = s.blen.toNat ∧ Memory.holds s.bytes [1] ∧ s.blen.toNat ≤ s.cfg.byteCap ∧
       s.stream.length % 8 = 0 ∧ s.stream.length + 8 * s.blen.toNat ≤ s.cfg.bbCapBits) := by decide

theorem witness_RdbytesMovesBytesOrRaises :
    (let s := { State.reset with arg0 := 129 }
     s.cfg.byteCap < s.arg0.toNat) ∧
    (let s := { withZeros 16 with rpos := 7, arg0 := 1 }
     s.arg0.toNat ≤ s.cfg.byteCap ∧ s.rpos % 8 ≠ 0) ∧
    (let s := { withZeros 15 with rpos := 8, arg0 := 1 }
     s.arg0.toNat ≤ s.cfg.byteCap ∧ s.rpos % 8 = 0 ∧ s.stream.length - s.rpos < 8 * s.arg0.toNat) ∧
    (let s := { withZeros 16 with rpos := 8, arg0 := 1 }
     s.arg0.toNat ≤ s.cfg.byteCap ∧ s.rpos % 8 = 0 ∧ 8 * s.arg0.toNat ≤ s.stream.length - s.rpos) := by decide

theorem witness_TobytesExportsTheImageOrRaises :
    (let s := { withZeros 89 with cfg := { Config.default with byteCap := 11 } }
     s.cfg.byteCap < (s.stream.length + 7) / 8) ∧
    (let s := { withZeros 88 with cfg := { Config.default with byteCap := 11 } }
     (s.stream.length + 7) / 8 ≤ s.cfg.byteCap) := by decide

theorem witness_WrittenFieldsAreReadBack :
    (let s := { appendState 56 [] with rpos := 56 }
     s.rpos = s.stream.length ∧ s.stream.length + 32 ≤ s.cfg.bbCapBits ∧ 1 ≤ 32 ∧ 32 ≤ 32 ∧
       (0xFFFFFFFF#32).toNat < 2 ^ 32) ∧
    (let s := { appendState 55 [] with rpos := 55 }
     let fs := [(1#32, 1), (0xFFFFFFFF, 32)]
     s.rpos = s.stream.length ∧ s.stream.length + (fs.map Prod.snd).sum ≤ s.cfg.bbCapBits ∧
       ∀ f ∈ fs, 1 ≤ f.2 ∧ f.2 ≤ 32 ∧ f.1.toNat < 2 ^ f.2) := by decide

theorem witness_AppendedBytesAreExported :
    let s := appendState 72 [0x12, 0x34]
    [0x12#8, 0x34].length = s.blen.toNat ∧ Memory.holds s.bytes [0x12, 0x34] ∧ s.stream.length % 8 = 0 ∧
      s.stream.length + 8 * [0x12#8, 0x34].length ≤ s.cfg.bbCapBits ∧
      s.stream.length / 8 + [0x12#8, 0x34].length ≤ s.cfg.byteCap := by decide

theorem witness_Base38Lengths : b38dec [0x52, 0x36] = .ok [0xFF] ∧ b38dec [] = .ok [] := by decide

/-- The values at the ends of R130's ranges. -/
theorem witness_Base38GroupDigits :
    (0 < 10 ∧ 9 < 10) ∧ (10 ≤ 10 ∧ 10 < 36 ∧ 10 ≤ 35 ∧ 35 < 36) ∧ chr38 36 = 0x2D ∧ val38 0x2E = some 37 ∧
    (37 < 38 ∧ chr38 37 = 0x2E) := by decide

/-- The ends of the tables' ranges, and a digit with the inverse the last clause speaks of. -/
theorem witness_VerhoeffTablesAndAccumulator :
    (0 < 5 ∧ 4 < 5) ∧ (0 < 10 ∧ 9 < 10) ∧ (1 ≤ 1 ∧ 1 < 8 ∧ 1 ≤ 7 ∧ 7 < 8) ∧ 1 = vInv 4 ∧ vMul 4 1 = 0 ∧
    vvalid [2, 3, 6] = true := by decide

/-- Lengths 1 and 3; a bad character; legal characters that decode, and that do not. -/
theorem witness_Base38DecodeErrorOrder :
    [0x30#8].length % 5 = 1 ∧ [0x53#8, 0x36, 0x61].length % 5 = 3 ∧
    ([0x61#8, 0x30].length % 5 ≠ 1 ∧ [0x61#8, 0x30].length % 5 ≠ 3 ∧ ∃ c ∈ [0x61#8, 0x30], c ∉ alphabet38) ∧
    ([0x52#8, 0x36].length % 5 ≠ 1 ∧ [0x52#8, 0x36].length % 5 ≠ 3 ∧ ∀ c ∈ [0x52#8, 0x36], c ∈ alphabet38) ∧
    (∀ c ∈ [0x53#8, 0x36], c ∈ alphabet38) := by decide

theorem witness_B38EncWritesTextOrRaises :
    (let s := { State.reset with blen := 129 }
     s.cfg.byteCap < s.blen.toNat) ∧
    (let s := { State.reset with cfg := { Config.default with charCap := 24 }, blen := 15 }
     s.cfg.charCap < b38len s.blen.toNat) ∧
    (let s := { withBytes (List.replicate 14 0xFF) with cfg := { Config.default with charCap := 24 } }
     (List.replicate 14 0xFF#8).length = s.blen.toNat ∧ Memory.holds s.bytes (List.replicate 14 0xFF#8) ∧
       s.blen.toNat ≤ s.cfg.byteCap ∧ b38len s.blen.toNat ≤ s.cfg.charCap) := by decide

set_option maxRecDepth 10000 in
/-- No byte sequence encodes to `S6` (B38-D3). -/
theorem no_bytes_encode_S6 (b : List Byte) : b38enc b ≠ [0x53, 0x36] := by
  match b with
  | [] => decide
  | [b0] =>
    have h : ∀ k : Fin 256, b38enc [BitVec.ofNat 8 k] ≠ [0x53, 0x36] := by decide
    have h0 := h ⟨b0.toNat, b0.isLt⟩
    simpa using h0
  | [b0, b1] => intro h; simp [b38enc, digits38] at h
  | b0 :: b1 :: b2 :: rest => intro h; simp [b38enc, digits38] at h

/-- Each clause in its rule's order: CLEN above CHAR_CAP; length 3; too many bytes; a bad character; a value that does
not fit; and `R6`. -/
theorem witness_B38DecWritesBytesOrRaises :
    (let s := { State.reset with clen := 257 }
     s.cfg.charCap < s.clen.toNat) ∧
    (let s := { State.reset with clen := 3 }
     s.clen.toNat ≤ s.cfg.charCap ∧ (s.clen.toNat % 5 = 1 ∨ s.clen.toNat % 5 = 3)) ∧
    (let s := { State.reset with cfg := { Config.default with byteCap := 11 }, clen := 20 }
     s.clen.toNat ≤ s.cfg.charCap ∧ s.clen.toNat % 5 ≠ 1 ∧ s.clen.toNat % 5 ≠ 3 ∧
       s.cfg.byteCap < b38bytes s.clen.toNat) ∧
    [[0x61#8, 0x30], [0x53, 0x36], [0x52, 0x36]].all (fun l => decide
      (l.length = (withChars l).clen.toNat ∧ Memory.holds (withChars l).chars l ∧
        (withChars l).clen.toNat ≤ (withChars l).cfg.charCap ∧ (withChars l).clen.toNat % 5 ≠ 1 ∧
        (withChars l).clen.toNat % 5 ≠ 3 ∧ b38bytes (withChars l).clen.toNat ≤ (withChars l).cfg.byteCap)) = true ∧
    (∃ c ∈ [0x61#8, 0x30], c ∉ alphabet38) ∧
    ((∀ c ∈ [0x53#8, 0x36], c ∈ alphabet38) ∧ ∀ b, b38enc b ≠ [0x53, 0x36]) ∧ b38enc [0xFF] = [0x52, 0x36] :=
  ⟨by decide, by decide, by decide, by decide, by decide, ⟨by decide, no_bytes_encode_S6⟩, by decide⟩

theorem witness_Base38CommandsRoundTrip :
    (let s := { withBytes (List.replicate 11 0x88) with cfg := { Config.default with byteCap := 11, charCap := 24 } }
     s.cfg.Wf ∧ s.blen.toNat ≤ s.cfg.byteCap ∧ b38len s.blen.toNat ≤ s.cfg.charCap ∧
       Memory.written s.bytes s.blen.toNat) ∧
    (let s := { State.reset with clen := 256 }
     s.clen.toNat ≤ s.cfg.charCap ∧ (s.clen.toNat % 5 = 1 ∨ s.clen.toNat % 5 = 3)) := by decide

/-- `2363` and its alterations, at the first and at the last digit. -/
theorem witness_VerhoeffDetectsErrors :
    (∀ d ∈ [2, 3, 6], d < 10) ∧
    ((∀ d ∈ [2, 3, 6], d < 10) ∧ (∀ d ∈ ([] : List Nat), d < 10) ∧ 3 < 10 ∧ 4 < 10 ∧ 3 ≠ 4 ∧
      vvalid ([2, 3, 6] ++ 3 :: []) = true) ∧
    ((∀ d ∈ ([] : List Nat), d < 10) ∧ (∀ d ∈ [6, 3], d < 10) ∧ 2 < 10 ∧ 3 < 10 ∧ 2 ≠ 3 ∧
      vvalid ([] ++ 2 :: 3 :: [6, 3]) = true) := by decide

/-- The hypotheses of the three VH.* statements: CLEN above CHAR_CAP; `/` and `:`, the codes on either side of the
digits; no digit and the digits 0 and 9. -/
theorem witness_VhComputeGivesTheCheckDigit :
    (let s := { State.reset with clen := 257 }
     s.cfg.charCap < s.clen.toNat) ∧
    [[0x2F#8], [0x30, 0x3A]].all (fun l => decide
      (l.length = (withChars l).clen.toNat ∧ Memory.holds (withChars l).chars l ∧
        (withChars l).clen.toNat ≤ (withChars l).cfg.charCap ∧ ∃ c ∈ l, c.toNat < 0x30 ∨ 0x39 < c.toNat)) = true ∧
    [[], [0, 9]].all (fun ds => decide
      ((∀ d ∈ ds, d < 10) ∧ ds.length = (withDigits ds).clen.toNat ∧
        Memory.holds (withDigits ds).chars (ds.map digitChar) ∧
        (withDigits ds).clen.toNat ≤ (withDigits ds).cfg.charCap)) = true ∧ 0 < 10 ∧ 9 < 10 := by decide

theorem witness_VhValidateGivesValidity :
    (let s := { State.reset with clen := 257 }
     s.cfg.charCap < s.clen.toNat) ∧
    [[0x2F#8], [0x30, 0x3A]].all (fun l => decide
      (l.length = (withChars l).clen.toNat ∧ Memory.holds (withChars l).chars l ∧
        (withChars l).clen.toNat ≤ (withChars l).cfg.charCap ∧ ∃ c ∈ l, c.toNat < 0x30 ∨ 0x39 < c.toNat)) = true ∧
    [[2, 3, 6, 3], [2, 3, 6, 4]].all (fun ds => decide
      ((∀ d ∈ ds, d < 10) ∧ ds.length = (withDigits ds).clen.toNat ∧
        Memory.holds (withDigits ds).chars (ds.map digitChar) ∧
        (withDigits ds).clen.toNat ≤ (withDigits ds).cfg.charCap)) = true := by decide

/-- A state whose CHARS has 24 elements. -/
def smallChars (ds : List Nat) : State := { withDigits ds with cfg := { Config.default with charCap := 24 } }

/-- Besides the shared clauses: CHARS full, and with one element left. -/
theorem witness_VhAppendWritesTheCheckDigit :
    (let s := { State.reset with clen := 257 }
     s.cfg.charCap < s.clen.toNat) ∧
    (let s := withChars [0x30, 0x3A]
     [0x30#8, 0x3A].length = s.clen.toNat ∧ Memory.holds s.chars [0x30, 0x3A] ∧ s.clen.toNat ≤ s.cfg.charCap ∧
       ∃ c ∈ [0x30#8, 0x3A], c.toNat < 0x30 ∨ 0x39 < c.toNat) ∧
    (let ds := List.replicate 24 1
     let s := smallChars ds
     (∀ d ∈ ds, d < 10) ∧ ds.length = s.clen.toNat ∧ Memory.holds s.chars (ds.map digitChar) ∧
       s.clen.toNat = s.cfg.charCap) ∧
    (let ds := List.replicate 23 1
     let s := smallChars ds
     (∀ d ∈ ds, d < 10) ∧ ds.length = s.clen.toNat ∧ Memory.holds s.chars (ds.map digitChar) ∧
       s.clen.toNat < s.cfg.charCap ∧ s.cfg.Wf) := by decide

theorem witness_QrPayloadLayout :
    QrWidthsFit recW ∧ QrWidthsFit ⟨0, 0xFFFF, 0xFFFF, 3, 0xFF, 0xFFF, 0x7FFFFFF, 0xF, false⟩ := by decide

set_option maxRecDepth 10000 in
/-- Each clause in its rule's order, then a record that encodes. -/
theorem witness_EncqrWritesTheQrTextOrRaises :
    ({ recW with version := 1 }.version ≠ 0) ∧
    ({ recW with disc := 4096 }.version = 0 ∧ ¬ QrWidthsFit { recW with disc := 4096 }) ∧
    (let s := { withTlv [] recW with tlvlen := 118 }
     s.record.version = 0 ∧ QrWidthsFit s.record ∧ s.cfg.tlvCap < s.tlvlen.toNat) ∧
    [{ recW with flow := 3 }, { recW with passcode := 100000000 }, { recW with passcode := 0 },
      { recW with padding := 1 }, { recW with flow := 2 }, { recW with discShort := true }].all (fun r => decide
        (r.version = 0 ∧ QrWidthsFit r ∧ (withTlv [] r).tlvlen.toNat ≤ (withTlv [] r).cfg.tlvCap ∧
          QrInvalid (withTlv [] r).cfg r (withTlv [] r).tlvlen.toNat)) = true ∧
    (let s := { withTlv [0, 0] recW with cfg := { Config.default with charCap := 24 } }
     QrEncodable s.cfg s.record s.tlvlen.toNat ∧ s.cfg.charCap < 3 + b38len (11 + s.tlvlen.toNat)) ∧
    (let s := { withTlv [0, 0] recW with cfg := { Config.default with tlvCap := 2, charCap := 25 } }
     [0#8, 0].length = s.tlvlen.toNat ∧ Memory.holds s.tlv [0, 0] ∧
       QrEncodable s.cfg s.record s.tlvlen.toNat ∧ 3 + b38len (11 + s.tlvlen.toNat) ≤ s.cfg.charCap) :=
  ⟨by decide, by decide, by decide, by decide, by decide, by decide⟩

theorem witness_ManualCodeLayout :
    (0 < 10 ∧ 9 < 10) ∧
    (ManualWidthsFit recM ∧ recM.passcode.toNat < 2 ^ 27) ∧
    (let r := { recM with flow := 1, vid := 65535, pid := 65535, disc := 4095, passcode := 0x7FFFFFF }
     ManualWidthsFit r ∧ r.passcode.toNat < 2 ^ 27 ∧ r.flow ≠ 0) := by decide

theorem witness_EncmanWritesTheManualCodeOrRaises :
    ¬ ManualWidthsFit { recM with disc := 4096 } ∧
    (ManualWidthsFit { recM with flow := 3 } ∧ { recM with flow := 3 }.flow = 3) ∧
    (ManualWidthsFit { recM with passcode := 0 } ∧ { recM with passcode := 0 }.flow ≠ 3 ∧
      ¬ PasscodeValid Config.default { recM with passcode := 0 }.passcode.toNat) ∧
    (let r := { recM with flow := 1, vid := 65535, pid := 65535, disc := 4095, passcode := 99999998 }
     ManualWidthsFit r ∧ r.flow ≠ 3 ∧ PasscodeValid Config.default r.passcode.toNat) ∧
    (let r := { recM with flow := 0, disc := 0, passcode := 1 }
     ManualWidthsFit r ∧ r.flow ≠ 3 ∧ PasscodeValid Config.default r.passcode.toNat) := by decide

/-- CLEN above CHAR_CAP; the empty text, 10 digits, and 11 characters that are not all digits. -/
theorem witness_ParseRejectsOtherShapes :
    (let s := { State.reset with clen := 257 }
     s.cfg.charCap < s.clen.toNat) ∧
    [[], (codeM.take 10).map digitChar, (codeM.take 10).map digitChar ++ [0x41]].all (fun l => decide
      (l.length = (withChars l).clen.toNat ∧ Memory.holds (withChars l).chars l ∧
        (withChars l).clen.toNat ≤ (withChars l).cfg.charCap ∧ l.take 3 ≠ [0x4D, 0x54, 0x3A] ∧
        ((l.length ≠ 11 ∧ l.length ≠ 21) ∨ ∃ c ∈ l, c.toNat < 0x30 ∨ 0x39 < c.toNat))) = true := by decide

/-- The Base38 text of W1's bytes with its first and last changed, and `n` bytes of 0 after them. -/
def qrBytesW (b0 b4 b10 : Byte) (n : Nat) : List Byte :=
  [b0, 0xFF, 0x07, 0x00, b4, 0x80, 0x8D, 0xAC, 0x60, 0x46, b10] ++ List.replicate n 0

/-- A text `MT:` and the Base38 form of bytes meets the hypotheses of the QR clauses, with TLV_CAP = `cap`. -/
def holdsQr (cap : Nat) (b : List Byte) : Bool :=
  let s := { withChars (qrMarker ++ b38enc b) with cfg := { Config.default with tlvCap := cap } }
  decide (3 + (b38enc b).length = s.clen.toNat ∧ Memory.holds s.chars ([0x4D, 0x54, 0x3A] ++ b38enc b) ∧
    s.clen.toNat ≤ s.cfg.charCap ∧ b38dec (b38enc b) = .ok b)

set_option maxRecDepth 10000 in
/-- The first error clause (PC-P13); then the others in order: 10 bytes, one TLV byte with TLV_CAP = 0, version 1, flow 3, flow 2 with no
TLV, nonzero padding under STRICT; then W1, and nonzero padding without STRICT. -/
theorem witness_ParseReadsTheQrForm :
    (let u := [0x59#8, 0x2E, 0x4B, 0x39]
     let s := withChars ([0x4D, 0x54, 0x3A] ++ u)
     3 + u.length = s.clen.toNat ∧ Memory.holds s.chars ([0x4D, 0x54, 0x3A] ++ u) ∧ s.clen.toNat ≤ s.cfg.charCap ∧
       b38dec u = .error (.raise .invalidEncoding)) ∧
    (let b := List.replicate 10 0#8
     holdsQr 117 b = true ∧ b.length < 11) ∧
    (let b := qrBytesW 0x88 0x84 0x08 1
     holdsQr 0 b = true ∧ 11 ≤ b.length ∧ 0 < b.length - 11) ∧
    (let b := qrBytesW 0x89 0x84 0x08 0
     holdsQr 117 b = true ∧ 11 ≤ b.length ∧ b.length - 11 ≤ Config.default.tlvCap ∧ fieldAt (bitImage b) 0 3 ≠ 0) ∧
    (let b := qrBytesW 0x88 0x9C 0x08 0
     holdsQr 117 b = true ∧ 11 ≤ b.length ∧ b.length - 11 ≤ 117 ∧ fieldAt (bitImage b) 0 3 = 0 ∧ fieldAt (bitImage b) 35 2 = 3) ∧
    (let b := qrBytesW 0x88 0x94 0x08 0
     holdsQr 117 b = true ∧ 11 ≤ b.length ∧ b.length - 11 ≤ 117 ∧ fieldAt (bitImage b) 0 3 = 0 ∧ fieldAt (bitImage b) 35 2 = 2 ∧ b.length = 11) ∧
    (let b := qrBytesW 0x88 0x84 0x58 0
     holdsQr 117 b = true ∧ 11 ≤ b.length ∧ b.length - 11 ≤ 117 ∧ fieldAt (bitImage b) 0 3 = 0 ∧ fieldAt (bitImage b) 84 4 ≠ 0) ∧
    (let b := qrBytesW 0x88 0x84 0x08 0
     holdsQr 117 b = true ∧ 11 ≤ b.length ∧ b.length - 11 ≤ Config.default.tlvCap ∧ fieldAt (bitImage b) 0 3 = 0 ∧
       fieldAt (bitImage b) 35 2 ≠ 3 ∧ PasscodeValid Config.default (fieldAt (bitImage b) 57 27) ∧
       (fieldAt (bitImage b) 35 2 = 2 → b.length ≠ 11) ∧ fieldAt (bitImage b) 84 4 = 0) := by decide

/-- What every clause of `ParseReadsTheManualForm` asks of the digits. -/
def holdsManual (ds : List Nat) : Bool :=
  let s := withDigits ds
  decide ((∀ d ∈ ds, d < 10) ∧ ds.length = s.clen.toNat ∧ (ds.length = 11 ∨ ds.length = 21) ∧
    Memory.holds s.chars (ds.map digitChar) ∧ s.clen.toNat ≤ s.cfg.charCap)

/-- PC-P4, PC-P26, PC-P32, PC-P27, PC-P31, PC-P28, PC-P1 and PC-P2. -/
theorem witness_ParseReadsTheManualForm :
    (let ds := [3, 4, 9, 7, 0, 1, 1, 2, 3, 3, 3]
     holdsManual ds = true ∧ vvalid ds = false) ∧
    (let ds := [8, 0, 0, 0, 0, 1, 0, 0, 0, 0, 4]
     holdsManual ds = true ∧ vvalid ds = true ∧ ¬ num ((ds.drop 0).take 1) ≤ 7) ∧
    (let ds := [7, 4, 9, 7, 0, 1, 1, 2, 3, 3, 7, 0, 0, 0, 0, 3, 2, 7, 6, 8, 1]
     holdsManual ds = true ∧ vvalid ds = true ∧ ds.length = 21 ∧ ¬ num ((ds.drop 10).take 5) ≤ 65535) ∧
    (let ds := [4, 0, 0, 0, 0, 1, 0, 0, 0, 0, 9]
     holdsManual ds = true ∧ vvalid ds = true ∧ num ((ds.drop 0).take 1) ≤ 7 ∧ num ((ds.drop 1).take 5) ≤ 65535 ∧
       num ((ds.drop 6).take 4) ≤ 8191 ∧ ¬ num ((ds.drop 0).take 1) / 4 = 0) ∧
    (let ds := [0, 0, 0, 0, 0, 0, 0, 0, 0, 0, 5]
     holdsManual ds = true ∧ vvalid ds = true ∧ num ((ds.drop 0).take 1) / 4 = 0 ∧
       ¬ PasscodeValid Config.default
          (num ((ds.drop 6).take 4) * 2 ^ 14 + num ((ds.drop 1).take 5) % 2 ^ 14)) ∧
    (let ds := codeM
     holdsManual ds = true ∧ vvalid ds = true ∧ num ((ds.drop 0).take 1) ≤ 7 ∧ num ((ds.drop 1).take 5) ≤ 65535 ∧
       num ((ds.drop 6).take 4) ≤ 8191 ∧ num ((ds.drop 0).take 1) / 4 = 0 ∧
       PasscodeValid Config.default
          (num ((ds.drop 6).take 4) * 2 ^ 14 + num ((ds.drop 1).take 5) % 2 ^ 14)) ∧
    (let ds := [7, 5, 7, 5, 9, 8, 6, 1, 0, 3, 6, 5, 5, 3, 5, 6, 5, 5, 3, 5, 1]
     holdsManual ds = true ∧ vvalid ds = true ∧ num ((ds.drop 0).take 1) ≤ 7 ∧ num ((ds.drop 1).take 5) ≤ 65535 ∧
       num ((ds.drop 6).take 4) ≤ 8191 ∧ num ((ds.drop 10).take 5) ≤ 65535 ∧ num ((ds.drop 15).take 5) ≤ 65535 ∧
       num ((ds.drop 0).take 1) / 4 = 1 ∧
       PasscodeValid Config.default
          (num ((ds.drop 6).take 4) * 2 ^ 14 + num ((ds.drop 1).take 5) % 2 ^ 14)) := by decide

theorem witness_QrFormRoundTrips :
    (withTlv [0x15, 0x30] { recW with flow := 2 }).cfg.Wf ∧
    ∃ s1, exec .pcEncqr (withTlv [0x15, 0x30] { recW with flow := 2 }) = .next s1 ∧
      decide (s1.err = .none) = true :=
  ⟨by decide, next_of (by decide)⟩

/-- A short and a long code. -/
theorem witness_ManualFormRoundTrips :
    (withTlv [] recM).cfg.Wf ∧
    (∃ s1, exec .pcEncman (withTlv [] recM) = .next s1 ∧ decide (s1.err = .none ∧ s1.clen = 11) = true) ∧
    ∃ s1, exec .pcEncman (withTlv [] { recW with flow := 2 }) = .next s1 ∧
      decide (s1.err = .none ∧ s1.clen = 21) = true :=
  ⟨by decide, next_of (by decide), next_of (by decide)⟩

theorem witness_ParsedQrTextReencodes :
    (withChars textW).cfg.Wf ∧
    ∃ t, exec (.pcParse true) (withChars textW) = .next t ∧
      decide (t.err = .none ∧ t.record.discShort = false ∧ t.record.padding = 0) = true :=
  ⟨by decide, next_of (by decide)⟩

/-- The first and the last digit of `34970112332` altered (W2). -/
theorem witness_AlteredManualCodeIsRejected :
    (withTlv [] recM).cfg.Wf ∧
    ∃ s1, exec .pcEncman (withTlv [] recM) = .next s1 ∧
      decide (s1.err = .none ∧
        (0 < s1.clen.toNat ∧ 0 < 10 ∧ s1.chars.read 0 ≠ some (digitChar 0)) ∧
        (10 < s1.clen.toNat ∧ 9 < 10 ∧ s1.chars.read 10 ≠ some (digitChar 9))) = true :=
  ⟨by decide, next_of (by decide)⟩

end Sys2Proof.Tests
end

/-! SUPPORT. The register map and the buffers at reset (10_state.md R50). -/

namespace Sys2Proof.Machine

/-- The derived views and REC_HAS_TLV read 0 too, not only the stored registers. -/
theorem readReg_reset (r : Reg) : readReg State.reset r = 0 := by cases r <;> rfl

theorem mem_reset (space : Space) : State.reset.mem space = [] := by cases space <;> rfl

/-- A number that names no register reads 0 in every state (R46). -/
theorem regRead_reset (n : RegNum) : regRead State.reset n = 0 := by
  unfold regRead
  split
  · exact readReg_reset _
  · rfl

/-- Settles O8: the registers by the cases of the register map, the buffers by the three spaces. -/
theorem resetReadsZero : Obligations.ResetReadsZero :=
  ⟨regRead_reset, rfl, rfl, rfl, fun space i => by rw [mem_reset]; rfl, rfl⟩

theorem config_default_wf : Config.default.Wf := by decide

/-- With legal parameters, empty buffers and an empty stream meet the invariant. -/
theorem inv_of_empty {s : State} (hcfg : s.cfg.Wf) (hbytes : s.bytes = []) (hchars : s.chars = []) (htlv : s.tlv = [])
    (hstream : s.stream = []) (hrpos : s.rpos = 0) : s.Inv := by
  have hempty (cap : Nat) : Memory.wf [] ∧ Memory.within cap [] := ⟨Memory.wf_nil, Memory.within_nil cap⟩
  rw [State.Inv, hbytes, hchars, htlv, hstream, hrpos]
  exact ⟨hcfg, hempty _, hempty _, hempty _, Nat.zero_le _, Nat.zero_le _⟩

/-- Settles O10: R9's defaults are legal, and every buffer and the stream are empty. -/
theorem resetMeetsTheInvariant : Obligations.ResetMeetsTheInvariant :=
  inv_of_empty config_default_wf rfl rfl rfl rfl rfl

end Sys2Proof.Machine

/-! SUPPORT. How many elements each command's result has: Base38 (41_base38.md R134), the QR text (43_payload.md
R172, R173) and the manual code (R177). -/

namespace Sys2Proof.Machine

theorem b38len_add_three (n : Nat) : b38len (n + 3) = b38len n + 5 := by
  have hd : (n + 3) / 3 = n / 3 + 1 := by omega
  have hm : (n + 3) % 3 = n % 3 := by omega
  rw [b38len, b38len, hd, hm]
  omega

theorem b38bytes_add_five (l : Nat) : b38bytes (l + 5) = b38bytes l + 3 := by
  have hd : (l + 5) / 5 = l / 5 + 1 := by omega
  have hm : (l + 5) % 5 = l % 5 := by omega
  rw [b38bytes, b38bytes, hd, hm]
  omega

@[simp] theorem length_b38enc (l : List Byte) : (b38enc l).length = b38len l.length := by
  induction l using b38enc.induct with
  | case1 => rfl
  | case2 b0 => simp [b38enc, b38len]
  | case3 b0 b1 => simp [b38enc, b38len]
  | case4 b0 b1 b2 rest ih =>
    simp only [b38enc, List.length_append, length_digits38, ih, List.length_cons]
    rw [b38len_add_three, Nat.add_comm]

theorem decodeGroup_length {cs b : List Byte} {n : Nat} (h : decodeGroup cs n = .ok b) : b.length = n := by
  rw [decodeGroup_cases] at h
  obtain ⟨-, hb⟩ := raiseIf_ok h
  cases hb
  exact length_bytesOf _ _

theorem decodeGroups_length {t b : List Byte} (h : decodeGroups t = .ok b) : b.length = b38bytes t.length := by
  induction t using decodeGroups.induct generalizing b with
  | case1 => cases h; rfl
  | case2 c0 => cases h
  | case3 c0 c1 => rw [decodeGroups] at h; simp [decodeGroup_length h, b38bytes]
  | case4 c0 c1 c2 => cases h
  | case5 c0 c1 c2 c3 => rw [decodeGroups] at h; simp [decodeGroup_length h, b38bytes]
  | case6 c0 c1 c2 c3 c4 rest ih =>
    rw [decodeGroups] at h
    obtain ⟨g, hg, h⟩ := bind_ok h
    obtain ⟨gs, hgs, h⟩ := bind_ok h
    cases h
    simp only [List.length_append, decodeGroup_length hg, ih hgs, List.length_cons]
    rw [b38bytes_add_five, Nat.add_comm]

/-- The length of what a text decodes to depends on the text's length alone (R134). -/
theorem b38dec_length {t b : List Byte} (h : b38dec t = .ok b) : b.length = b38bytes t.length := by
  simp only [b38dec, raiseIf_bind] at h
  obtain ⟨-, h⟩ := raiseIf_ok h
  obtain ⟨-, h⟩ := raiseIf_ok h
  exact decodeGroups_length h

@[simp] theorem length_headerBits (r : Record) : (headerBits r).length = 88 := by simp [headerBits]

@[simp] theorem length_qrBytes (r : Record) (tlv : List Byte) : (qrBytes r tlv).length = 11 + tlv.length := by
  simp [qrBytes]

@[simp] theorem length_qrText (r : Record) (tlv : List Byte) :
    (qrText r tlv).length = 3 + b38len (11 + tlv.length) := by
  simp only [qrText, qrMarker, List.length_append, length_b38enc, length_qrBytes, List.length_cons,
    List.length_nil]

theorem longForm_of_ne {r : Record} (h : r.flow ≠ 0) : longForm r = true := decide_eq_true h

theorem longForm_of_eq {r : Record} (h : r.flow = 0) : longForm r = false := decide_eq_false (not_not.2 h)

theorem length_manualBody (r : Record) : (manualBody r).length = if r.flow = 0 then 10 else 20 := by
  by_cases hf : r.flow = 0
  · rw [if_pos hf]
    simp [manualBody, longForm_of_eq hf]
  · rw [if_neg hf]
    simp [manualBody, longForm_of_ne hf]

/-- A manual code has 11 or 21 digits (R177). -/
@[simp] theorem length_manualText (r : Record) : (manualText r).length = if r.flow = 0 then 11 else 21 := by
  rw [manualText, List.length_map, List.length_append, length_manualBody, List.length_singleton]
  split <;> rfl

end Sys2Proof.Machine

/-! SUPPORT. The invariant of the block's state over a step: every command by its inversion lemma
(Sys2Proof/Laws/Commands.lean), every other host access by what it writes. -/

namespace Sys2Proof.Machine

section
variable {s t : State}

theorem State.Inv.rpos_le (h : s.Inv) : s.rpos ≤ s.stream.length := h.2.2.2.2.2

theorem State.Inv.charCap_ge (h : s.Inv) : 24 ≤ s.cfg.charCap := by
  obtain ⟨⟨-, -, ⟨hc, -⟩, -⟩, -⟩ := h
  exact hc

/-- The shape of every inversion lemma of a command: an error leaves the invariant alone (R223), so only a
success is left to show. -/
theorem inv_of_error_or {P : Prop} (h : s.Inv) (hn : (∃ e, e ≠ .none ∧ t = s.setErr e) ∨ P)
    (hp : P → t.Inv) : t.Inv := by
  obtain ⟨e, -, rfl⟩ | hP := hn
  · exact inv_setErr h e
  · exact hp hP

theorem inv_execBbClear (h : s.Inv) (hx : execBbClear s = .next t) : t.Inv := by
  rw [execBbClear_next hx]
  have h0 : (s.setRpos 0).Inv := inv_setRpos h (Nat.zero_le _)
  exact inv_setStream h0 (Nat.zero_le _) (Nat.zero_le _)

theorem inv_execBbWrbits {w : Nat} (h : s.Inv) (hx : execBbWrbits w s = .next t) : t.Inv := by
  refine inv_of_error_or h (execBbWrbits_next hx) ?_
  rintro ⟨-, -, -, hcap, rfl⟩
  have hr := h.rpos_le
  exact inv_setErr (inv_setStream h (by simpa using hcap) (by simp; omega)) .none

theorem inv_execBbRdbits {w : Nat} (h : s.Inv) (hx : execBbRdbits w s = .next t) : t.Inv := by
  refine inv_of_error_or h (execBbRdbits_next hx) ?_
  rintro ⟨-, -, hlen, rfl⟩
  exact inv_setErr (inv_setRpos (inv_setRes0 h _) hlen) .none

theorem inv_execBbAppend (h : s.Inv) (hx : execBbAppend s = .next t) : t.Inv := by
  refine inv_of_error_or h (execBbAppend_next hx) ?_
  rintro ⟨l, hl, -, -, -, hcap, rfl⟩
  have hr := h.rpos_le
  exact inv_setErr (inv_setStream h (by simpa [hl] using hcap) (by simp; omega)) .none

theorem inv_execBbRdbytes (h : s.Inv) (hx : execBbRdbytes s = .next t) : t.Inv := by
  refine inv_of_error_or h (execBbRdbytes_next hx) ?_
  rintro ⟨hcap, -, hlen, rfl⟩
  have hr : s.rpos + 8 * s.arg0.toNat ≤ s.stream.length := by
    have := h.rpos_le
    omega
  exact inv_setErr (inv_setRpos (inv_storeBytes h _ (by simpa using hcap)) hr) .none

theorem inv_execBbTobytes (h : s.Inv) (hx : execBbTobytes s = .next t) : t.Inv := by
  refine inv_of_error_or h (execBbTobytes_next hx) ?_
  rintro ⟨hcap, rfl⟩
  exact inv_setErr (inv_storeBytes h _ (by simpa using hcap)) .none

theorem inv_execB38Enc (h : s.Inv) (hx : execB38Enc s = .next t) : t.Inv := by
  refine inv_of_error_or h (execB38Enc_next hx) ?_
  rintro ⟨l, hl, -, -, hcap, rfl⟩
  exact inv_setErr (inv_storeChars h _ (by simpa [hl] using hcap)) .none

theorem inv_execB38Dec (h : s.Inv) (hx : execB38Dec s = .next t) : t.Inv := by
  refine inv_of_error_or h (execB38Dec_next hx) ?_
  rintro ⟨text, b, hl, -, -, hcap, hb, rfl⟩
  have hlen : b.length ≤ s.cfg.byteCap := by rwa [b38dec_length hb, hl]
  exact inv_setErr (inv_storeBytes h _ hlen) .none

theorem inv_execVhCompute (h : s.Inv) (hx : execVhCompute s = .next t) : t.Inv := by
  refine inv_of_error_or h (execVhCompute_next hx) ?_
  rintro ⟨ds, -, rfl⟩
  exact inv_setErr (inv_setRes0 h _) .none

theorem inv_execVhValidate (h : s.Inv) (hx : execVhValidate s = .next t) : t.Inv := by
  refine inv_of_error_or h (execVhValidate_next hx) ?_
  rintro ⟨ds, -, rfl⟩
  exact inv_setErr (inv_setRes0 h _) .none

theorem inv_execVhAppend (h : s.Inv) (hx : execVhAppend s = .next t) : t.Inv := by
  refine inv_of_error_or h (execVhAppend_next hx) ?_
  rintro ⟨ds, -, hcap, rfl⟩
  exact inv_setErr (inv_setRes0 (inv_setClen (inv_write_chars h hcap _) _) _) .none

theorem inv_execPcEncqr (h : s.Inv) (hx : execPcEncqr s = .next t) : t.Inv := by
  refine inv_of_error_or h (execPcEncqr_next hx) ?_
  rintro ⟨l, hl, -, -, -, -, -, -, -, -, -, hcap, rfl⟩
  exact inv_setErr (inv_storeChars h _ (by simpa [hl] using hcap)) .none

/-- PC.ENCMAN checks no capacity (R178): a code fits because R9 gives CHARS at least 24 elements. -/
theorem inv_execPcEncman (h : s.Inv) (hx : execPcEncman s = .next t) : t.Inv := by
  refine inv_of_error_or h (execPcEncman_next hx) ?_
  rintro ⟨-, -, -, -, -, rfl⟩
  have hlen : (manualText s.record).length ≤ s.cfg.charCap := by
    have := h.charCap_ge
    rw [length_manualText]
    split <;> omega
  exact inv_setErr (inv_storeChars h _ hlen) .none

theorem inv_qrParse {strict : Bool} {u : List Byte} (h : s.Inv) (hx : qrParse strict u s = .ok t) : t.Inv := by
  obtain ⟨b, -, -, hcap, -, -, -, -, -, rfl⟩ := qrParse_ok hx
  exact inv_storeTlv (inv_setRecord h _) _ (by simpa using hcap)

theorem inv_manualParse {ds : List Nat} (h : s.Inv) (hx : manualParse ds s = .ok t) : t.Inv := by
  obtain ⟨r, -, -, rfl⟩ := manualParse_ok hx
  exact inv_setTlvlen (inv_setRecord h r) 0

theorem inv_execPcParse {strict : Bool} (h : s.Inv) (hx : execPcParse strict s = .next t) : t.Inv := by
  refine inv_of_error_or h (execPcParse_next hx) ?_
  rintro ⟨text, s', -, -, -, ⟨-, hq⟩ | ⟨-, -, hm⟩, rfl⟩
  · exact inv_setErr (inv_qrParse h hq) .none
  · exact inv_setErr (inv_manualParse h hm) .none

theorem exec_keeps_inv {i : Instr} (h : s.Inv) (hx : exec i s = .next t) : t.Inv := by
  cases i with
  | bbClear => exact inv_execBbClear h hx
  | bbWrbits width => exact inv_execBbWrbits h hx
  | bbRdbits width => exact inv_execBbRdbits h hx
  | bbAppend => exact inv_execBbAppend h hx
  | bbRdbytes => exact inv_execBbRdbytes h hx
  | bbTobytes => exact inv_execBbTobytes h hx
  | b38Enc => exact inv_execB38Enc h hx
  | b38Dec => exact inv_execB38Dec h hx
  | vhCompute => exact inv_execVhCompute h hx
  | vhValidate => exact inv_execVhValidate h hx
  | vhAppend => exact inv_execVhAppend h hx
  | pcEncqr => exact inv_execPcEncqr h hx
  | pcEncman => exact inv_execPcEncman h hx
  | pcParse strict => exact inv_execPcParse h hx

/-- A rejected command word is an error like any other: STATUS.ERR alone changes (R86). -/
theorem rejectCommand_eq (e : DecodeError) (s : State) :
    rejectCommand e s = .next (s.setErr .illegalCommand) := by
  cases e
  rfl

theorem inv_resetBlock (h : s.Inv) : (resetBlock s).Inv := by
  obtain ⟨hcfg, -⟩ := h
  exact inv_of_empty hcfg rfl rfl rfl rfl rfl

theorem performAccess_keeps_inv {a : HostAccess} (h : s.Inv) (hx : performAccess a s = .next t) : t.Inv := by
  cases a with
  | regRead n => cases hx; exact inv_respond h _
  | regWrite n v => cases hx; exact inv_regWrite h n v
  | bufRead space i =>
    rw [performAccess] at hx
    split at hx
    · cases hx; exact inv_respond h _
    · cases hx
  | bufWrite space i v => cases hx; exact inv_bufWrite h space i v
  | reset => cases hx; exact inv_resetBlock h

/-- What a step that answers a next state can be, with the access it performs taken off the list. -/
theorem step_next (hx : step s = .next t) :
    t = s ∨
    (∃ w i rest, decode w = .ok i ∧ exec i (s.setHost rest) = .next t) ∨
    (∃ rest, t = (s.setHost rest).setErr .illegalCommand) ∨
    (∃ a rest, performAccess a (s.setHost rest) = .next t) := by
  rw [step] at hx
  rcases fetch_cases s with ⟨-, hf⟩ | ⟨w, rest, -, hf⟩ | ⟨a, rest, -, -, hf⟩ <;> rw [hf] at hx
  · cases hx; exact .inl rfl
  · cases hd : decode w with
    | ok i => simp only [hd] at hx; exact .inr (.inl ⟨w, i, rest, hd, hx⟩)
    | error e =>
      simp only [hd, rejectCommand_eq] at hx
      cases hx
      exact .inr (.inr (.inl ⟨rest, rfl⟩))
  · exact .inr (.inr (.inr ⟨a, rest, hx⟩))

end

/-- Settles O11, by the cases of a step: a wait, a command, an illegal word, another access. -/
theorem stepKeepsTheInvariant : Obligations.StepKeepsTheInvariant := by
  intro s t h hx
  rcases step_next hx with rfl | ⟨w, i, rest, -, hi⟩ | ⟨rest, rfl⟩ | ⟨a, rest, ha⟩
  · exact h
  · exact exec_keeps_inv (inv_setHost h rest) hi
  · exact inv_setErr (inv_setHost h rest) .illegalCommand
  · exact performAccess_keeps_inv (inv_setHost h rest) ha

end Sys2Proof.Machine

/-! SUPPORT. The digits of a manual code: the Verhoeff check digit validates its sequence (42_verhoeff.md R153 to
R155), and each group is read back at its place (43_payload.md R176, R177). -/

namespace Sys2Proof.Machine

theorem vMul_assoc {a b c : Nat} (ha : a < 10) (hb : b < 10) (hc : c < 10) :
    vMul (vMul a b) c = vMul a (vMul b c) := by
  have key : ∀ a b c : Fin 10, vMul (vMul a b) c = vMul a (vMul b c) := by decide
  exact key ⟨a, ha⟩ ⟨b, hb⟩ ⟨c, hc⟩

theorem vMul_zero {a : Nat} (ha : a < 10) : vMul a 0 = a := by
  have key : ∀ a : Fin 10, vMul a 0 = a := by decide
  exact key ⟨a, ha⟩

theorem vMul_vInv {c : Nat} (hc : c < 10) : vMul (vInv c) c = 0 := by
  have key : ∀ c : Fin 10, vMul (vInv c) c = 0 := by decide
  exact key ⟨c, hc⟩

theorem vMul_vPerm_zero {k : Nat} (hk : k < 10) : vMul 0 (vPerm 0 k) = k := by
  have key : ∀ k : Fin 10, vMul 0 (vPerm 0 k) = k := by decide
  exact key ⟨k, hk⟩

/-- The accumulator multiplies on the right, so a factor on the left of its start comes out. -/
theorem vaccFrom_vMul (ds : List Nat) (i : Nat) {a c : Nat} (hd : ∀ d ∈ ds, d < 10) (ha : a < 10) (hc : c < 10) :
    vaccFrom ds i (vMul a c) = vMul a (vaccFrom ds i c) := by
  induction ds generalizing i c with
  | nil => rfl
  | cons d ds ih =>
    have hp : vPerm (i % 8) d < 10 := vPerm_lt (Nat.mod_lt i (by omega)) (hd d (by simp))
    rw [vaccFrom, vaccFrom, vMul_assoc ha hc hp]
    exact ih (i + 1) (fun x hx => hd x (by simp [hx])) (vMul_lt hc hp)

/-- A last digit multiplies the accumulator of the digits before it on the left. -/
theorem vacc_append_digit {ds : List Nat} {k : Nat} (hd : ∀ d ∈ ds, d < 10) (hk : k < 10) :
    vacc (ds ++ [k]) 0 = vMul k (vacc ds 1) := by
  have hr : ∀ d ∈ ds.reverse, d < 10 := fun d h => hd d (List.mem_reverse.1 h)
  calc vacc (ds ++ [k]) 0
      = vaccFrom ds.reverse 1 (vMul 0 (vPerm 0 k)) := vacc_append_single ds k 0
    _ = vaccFrom ds.reverse 1 (vMul k 0) := by rw [vMul_vPerm_zero hk, vMul_zero hk]
    _ = vMul k (vacc ds 1) := vaccFrom_vMul _ 1 hr hk (by omega)

/-- Digits followed by their check digit are valid (R154, R155). -/
theorem vvalid_append_vcheck {ds : List Nat} (hd : ∀ d ∈ ds, d < 10) : vvalid (ds ++ [vcheck ds]) = true := by
  rw [vvalid, vacc_append_digit hd (vcheck_lt hd), vcheck, vMul_vInv (vacc_lt hd 1)]
  rfl

/-- The digits of a manual code, the check digit last (R177): `manualText` is their characters. -/
def manualDigits (r : Record) : List Nat := manualBody r ++ [vcheck (manualBody r)]

theorem manualText_eq (r : Record) : manualText r = (manualDigits r).map digitChar := rfl

theorem manualBody_lt (r : Record) : ∀ d ∈ manualBody r, d < 10 := by
  intro d hd
  simp only [manualBody, List.mem_append] at hd
  rcases hd with ((hd | hd) | hd) | hd
  · exact decDigits_lt _ _ d hd
  · exact decDigits_lt _ _ d hd
  · exact decDigits_lt _ _ d hd
  · split at hd
    · rcases List.mem_append.1 hd with hd | hd <;> exact decDigits_lt _ _ d hd
    · cases hd

theorem manualDigits_lt (r : Record) : ∀ d ∈ manualDigits r, d < 10 := by
  intro d hd
  rcases List.mem_append.1 hd with hd | hd
  · exact manualBody_lt r d hd
  · rw [List.mem_singleton.1 hd]
    exact vcheck_lt (manualBody_lt r)

theorem length_manualDigits (r : Record) : (manualDigits r).length = if r.flow = 0 then 11 else 21 := by
  rw [← length_manualText, manualText_eq, List.length_map]

theorem vvalid_manualDigits (r : Record) : vvalid (manualDigits r) = true := vvalid_append_vcheck (manualBody_lt r)

/-- A decimal group inside a digit sequence is read back at its place. -/
theorem num_take_drop_decDigits {ds a rest : List Nat} {v n i : Nat} (hds : ds = a ++ (decDigits v n ++ rest))
    (hi : a.length = i) (hv : v < 10 ^ n) : num ((ds.drop i).take n) = v := by
  rw [hds, List.drop_left' hi, List.take_left' (length_decDigits v n), num_decDigits v n hv]

section
variable {r : Record}

theorem manualC1_eq (hd : r.disc.toNat < 2 ^ 12) :
    manualC1 r = (if r.flow = 0 then 0 else 4) + r.disc.toNat / 2 ^ 10 := by
  have hs : shortDisc r / 4 = r.disc.toNat / 2 ^ 10 := by rw [shortDisc]; omega
  by_cases hf : r.flow = 0
  · rw [manualC1, longForm_of_eq hf, hs, if_pos hf]
    simp
  · rw [manualC1, longForm_of_ne hf, hs, if_neg hf]
    simp

theorem manualC2_eq : manualC2 r = r.disc.toNat / 2 ^ 8 % 4 * 2 ^ 14 + r.passcode.toNat % 2 ^ 14 := by
  have hs : shortDisc r % 4 = r.disc.toNat / 2 ^ 8 % 4 := by rw [shortDisc]; omega
  rw [manualC2, hs]

theorem manualC3_eq (hp : r.passcode.toNat < 2 ^ 27) : manualC3 r = r.passcode.toNat / 2 ^ 14 := by
  rw [manualC3]
  omega

/-- Group c1 has one digit in every record: its value is at most 7 (R176). -/
theorem num_manualDigits_c1 : num (((manualDigits r).drop 0).take 1) = manualC1 r := by
  refine num_take_drop_decDigits (a := []) (by simp only [manualDigits, manualBody, List.append_assoc]; rfl) rfl ?_
  have hs : shortDisc r < 16 := by rw [shortDisc]; omega
  have hl := Bool.toNat_le (longForm r)
  rw [manualC1]
  omega

/-- Group c2 has five digits in every record: its value is at most 65535 (R176). -/
theorem num_manualDigits_c2 : num (((manualDigits r).drop 1).take 5) = manualC2 r := by
  refine num_take_drop_decDigits (a := decDigits (manualC1 r) 1)
    (by simp only [manualDigits, manualBody, List.append_assoc]; rfl) (by simp) ?_
  rw [manualC2]
  omega

/-- Group c3 has four digits in every record: its value is at most 8191 (R176). -/
theorem num_manualDigits_c3 : num (((manualDigits r).drop 6).take 4) = manualC3 r := by
  refine num_take_drop_decDigits (a := decDigits (manualC1 r) 1 ++ decDigits (manualC2 r) 5)
    (by simp only [manualDigits, manualBody, List.append_assoc]; rfl) (by simp) ?_
  rw [manualC3]
  omega

theorem num_manualDigits_vid (hf : r.flow ≠ 0) (hv : r.vid.toNat < 2 ^ 16) :
    num (((manualDigits r).drop 10).take 5) = r.vid.toNat := by
  refine num_take_drop_decDigits
    (a := decDigits (manualC1 r) 1 ++ decDigits (manualC2 r) 5 ++ decDigits (manualC3 r) 4)
    (by simp only [manualDigits, manualBody, longForm_of_ne hf, if_true, List.append_assoc]; rfl) (by simp) ?_
  omega

theorem num_manualDigits_pid (hf : r.flow ≠ 0) (hp : r.pid.toNat < 2 ^ 16) :
    num (((manualDigits r).drop 15).take 5) = r.pid.toNat := by
  refine num_take_drop_decDigits
    (a := decDigits (manualC1 r) 1 ++ decDigits (manualC2 r) 5 ++ decDigits (manualC3 r) 4 ++
      decDigits r.vid.toNat 5)
    (by simp only [manualDigits, manualBody, longForm_of_ne hf, if_true, List.append_assoc]; rfl) (by simp) ?_
  omega

end

/-- Settles O50: the digits are `manualDigits`, each group read back at its place. -/
theorem manualCodeLayout : Obligations.ManualCodeLayout := by
  refine ⟨fun d hd => toNat_digitChar hd, ?_⟩
  rintro r ⟨-, hdisc, hlong⟩ hpass
  refine ⟨manualDigits r, manualText_eq r, manualDigits_lt r, length_manualDigits r, vvalid_manualDigits r,
    ?_, ?_, ?_, ?_⟩
  · rw [num_manualDigits_c1, manualC1_eq hdisc]
  · rw [num_manualDigits_c2, manualC2_eq]
  · rw [num_manualDigits_c3, manualC3_eq hpass]
  · intro hf
    obtain ⟨hvid, hpid⟩ := hlong hf
    exact ⟨num_manualDigits_vid hf hvid, num_manualDigits_pid hf hpid⟩

end Sys2Proof.Machine

/-! SUPPORT. The host's accesses as steps, and the register map: what every number reads, and where a write shows
(10_state.md R21 to R46; 20_memory.md R64). -/

namespace Sys2Proof.Machine

section
variable {s : State} {rest : List HostAccess}

theorem fetch_access {a : HostAccess} (h : s.host = a :: rest) (ha : ∀ w, a ≠ .regWrite Reg.cmd.number w) :
    fetch s = .access a (s.setHost rest) := by
  rcases fetch_cases s with ⟨h0, -⟩ | ⟨w, rest', hw, -⟩ | ⟨a', rest', ha', -, hf⟩
  · rw [h] at h0
    cases h0
  · rw [h] at hw
    cases hw
    exact absurd rfl (ha w)
  · rw [h] at ha'
    cases ha'
    exact hf

/-- An access that is not a write to CMD is performed with itself taken off the list (R64, R66). -/
theorem step_performs {a : HostAccess} (h : s.host = a :: rest) (ha : ∀ w, a ≠ .regWrite Reg.cmd.number w) :
    step s = performAccess a (s.setHost rest) :=
  step_access (fetch_access h ha)

theorem step_command {w : Word} {i : Instr} (h : s.host = .regWrite Reg.cmd.number w :: rest)
    (hd : decode w = .ok i) : step s = exec i (s.setHost rest) := by
  simp only [step, fetch_command h, hd]

theorem step_regRead {n : RegNum} (h : s.host = .regRead n :: rest) :
    step s = .next (respond (s.setHost rest) (.reg (regRead (s.setHost rest) n))) :=
  step_performs h (fun _ => nofun)

theorem step_regWrite {n : RegNum} {v : Word} (hn : n ≠ Reg.cmd.number) (h : s.host = .regWrite n v :: rest) :
    step s = .next (regWrite (s.setHost rest) n v) := by
  refine step_performs h (fun w hw => ?_)
  cases hw
  exact hn rfl

theorem step_reset (h : s.host = .reset :: rest) : step s = .next (resetBlock (s.setHost rest)) :=
  step_performs h (fun _ => nofun)

/-! ## What a register number reads -/

@[simp] theorem regRead_number (s : State) (r : Reg) : regRead s r.number = readReg s r := by
  rw [regRead, regOf_number]

theorem regRead_unmapped (s : State) {n : RegNum} (h : regOf n = none) : regRead s n = 0 := by
  rw [regRead, h]

/-- Every number either is a register's or is unmapped (R21). -/
theorem number_or_unmapped (n : RegNum) : (∃ r : Reg, n = r.number) ∨ regOf n = none := by
  cases h : regOf n with
  | some r => exact .inl ⟨r, regOf_some h⟩
  | none => exact .inr rfl

theorem regOf_gap {n : RegNum} (h : (0x0A ≤ n.toNat ∧ n.toNat ≤ 0x0F) ∨ 0x1A ≤ n.toNat) : regOf n = none := by
  rcases number_or_unmapped n with ⟨r, rfl⟩ | hn
  · have key : ¬ ((0x0A ≤ r.number.toNat ∧ r.number.toNat ≤ 0x0F) ∨ 0x1A ≤ r.number.toNat) := by
      cases r <;> decide
    exact absurd h key
  · exact hn

theorem Reg.number_inj {q r : Reg} : q.number = r.number ↔ q = r := by
  refine ⟨fun h => ?_, fun h => h ▸ rfl⟩
  have hr : regOf q.number = some r := by rw [h, regOf_number]
  rw [regOf_number] at hr
  exact Option.some.inj hr

/-- The host's list is no register. -/
@[simp] theorem regRead_setHost (s : State) (l : List HostAccess) (n : RegNum) :
    regRead (s.setHost l) n = regRead s n := by
  rcases number_or_unmapped n with ⟨r, rfl⟩ | hn
  · rw [regRead_number, regRead_number]
    cases r <;> rfl
  · rw [regRead_unmapped _ hn, regRead_unmapped _ hn]

/-! ## Where a register write shows -/

/-- The numbers of the registers that store all 32 bits of a write (R25, R27 to R29, R35). -/
abbrev wordNumbers : List RegNum :=
  [0x02#5, 0x07, 0x08, 0x09, 0x10, 0x11, 0x12, 0x13, 0x14, 0x15, 0x16, 0x17]

/-- Bit 0 alone, as REC_DISC_SHORT keeps and reads it (R44). -/
theorem bit_zero_word (v : Word) : (if v.getLsbD 0 then 1 else 0) = v &&& 1 := by
  refine Eq.trans ?_ BitVec.and_one_eq_setWidth_ofBool_getLsbD.symm
  cases v.getLsbD 0 <;> rfl

/-- A write shows in the register it names: whole, in bit 0 alone, or not at all (R44, R46). -/
theorem readReg_writeReg_same (s : State) (v : Word) (r : Reg) :
    readReg (writeReg s v r) r =
      if r.number ∈ wordNumbers then v else if r = .recDiscShort then v &&& 1 else readReg s r := by
  cases r with
  | recDiscShort => exact bit_zero_word v
  | _ => rfl

/-- REC_HAS_TLV is the one register that shows a write to another one (R45). -/
theorem readReg_writeReg_other (s : State) (v : Word) {q r : Reg} (hq : q ≠ r)
    (htlv : ¬ (q = .recHasTlv ∧ r = .tlvlen)) : readReg (writeReg s v r) q = readReg s q := by
  cases r <;> cases q <;> first | rfl | exact absurd rfl hq | exact absurd ⟨rfl, rfl⟩ htlv

/-- An unmapped number is none of the numbers a write to which shows anywhere. -/
theorem regOf_ne_none_of_mem {n : RegNum} (h : n ∈ wordNumbers ∨ n = 0x18) : regOf n ≠ none := by
  have key : ∀ n ∈ 0x18 :: wordNumbers, regOf n ≠ none := by decide
  exact key n (List.mem_cons.2 h.symm)

theorem readReg_writeReg (s : State) (v : Word) (q r : Reg) :
    readReg (writeReg s v r) q =
      if q = r ∧ r.number ∈ wordNumbers then v
      else if q = r ∧ r = .recDiscShort then v &&& 1
      else if q = .recHasTlv ∧ r = .tlvlen then (if v ≠ 0 then 1 else 0)
      else readReg s q := by
  by_cases hq : q = r
  · subst hq
    have htlv : ¬ (q = .recHasTlv ∧ q = .tlvlen) := fun ⟨h1, h2⟩ => by rw [h1] at h2; cases h2
    simp only [readReg_writeReg_same, true_and, if_neg htlv]
  · simp only [hq, false_and, if_false]
    by_cases htlv : q = .recHasTlv ∧ r = .tlvlen
    · obtain ⟨rfl, rfl⟩ := htlv
      rfl
    · rw [if_neg htlv, readReg_writeReg_other s v hq htlv]

/-- `readReg_writeReg` over all 32 numbers: an unmapped one stores nothing and reads 0 (R46). -/
theorem regRead_regWrite (s : State) (n m : RegNum) (v : Word) :
    regRead (regWrite s n v) m =
      if m = n ∧ n ∈ wordNumbers then v
      else if m = n ∧ n = 0x18 then v &&& 1
      else if m = 0x19 ∧ n = 0x09 then (if v ≠ 0 then 1 else 0)
      else regRead s m := by
  rcases number_or_unmapped n with ⟨r, rfl⟩ | hn
  · have hd : r.number = 0x18 ↔ r = .recDiscShort := Reg.number_inj (r := .recDiscShort)
    have ht : r.number = 0x09 ↔ r = .tlvlen := Reg.number_inj (r := .tlvlen)
    rw [regWrite, regOf_number]
    rcases number_or_unmapped m with ⟨q, rfl⟩ | hm
    · have hh : q.number = 0x19 ↔ q = .recHasTlv := Reg.number_inj (r := .recHasTlv)
      simp only [regRead_number, readReg_writeReg, Reg.number_inj, hd, ht, hh]
    · have hne : m ≠ r.number := by
        rintro rfl
        rw [regOf_number] at hm
        cases hm
      have hh : m ≠ 0x19 := by
        rintro rfl
        cases hm
      simp only [regRead_unmapped _ hm, hne, hh, false_and, if_false]
  · have hw : n ∉ wordNumbers := fun h => regOf_ne_none_of_mem (.inl h) hn
    have hd : n ≠ 0x18 := fun h => regOf_ne_none_of_mem (.inr h) hn
    have ht : n ≠ 0x09 := fun h => hw (by rw [h]; decide)
    rw [regWrite, hn]
    simp only [hw, hd, ht, and_false, if_false]

/-- A register write leaves all but the read-write registers (R46). -/
theorem regWrite_frame {t : State} {n : RegNum} {v : Word} (h : regWrite s n v = t) :
    t = { s with arg0 := t.arg0, blen := t.blen, clen := t.clen, tlvlen := t.tlvlen, record := t.record } := by
  subst h
  rw [regWrite]
  split
  · next r _ =>
    rcases writeReg_cases s v r with h | h | h | h | h | ⟨q, h⟩ <;> rw [h] <;> rfl
  · rfl

end

/-- Settles O5: the decoded command runs in the state `fetch` hands on. -/
theorem stepRunsTheDecodedCommand : Obligations.StepRunsTheDecodedCommand :=
  fun _ _ _ _ h hd => step_command h hd

/-- Settles O9: the reset input is the access `resetBlock`. -/
theorem resetInputRestoresReset : Obligations.ResetInputRestoresReset :=
  fun _ _ h => step_reset h

/-- Settles O15: a read is one step that only responds; each mapped number reads its register, and the gaps of the
map name none. -/
theorem registerReads : Obligations.RegisterReads := by
  refine ⟨fun s n rest h => ?_, fun s => ⟨rfl, rfl, rfl, rfl, rfl, rfl, rfl, rfl, rfl, rfl, rfl, rfl, rfl, rfl, rfl,
    rfl, rfl, rfl, rfl, rfl, fun n hn => regRead_unmapped s (regOf_gap hn)⟩⟩
  rw [step_regRead h, regRead_setHost]
  rfl

theorem State.Inv.stream_lt {s : State} (h : s.Inv) : s.stream.length < 2 ^ 32 := by
  obtain ⟨⟨⟨-, -, hcap⟩, -⟩, -, -, -, hlen, -⟩ := h
  exact Nat.lt_of_le_of_lt hlen hcap

/-- Settles O16: len(S), and with it RPOS and the difference, is below 2^32. -/
theorem bitBufferViewsAreExact : Obligations.BitBufferViewsAreExact := by
  intro s h
  have hlen := h.stream_lt
  have hr := h.rpos_le
  have exact_of_lt {k : Nat} (hk : k < 2 ^ 32) : (BitVec.ofNat 32 k).toNat = k := by
    rw [BitVec.toNat_ofNat, Nat.mod_eq_of_lt hk]
  have hw : (regRead s 0x04).toNat = s.stream.length := exact_of_lt hlen
  have hp : (regRead s 0x05).toNat = s.rpos := exact_of_lt (by omega)
  have hm : (regRead s 0x06).toNat = s.stream.length - s.rpos := exact_of_lt (by omega)
  exact ⟨hw, hp, hm, by omega⟩

/-- Settles O20: STATUS reads the code of the stored error. -/
theorem statusCodeNumbers : Obligations.StatusCodeNumbers := by
  intro s
  have hstatus (e : ErrorCode) : regRead { s with err := e } 0x01 = e.code.setWidth 32 :=
    regRead_number (s.setErr e) .status
  simp only [hstatus]
  rfl

/-- Settles O17: `regWrite` is the step, with its frame and its 32 readings. -/
theorem registerWrites : Obligations.RegisterWrites := by
  intro s n v rest hn h
  refine ⟨_, step_regWrite hn h, regWrite_frame rfl, fun m => ?_⟩
  rw [regRead_regWrite, regRead_setHost]

end Sys2Proof.Machine

/-! SUPPORT. A change of state that a command carries along: its pseudocode does the same in the changed state, and
keeps the change in its result. The commit rule then hands the change on, or, for a change of STATUS.ERR, writes over
it (60_exceptions.md R222, R223). -/

namespace Sys2Proof.Machine

/-- `c` is the commit of a pseudocode that carries the change `f` along. -/
def Carries (f : State → State) (c : State → Host.Outcome State Fault Refusal) : Prop :=
  ∃ r : State → Except Stop State, (∀ s, c s = commit s (r s)) ∧ ∀ s, r (f s) = f <$> r s

/-- A change that leaves STATUS.ERR alone is seen in the next state and nowhere else. -/
theorem Carries.apply_eq {f : State → State} {c : State → Host.Outcome State Fault Refusal} (h : Carries f c)
    (hf : ∀ s e, f (s.setErr e) = (f s).setErr e) (s : State) : c (f s) = mapNext f (c s) := by
  obtain ⟨r, hc, hr⟩ := h
  rw [hc, hc, hr]
  rcases r s with ⟨e | k⟩ | s'
  · exact congrArg _ (hf s e).symm
  · rfl
  · exact congrArg _ (hf s' .none).symm

/-- A command that carries STATUS.ERR along does not read it: the commit writes over it (R47). -/
theorem Carries.setErr_eq {c : State → Host.Outcome State Fault Refusal} {e : ErrorCode}
    (h : Carries (·.setErr e) c) (s : State) : c (s.setErr e) = c s := by
  obtain ⟨r, hc, hr⟩ := h
  rw [hc, hc, hr]
  rcases r s with ⟨e' | k⟩ | s' <;> rfl

/-! ## The payload commands -/

/-- A change outside what the payload commands read and write: their operands are the same, and their writes can be
made before it or after it. -/
structure OutsidePayload (f : State → State) : Prop where
  cfg : ∀ s, (f s).cfg = s.cfg
  record : ∀ s, (f s).record = s.record
  clen : ∀ s, (f s).clen = s.clen
  tlvlen : ∀ s, (f s).tlvlen = s.tlvlen
  chars : ∀ s n, readElems (f s) .chars n = readElems s .chars n
  tlv : ∀ s n, readElems (f s) .tlv n = readElems s .tlv n
  storeChars : ∀ s l, storeChars (f s) l = f (storeChars s l)
  storeTlv : ∀ s l, storeTlv (f s) l = f (storeTlv s l)
  setRecord : ∀ s r, (f s).setRecord r = f (s.setRecord r)
  setTlvlen : ∀ s v, (f s).setTlvlen v = f (s.setTlvlen v)

section
variable {f : State → State}

theorem OutsidePayload.qrParse_eq (h : OutsidePayload f) (strict : Bool) (u : List Byte) (s : State) :
    qrParse strict u (f s) = f <$> qrParse strict u s := by
  simp only [qrParse, h.cfg, h.setRecord, h.storeTlv, map_bind, map_pure]

theorem OutsidePayload.manualParse_eq (h : OutsidePayload f) (ds : List Nat) (s : State) :
    manualParse ds (f s) = f <$> manualParse ds s := by
  simp only [manualParse, h.cfg, h.setRecord, h.setTlvlen, map_bind, map_pure]

theorem OutsidePayload.carries_pcEncqr (h : OutsidePayload f) : Carries f execPcEncqr :=
  ⟨_, fun _ => rfl, fun s => by
    simp only [h.cfg, h.record, h.tlvlen, h.tlv, h.storeChars, map_bind, map_pure]⟩

theorem OutsidePayload.carries_pcEncman (h : OutsidePayload f) : Carries f execPcEncman :=
  ⟨_, fun _ => rfl, fun s => by simp only [h.cfg, h.record, h.storeChars, map_bind, map_pure]⟩

theorem OutsidePayload.carries_pcParse (h : OutsidePayload f) (strict : Bool) : Carries f (execPcParse strict) :=
  ⟨_, fun _ => rfl, fun s => by
    simp only [h.cfg, h.clen, h.chars, h.qrParse_eq, h.manualParse_eq, map_bind]
    simp only [apply_ite (Functor.map f)]
    rfl⟩

end

theorem outsidePayload_setErr (e : ErrorCode) : OutsidePayload (·.setErr e) :=
  ⟨fun _ => rfl, fun _ => rfl, fun _ => rfl, fun _ => rfl, fun _ _ => rfl, fun _ _ => rfl, fun _ _ => rfl,
    fun _ _ => rfl, fun _ _ => rfl, fun _ _ => rfl⟩

theorem exec_carries_setErr (i : Instr) (e : ErrorCode) : Carries (·.setErr e) (exec i) := by
  cases i with
  | bbClear => exact ⟨fun s => .ok ((s.setStream []).setRpos 0), fun _ => rfl, fun _ => rfl⟩
  | pcEncqr => exact (outsidePayload_setErr e).carries_pcEncqr
  | pcEncman => exact (outsidePayload_setErr e).carries_pcEncman
  | pcParse strict => exact (outsidePayload_setErr e).carries_pcParse strict
  | _ => exact ⟨_, fun _ => rfl, fun s => by simp only [map_bind, map_pure]; rfl⟩

/-- Settles O23: every command carries STATUS.ERR along, and its commit writes over it. -/
theorem commandsIgnoreStatus : Obligations.CommandsIgnoreStatus :=
  fun i s e => (exec_carries_setErr i e).setErr_eq s

/-- The visible BitBuffer, BYTES and BLEN replaced (R48). -/
def withBitBuffer (b : Bits) (p : Nat) (m : Memory) (n : Word) (s : State) : State :=
  (((s.setStream b).setRpos p).setBytes m).setBlen n

theorem outsidePayload_withBitBuffer (b : Bits) (p : Nat) (m : Memory) (n : Word) :
    OutsidePayload (withBitBuffer b p m n) :=
  ⟨fun _ => rfl, fun _ => rfl, fun _ => rfl, fun _ => rfl, fun _ _ => rfl, fun _ _ => rfl, fun _ _ => rfl,
    fun _ _ => rfl, fun _ _ => rfl, fun _ _ => rfl⟩

/-- Settles O27: the payload commands carry along any BitBuffer, BYTES and BLEN, and STATUS.ERR is none of these. -/
theorem payloadCommandsLeaveTheBitBuffer : Obligations.PayloadCommandsLeaveTheBitBuffer := by
  intro i s b p m n hi
  have h := outsidePayload_withBitBuffer b p m n
  have hc : Carries (withBitBuffer b p m n) (exec i) := by
    rcases hi with rfl | rfl | ⟨strict, rfl⟩
    · exact h.carries_pcEncqr
    · exact h.carries_pcEncman
    · exact h.carries_pcParse strict
  exact hc.apply_eq (fun _ _ => rfl) s

end Sys2Proof.Machine

/-! SUPPORT. What a command's next state can be in ARG0, RES0, S and RPOS (10_state.md R25, R26, R30, R32), over all
commands by their inversion lemmas (Sys2Proof/Laws/Commands.lean). -/

namespace Sys2Proof.Machine

/-- Two states with the same ARG0, RES0, S and RPOS. -/
structure SameCore (s t : State) : Prop where
  arg0 : t.arg0 = s.arg0
  res0 : t.res0 = s.res0
  stream : t.stream = s.stream
  rpos : t.rpos = s.rpos

/-- The commands that put a result in RES0 (R26). -/
def Answers (i : Instr) : Prop := (∃ w, i = .bbRdbits w) ∨ i = .vhCompute ∨ i = .vhValidate ∨ i = .vhAppend

/-- What a command does to ARG0, RES0, S and RPOS: it clears S, appends to S, or leaves S and moves RPOS on, by 0 or
more, and RES0 may get a result. -/
inductive CoreEffect (i : Instr) (s t : State) : Prop where
  | cleared (hi : i = .bbClear) (h : SameCore ((s.setStream []).setRpos 0) t)
  | appended (hi : i ≠ .bbClear) (added : Bits) (hcap : s.stream.length + added.length ≤ s.cfg.bbCapBits)
      (h : SameCore (s.setStream (s.stream ++ added)) t)
  | advanced (hi : i ≠ .bbClear) (p : Nat) (hp : s.rpos ≤ p) (v : Word)
      (hv : v = s.res0 ∨ (t.err = .none ∧ Answers i)) (h : SameCore ((s.setRes0 v).setRpos p) t)

section
variable {s t : State} {i : Instr}

/-- A command that writes none of the four. -/
theorem coreEffect_of_sameCore (hi : i ≠ .bbClear) (h : SameCore s t) : CoreEffect i s t :=
  .advanced hi s.rpos le_rfl s.res0 (.inl rfl) h

theorem sameCore_setErr (e : ErrorCode) : SameCore s (s.setErr e) := ⟨rfl, rfl, rfl, rfl⟩

theorem sameCore_storeBytes (vs : List Byte) (e : ErrorCode) : SameCore s ((storeBytes s vs).setErr e) :=
  ⟨rfl, rfl, rfl, rfl⟩

theorem sameCore_storeChars (vs : List Byte) (e : ErrorCode) : SameCore s ((storeChars s vs).setErr e) :=
  ⟨rfl, rfl, rfl, rfl⟩

/-- The shape of every inversion lemma of a command: an error leaves all four alone (R223). -/
theorem coreEffect_of_error_or {P : Prop} (hi : i ≠ .bbClear) (hn : (∃ e, e ≠ .none ∧ t = s.setErr e) ∨ P)
    (hp : P → CoreEffect i s t) : CoreEffect i s t := by
  obtain ⟨e, -, rfl⟩ | hP := hn
  · exact coreEffect_of_sameCore hi (sameCore_setErr e)
  · exact hp hP

theorem sameCore_execPcParse {strict : Bool} (hx : execPcParse strict s = .next t) : SameCore s t := by
  rcases execPcParse_next hx with ⟨e, -, rfl⟩ | ⟨text, s', -, -, -, ⟨-, hq⟩ | ⟨-, -, hm⟩, rfl⟩
  · exact sameCore_setErr e
  · obtain ⟨b, -, -, -, -, -, -, -, -, rfl⟩ := qrParse_ok hq
    exact ⟨rfl, rfl, rfl, rfl⟩
  · obtain ⟨r, -, -, rfl⟩ := manualParse_ok hm
    exact ⟨rfl, rfl, rfl, rfl⟩

theorem exec_coreEffect (hx : exec i s = .next t) : CoreEffect i s t := by
  cases i with
  | bbClear =>
    rw [execBbClear_next hx]
    exact .cleared rfl ⟨rfl, rfl, rfl, rfl⟩
  | bbWrbits w =>
    refine coreEffect_of_error_or nofun (execBbWrbits_next hx) ?_
    rintro ⟨-, -, -, hcap, rfl⟩
    exact .appended nofun _ (by simpa using hcap) ⟨rfl, rfl, rfl, rfl⟩
  | bbRdbits w =>
    refine coreEffect_of_error_or nofun (execBbRdbits_next hx) ?_
    rintro ⟨-, -, -, rfl⟩
    exact .advanced nofun _ (Nat.le_add_right _ w) _ (.inr ⟨rfl, .inl ⟨w, rfl⟩⟩) ⟨rfl, rfl, rfl, rfl⟩
  | bbAppend =>
    refine coreEffect_of_error_or nofun (execBbAppend_next hx) ?_
    rintro ⟨l, hl, -, -, -, hcap, rfl⟩
    exact .appended nofun _ (by simpa [hl] using hcap) ⟨rfl, rfl, rfl, rfl⟩
  | bbRdbytes =>
    refine coreEffect_of_error_or nofun (execBbRdbytes_next hx) ?_
    rintro ⟨-, -, -, rfl⟩
    exact .advanced nofun _ (Nat.le_add_right _ (8 * s.arg0.toNat)) s.res0 (.inl rfl) ⟨rfl, rfl, rfl, rfl⟩
  | bbTobytes =>
    refine coreEffect_of_error_or nofun (execBbTobytes_next hx) ?_
    rintro ⟨-, rfl⟩
    exact coreEffect_of_sameCore nofun (sameCore_storeBytes _ _)
  | b38Enc =>
    refine coreEffect_of_error_or nofun (execB38Enc_next hx) ?_
    rintro ⟨l, -, -, -, -, rfl⟩
    exact coreEffect_of_sameCore nofun (sameCore_storeChars _ _)
  | b38Dec =>
    refine coreEffect_of_error_or nofun (execB38Dec_next hx) ?_
    rintro ⟨text, b, -, -, -, -, -, rfl⟩
    exact coreEffect_of_sameCore nofun (sameCore_storeBytes _ _)
  | vhCompute =>
    refine coreEffect_of_error_or nofun (execVhCompute_next hx) ?_
    rintro ⟨ds, -, rfl⟩
    exact .advanced nofun s.rpos le_rfl _ (.inr ⟨rfl, .inr (.inl rfl)⟩) ⟨rfl, rfl, rfl, rfl⟩
  | vhValidate =>
    refine coreEffect_of_error_or nofun (execVhValidate_next hx) ?_
    rintro ⟨ds, -, rfl⟩
    exact .advanced nofun s.rpos le_rfl _ (.inr ⟨rfl, .inr (.inr (.inl rfl))⟩) ⟨rfl, rfl, rfl, rfl⟩
  | vhAppend =>
    refine coreEffect_of_error_or nofun (execVhAppend_next hx) ?_
    rintro ⟨ds, -, -, rfl⟩
    exact .advanced nofun s.rpos le_rfl _ (.inr ⟨rfl, .inr (.inr (.inr rfl))⟩) ⟨rfl, rfl, rfl, rfl⟩
  | pcEncqr =>
    refine coreEffect_of_error_or nofun (execPcEncqr_next hx) ?_
    rintro ⟨l, -, -, -, -, -, -, -, -, -, -, -, rfl⟩
    exact coreEffect_of_sameCore nofun (sameCore_storeChars _ _)
  | pcEncman =>
    refine coreEffect_of_error_or nofun (execPcEncman_next hx) ?_
    rintro ⟨-, -, -, -, -, rfl⟩
    exact coreEffect_of_sameCore nofun (sameCore_storeChars _ _)
  | pcParse strict => exact coreEffect_of_sameCore nofun (sameCore_execPcParse hx)

end

/-- Settles O24: none of the three effects changes ARG0, and only the last one changes RES0, to a result. -/
theorem commandsKeepArg0AndRes0 : Obligations.CommandsKeepArg0AndRes0 := by
  intro i s t hx
  cases exec_coreEffect hx with
  | cleared hi h => exact ⟨h.arg0, fun hne => absurd h.res0 hne⟩
  | appended hi added hcap h => exact ⟨h.arg0, fun hne => absurd h.res0 hne⟩
  | advanced hi p hp v hv h =>
    refine ⟨h.arg0, fun hne => ?_⟩
    rcases hv with rfl | hres
    · exact absurd h.res0 hne
    · exact hres

/-- Settles O25: S and RPOS in each of the three effects. -/
theorem streamOnlyGrowsUntilClear : Obligations.StreamOnlyGrowsUntilClear := by
  intro i s t hx
  cases exec_coreEffect hx with
  | cleared hi h =>
    have hs : t.stream = [] := h.stream
    exact ⟨fun _ => ⟨hs, h.rpos⟩, fun hne => absurd hi hne, fun _ => by simp [hs]⟩
  | appended hi added hcap h =>
    have hs : t.stream = s.stream ++ added := h.stream
    have hr : t.rpos = s.rpos := h.rpos
    exact ⟨fun hc => absurd hc hi, fun _ => ⟨⟨added, hs, fun _ => hr⟩, hr.ge⟩, fun _ => by simpa [hs] using hcap⟩
  | advanced hi p hp v hv h =>
    have hs : t.stream = s.stream := h.stream
    have hr : t.rpos = p := h.rpos
    exact ⟨fun hc => absurd hc hi, fun _ => ⟨⟨[], by simp [hs], fun hne => absurd rfl hne⟩, by rwa [hr]⟩,
      fun hcap => by rwa [hs]⟩

end Sys2Proof.Machine

/-! SUPPORT. The host's buffer accesses as steps: what a read returns, which element a write changes, and what loading
a sequence element by element leaves (20_memory.md R64, R65; 30_encoding.md R88, R89). -/

namespace Sys2Proof.Machine

/-! ## Buffer reads -/

section
variable {s : State} {space : Space} {i : Nat} {rest : List HostAccess}

@[simp] theorem bufRead_setHost (l : List HostAccess) : bufRead (s.setHost l) space i = bufRead s space i := by
  cases space <;> rfl

theorem bufRead_out (h : s.cap space ≤ i) : bufRead s space i = .ok 0 := by simp only [bufRead, if_pos h]

theorem bufRead_written {v : Byte} (hi : i < s.cap space) (hv : (s.mem space).read i = some v) :
    bufRead s space i = .ok v := by
  simp only [bufRead, if_neg (Nat.not_le.2 hi), hv]

theorem bufRead_unwritten (hi : i < s.cap space) (hn : (s.mem space).read i = none) :
    bufRead s space i = .error (.uninitRead space i) := by
  simp only [bufRead, if_neg (Nat.not_le.2 hi), hn]

theorem step_bufRead_ok {v : Byte} (h : s.host = .bufRead space i :: rest) (hr : bufRead s space i = .ok v) :
    step s = .next (respond (s.setHost rest) (.elem v)) := by
  rw [step_performs h (fun _ => nofun)]
  simp only [performAccess, bufRead_setHost, hr]

theorem step_bufRead_error {f : Fault} (h : s.host = .bufRead space i :: rest) (hr : bufRead s space i = .error f) :
    step s = .fault f := by
  rw [step_performs h (fun _ => nofun)]
  simp only [performAccess, bufRead_setHost, hr]

end

/-- Settles O18: the three outcomes of `bufRead`, each as a step. -/
theorem bufferReads : Obligations.BufferReads := by
  intro s space i rest h
  exact ⟨fun hi => step_bufRead_ok h (bufRead_out hi), fun v hi hv => step_bufRead_ok h (bufRead_written hi hv),
    fun hi hn => step_bufRead_error h (bufRead_unwritten hi hn)⟩

/-! ## Buffer writes -/

section
variable {s t : State} {space : Space} {m : Memory} {rest : List HostAccess}

theorem setMem_self : setMem s space (s.mem space) = s := by cases space <;> rfl

theorem setMem_setMem (m' : Memory) : setMem (setMem s space m) space m' = setMem s space m' := by
  cases space <;> rfl

@[simp] theorem setMem_setHost (l : List HostAccess) : (setMem s space m).setHost l = setMem (s.setHost l) space m := by
  cases space <;> rfl

@[simp] theorem setMem_host : (setMem s space m).host = s.host := by cases space <;> rfl

@[simp] theorem cap_setMem (other : Space) : (setMem s space m).cap other = s.cap other := by cases space <;> rfl

@[simp] theorem mem_setHost (l : List HostAccess) : (s.setHost l).mem space = s.mem space := by cases space <;> rfl

@[simp] theorem cap_setHost (l : List HostAccess) : (s.setHost l).cap space = s.cap space := by cases space <;> rfl

/-- Replacing a memory leaves all but the three memories. -/
theorem setMem_frame (h : setMem s space m = t) : t = { s with bytes := t.bytes, chars := t.chars, tlv := t.tlv } := by
  subst h
  cases space <;> rfl

theorem bufWrite_frame {i : Nat} {v : Byte} (h : bufWrite s space i v = t) :
    t = { s with bytes := t.bytes, chars := t.chars, tlv := t.tlv } := by
  by_cases hi : i < s.cap space
  · exact setMem_frame ((bufWrite_in hi v).symm.trans h)
  · rw [bufWrite_out (Nat.not_lt.1 hi)] at h
    rw [h]

/-- A buffer write shows in its one element, and nowhere when that element does not exist (R64). -/
theorem read_mem_bufWrite (s : State) (space other : Space) (i a : Nat) (v : Byte) :
    ((bufWrite s space i v).mem other).read a =
      if other = space ∧ a = i ∧ i < s.cap space then some v else (s.mem other).read a := by
  by_cases hi : i < s.cap space
  · rw [bufWrite_in hi]
    by_cases ho : other = space
    · subst ho
      by_cases ha : a = i
      · subst ha
        simp [hi]
      · simp [ha, Memory.read_write_other]
    · simp [setMem_mem_other, ho]
  · simp [bufWrite_out (Nat.not_lt.1 hi), hi]

theorem step_bufWrite {i : Nat} {v : Byte} (h : s.host = .bufWrite space i v :: rest) :
    step s = .next (bufWrite (s.setHost rest) space i v) :=
  step_performs h (fun _ => nofun)

end

/-- Settles O19: `bufWrite` is the step, with its frame and its one element. -/
theorem bufferWrites : Obligations.BufferWrites := by
  intro s space i v rest h
  refine ⟨_, step_bufWrite h, bufWrite_frame rfl, fun other a => ?_⟩
  rw [read_mem_bufWrite, mem_setHost, cap_setHost]

/-! ## Loading a sequence -/

section
variable {s t : State} {space : Space} {rest : List HostAccess}

theorem run_next (h : step s = .next t) (n : Nat) : Sys2Proof.core.run (n + 1) s = Sys2Proof.core.run n t := by
  have hs : Sys2Proof.core.step s = .next t := h
  simp only [Host.Core.run, hs]

/-- The writes of a sequence that fits are one `writeSeq` (R88). -/
theorem run_loadElems (vs : List Byte) {k : Nat} (n : Nat) (h : s.host = loadElems space k vs ++ rest)
    (hcap : k + vs.length ≤ s.cap space) :
    Sys2Proof.core.run (vs.length + n) s =
      Sys2Proof.core.run n (setMem (s.setHost rest) space ((s.mem space).writeSeq k vs)) := by
  induction vs generalizing s k with
  | nil =>
    have hs : s.setHost rest = s := by rw [← show s.host = rest from h, State.setHost_self]
    rw [hs, Memory.writeSeq, setMem_self, List.length_nil, Nat.zero_add]
  | cons v vs ih =>
    rw [List.length_cons] at hcap
    have hstep : step s = .next (bufWrite (s.setHost (loadElems space (k + 1) vs ++ rest)) space k v) :=
      step_bufWrite h
    rw [bufWrite_in (by rw [cap_setHost]; omega), mem_setHost] at hstep
    rw [List.length_cons, Nat.add_right_comm, run_next hstep, ih (k := k + 1) setMem_host (by simp; omega)]
    simp [setMem_setMem, Memory.writeSeq]

/-- A load pseudo-instruction: the sequence, then its count register (R89). -/
theorem run_load {vs : List Byte} {r : RegNum} {v : Word} (hr : r ≠ Reg.cmd.number)
    (h : s.host = loadElems space 0 vs ++ [.regWrite r v] ++ rest) (hcap : vs.length ≤ s.cap space) :
    Sys2Proof.core.run (vs.length + 1) s =
      .next (regWrite (setMem (s.setHost rest) space ((s.mem space).writeSeq 0 vs)) r v) := by
  rw [List.append_assoc] at h
  rw [run_loadElems vs 1 h (by omega), run_next (step_regWrite hr setMem_host)]
  simp [Host.Core.run]

end

/-- Settles O21: each load is the run of its expansion, which changes one memory and one count register. -/
theorem loadPseudoInstructions : Obligations.LoadPseudoInstructions := by
  intro s vs rest
  exact ⟨fun h hcap => ⟨_, run_load (space := .chars) (r := Reg.clen.number) (by decide) h hcap, rfl,
      Memory.read_writeSeq_zero vs s.chars⟩,
    fun h hcap => ⟨_, run_load (space := .bytes) (r := Reg.blen.number) (by decide) h hcap, rfl,
      Memory.read_writeSeq_zero vs s.bytes⟩,
    fun h hcap => ⟨_, run_load (space := .tlv) (r := Reg.tlvlen.number) (by decide) h hcap, rfl,
      Memory.read_writeSeq_zero vs s.tlv⟩⟩

end Sys2Proof.Machine

/-! SUPPORT. How a command's pseudocode can end (00_scope.md R13; 20_memory.md R65): with a value, with an error of the
block, or with the fault UNINIT_READ on an unwritten element of an operand. One walk through each command gives what
stops it and what of the model's own state it leaves. -/

namespace Sys2Proof.Machine

/-- `r` ends with a value in `Q`, with an error of the block, or with a fault in `P`. -/
def Ends {α : Type} (P : Fault → Prop) (Q : α → Prop) : Except Stop α → Prop
  | .ok a => Q a
  | .error (.raise _) => True
  | .error (.fault f) => P f

section
variable {α β : Type} {P : Fault → Prop} {Q : α → Prop} {R : β → Prop}

theorem ends_ok {a : α} (h : Q a) : Ends P Q (.ok a) := h

theorem ends_raiseErr (e : ErrorCode) : Ends P Q (raiseErr e) := trivial

theorem Ends.bind {x : Except Stop α} {k : α → Except Stop β} (hx : Ends P Q x) (hk : ∀ a, Q a → Ends P R (k a)) :
    Ends P R (x >>= k) := by
  rcases x with ⟨e | f⟩ | a
  · trivial
  · exact hx
  · exact hk a hx

/-- After a check the condition it raises on is false. -/
theorem ends_check {c : Prop} [Decidable c] {e : ErrorCode} {k : Unit → Except Stop α} (hk : ¬ c → Ends P Q (k ())) :
    Ends P Q (raiseIf c e >>= k) := by
  rw [raiseIf_bind]
  split
  · trivial
  · exact hk ‹_›

theorem ends_ite {c : Prop} [Decidable c] {a b : Except Stop α} (ha : Ends P Q a) (hb : Ends P Q b) :
    Ends P Q (if c then a else b) := by
  split
  · exact ha
  · exact hb

end

/-! ## What a command leaves, and what it stops on -/

/-- Two states with the same parameters, pending accesses and responses: the model's own state (logs 1, 3, 7). -/
structure SameHostSide (s t : State) : Prop where
  cfg : t.cfg = s.cfg
  host : t.host = s.host
  responses : t.responses = s.responses

section
variable {s : State}

/-! The results of a command, whatever sequence it stores. -/

theorem sameHostSide_storeBytes (vs : List Byte) : SameHostSide s (storeBytes s vs) := ⟨rfl, rfl, rfl⟩

theorem sameHostSide_storeChars (vs : List Byte) : SameHostSide s (storeChars s vs) := ⟨rfl, rfl, rfl⟩

theorem sameHostSide_storeTlv (r : Record) (vs : List Byte) : SameHostSide s (storeTlv (s.setRecord r) vs) :=
  ⟨rfl, rfl, rfl⟩

end

/-- UNINIT_READ on an element that exists and that nothing has written (R65). -/
def UninitElement (s : State) (f : Fault) : Prop :=
  ∃ space j, f = .uninitRead space j ∧ j < s.cap space ∧ (s.mem space).read j = none

/-- `UninitElement` on an operand of the command. -/
def UninitOperand (i : Instr) (s : State) (f : Fault) : Prop := ¬ operandsWritten i s ∧ UninitElement s f

section
variable {s t : State} {i : Instr}

theorem ends_readElems {space : Space} {n : Nat} (hop : operandsWritten i s → Memory.written (s.mem space) n)
    (hcap : n ≤ s.cap space) : Ends (UninitOperand i s) (fun _ => True) (readElems s space n) := by
  cases hr : readElems s space n with
  | ok l => trivial
  | error e =>
    obtain ⟨j, hj, hn, rfl⟩ := readElems_error hr
    refine ⟨fun hw => ?_, space, j, rfl, by omega, hn⟩
    simpa [hn] using hop hw j hj

theorem ends_vdigits (hop : operandsWritten i s → Memory.written s.chars s.clen.toNat) :
    Ends (UninitOperand i s) (fun _ => True) (vdigits s) :=
  ends_check fun hcap => (ends_readElems (space := .chars) hop (not_lt.1 hcap)).bind fun _ _ =>
    ends_check fun _ => ends_ok trivial

end

section
variable {P : Fault → Prop}

theorem ends_decodeGroup (cs : List Byte) (n : Nat) : Ends P (fun _ => True) (decodeGroup cs n) :=
  ends_check fun _ => ends_ok trivial

theorem ends_decodeGroups (t : List Byte) : Ends P (fun _ => True) (decodeGroups t) := by
  induction t using decodeGroups.induct with
  | case1 => trivial
  | case2 c0 => exact ends_raiseErr _
  | case3 c0 c1 => exact ends_decodeGroup _ _
  | case4 c0 c1 c2 => exact ends_raiseErr _
  | case5 c0 c1 c2 c3 => exact ends_decodeGroup _ _
  | case6 c0 c1 c2 c3 c4 rest ih => exact (ends_decodeGroup _ _).bind fun _ _ => ih.bind fun _ _ => ends_ok trivial

theorem ends_b38dec (t : List Byte) : Ends P (fun _ => True) (b38dec t) :=
  ends_check fun _ => ends_check fun _ => ends_decodeGroups t

theorem ends_qrParse (strict : Bool) (u : List Byte) (s : State) : Ends P (SameHostSide s) (qrParse strict u s) :=
  (ends_b38dec u).bind fun _ _ => ends_check fun _ => ends_check fun _ => ends_check fun _ => ends_check fun _ =>
    ends_check fun _ => ends_check fun _ => ends_check fun _ => ends_ok (sameHostSide_storeTlv _ _)

theorem ends_manualParse (ds : List Nat) (s : State) : Ends P (SameHostSide s) (manualParse ds s) :=
  ends_check fun _ => ends_check fun _ => ends_check fun _ => ends_check fun _ => ends_ok ⟨rfl, rfl, rfl⟩

end

/-- Every command commits a pseudocode that leaves the model's own state and stops only on an unwritten operand. -/
theorem exec_ends (i : Instr) (s : State) :
    ∃ r, exec i s = commit s r ∧ Ends (UninitOperand i s) (SameHostSide s) r := by
  cases i with
  | bbClear => exact ⟨.ok ((s.setStream []).setRpos 0), rfl, ends_ok ⟨rfl, rfl, rfl⟩⟩
  | bbWrbits w =>
    exact ⟨_, rfl, ends_check fun _ => ends_check fun _ => ends_check fun _ => ends_ok ⟨rfl, rfl, rfl⟩⟩
  | bbRdbits w => exact ⟨_, rfl, ends_check fun _ => ends_check fun _ => ends_ok ⟨rfl, rfl, rfl⟩⟩
  | bbAppend =>
    exact ⟨_, rfl, ends_check fun hcap => ends_check fun _ => ends_check fun _ =>
      (ends_readElems (space := .bytes) id (not_lt.1 hcap)).bind fun _ _ => ends_ok ⟨rfl, rfl, rfl⟩⟩
  | bbRdbytes =>
    exact ⟨_, rfl, ends_check fun _ => ends_check fun _ => ends_check fun _ => ends_ok ⟨rfl, rfl, rfl⟩⟩
  | bbTobytes => exact ⟨_, rfl, ends_check fun _ => ends_ok (sameHostSide_storeBytes _)⟩
  | b38Enc =>
    exact ⟨_, rfl, ends_check fun hcap => ends_check fun _ =>
      (ends_readElems (space := .bytes) id (not_lt.1 hcap)).bind fun _ _ => ends_ok (sameHostSide_storeChars _)⟩
  | b38Dec =>
    exact ⟨_, rfl, ends_check fun hcap => ends_check fun _ => ends_check fun _ =>
      (ends_readElems (space := .chars) id (not_lt.1 hcap)).bind fun text _ =>
        (ends_b38dec text).bind fun _ _ => ends_ok (sameHostSide_storeBytes _)⟩
  | vhCompute => exact ⟨_, rfl, (ends_vdigits id).bind fun _ _ => ends_ok ⟨rfl, rfl, rfl⟩⟩
  | vhValidate => exact ⟨_, rfl, (ends_vdigits id).bind fun _ _ => ends_ok ⟨rfl, rfl, rfl⟩⟩
  | vhAppend => exact ⟨_, rfl, (ends_vdigits id).bind fun _ _ => ends_check fun _ => ends_ok ⟨rfl, rfl, rfl⟩⟩
  | pcEncqr =>
    exact ⟨_, rfl, ends_check fun _ => ends_check fun _ => ends_check fun hcap => ends_check fun _ =>
      ends_check fun _ => ends_check fun _ => ends_check fun _ => ends_check fun _ => ends_check fun _ =>
        (ends_readElems (space := .tlv) id (not_lt.1 hcap)).bind fun _ _ => ends_ok (sameHostSide_storeChars _)⟩
  | pcEncman =>
    exact ⟨_, rfl, ends_check fun _ => ends_check fun _ => ends_check fun _ => ends_check fun _ =>
      ends_ok (sameHostSide_storeChars _)⟩
  | pcParse strict =>
    exact ⟨_, rfl, ends_check fun hcap => (ends_readElems (space := .chars) id (not_lt.1 hcap)).bind fun text _ =>
      ends_ite (ends_qrParse strict _ s) (ends_ite (ends_manualParse _ s) (ends_raiseErr _))⟩

/-- What a command can do: answer a state that differs in the block's state alone, or stop on an unwritten operand. -/
theorem exec_cases (i : Instr) (s : State) :
    (∃ t, exec i s = .next t ∧ SameHostSide s t) ∨ (∃ f, exec i s = .fault f ∧ UninitOperand i s f) := by
  obtain ⟨r, hx, hr⟩ := exec_ends i s
  rw [hx]
  rcases r with ⟨e | f⟩ | s'
  · exact .inl ⟨_, rfl, rfl, rfl, rfl⟩
  · exact .inr ⟨f, rfl, hr⟩
  · obtain ⟨hcfg, hhost, hresp⟩ := (hr : SameHostSide s s')
    exact .inl ⟨_, rfl, hcfg, hhost, hresp⟩

/-- Settles O13: with its operands written a command has nothing to stop on. -/
theorem writtenOperandsComplete : Obligations.WrittenOperandsComplete := by
  intro i s hw
  rcases exec_cases i s with ⟨t, ht, -⟩ | ⟨f, -, hnw, -⟩
  · exact ⟨t, ht⟩
  · exact absurd hw hnw

/-! ## What a step can do -/

/-- A state one access on: the parameters stay, the list has the accesses `rest`, and at most one response is new. -/
structure OneAccessOn (s : State) (rest : List HostAccess) (t : State) : Prop where
  cfg : t.cfg = s.cfg
  host : t.host = rest
  responses : ∃ r, t.responses = s.responses ++ r ∧ r.length ≤ 1

section
variable {s t : State}

theorem oneAccessOn_of_sameHostSide {rest : List HostAccess} (h : SameHostSide (s.setHost rest) t) :
    OneAccessOn s rest t :=
  ⟨h.cfg, h.host, [], by simpa using h.responses, Nat.zero_le 1⟩

/-- A register write leaves the model's own state. -/
theorem sameHostSide_regWrite (s : State) (n : RegNum) (v : Word) : SameHostSide s (regWrite s n v) := by
  rw [regWrite_frame (s := s) (n := n) (v := v) rfl]
  exact ⟨rfl, rfl, rfl⟩

theorem sameHostSide_bufWrite (s : State) (space : Space) (i : Nat) (v : Byte) :
    SameHostSide s (bufWrite s space i v) := by
  rw [bufWrite_frame (s := s) (space := space) (i := i) (v := v) rfl]
  exact ⟨rfl, rfl, rfl⟩

/-- What an access other than a command can do: it is done, or it is a read of an unwritten element (R64, R65). -/
theorem performAccess_cases (a : HostAccess) (s : State) (rest : List HostAccess) :
    (∃ t, performAccess a (s.setHost rest) = .next t ∧ OneAccessOn s rest t) ∨
    (∃ f, performAccess a (s.setHost rest) = .fault f ∧ UninitElement s f) := by
  cases a with
  | regRead n => exact .inl ⟨_, rfl, rfl, rfl, _, rfl, le_rfl⟩
  | regWrite n v => exact .inl ⟨_, rfl, oneAccessOn_of_sameHostSide (sameHostSide_regWrite _ n v)⟩
  | bufRead space i =>
    simp only [performAccess, bufRead_setHost]
    rcases bufRead_cases s space i with ⟨-, hr⟩ | ⟨-, v, -, hr⟩ | ⟨hi, hn, hr⟩ <;> rw [hr]
    · exact .inl ⟨_, rfl, rfl, rfl, _, rfl, le_rfl⟩
    · exact .inl ⟨_, rfl, rfl, rfl, _, rfl, le_rfl⟩
    · exact .inr ⟨_, rfl, space, i, rfl, hi, hn⟩
  | bufWrite space i v => exact .inl ⟨_, rfl, oneAccessOn_of_sameHostSide (sameHostSide_bufWrite _ space i v)⟩
  | reset => exact .inl ⟨_, rfl, oneAccessOn_of_sameHostSide ⟨rfl, rfl, rfl⟩⟩

theorem uninitElement_setHost {rest : List HostAccess} {f : Fault} (h : UninitElement (s.setHost rest) f) :
    UninitElement s f := by
  obtain ⟨space, j, hf, hj, hn⟩ := h
  exact ⟨space, j, hf, by rwa [cap_setHost] at hj, by rwa [mem_setHost] at hn⟩

/-- What a step can do: take at most the oldest access off the list, or stop on an unwritten element (R66, R226). -/
theorem step_cases (s : State) :
    (∃ t, step s = .next t ∧ OneAccessOn s s.host.tail t) ∨ (∃ f, step s = .fault f ∧ UninitElement s f) := by
  rcases fetch_cases s with ⟨hs, -⟩ | ⟨w, rest, hs, hf⟩ | ⟨a, rest, hs, -, hf⟩
  · exact .inl ⟨s, step_idle hs, rfl, by rw [hs]; rfl, [], (List.append_nil _).symm, Nat.zero_le 1⟩
  · rw [hs, List.tail_cons]
    cases hd : decode w with
    | ok i =>
      rw [step_command hs hd]
      rcases exec_cases i (s.setHost rest) with ⟨t, ht, hsame⟩ | ⟨f, hx, -, hf⟩
      · exact .inl ⟨t, ht, oneAccessOn_of_sameHostSide hsame⟩
      · exact .inr ⟨f, hx, uninitElement_setHost hf⟩
    | error e =>
      refine .inl ⟨(s.setHost rest).setErr .illegalCommand, ?_, oneAccessOn_of_sameHostSide ⟨rfl, rfl, rfl⟩⟩
      simp only [step, hf, hd, rejectCommand_eq]
  · rw [hs, List.tail_cons, step_access hf]
    exact performAccess_cases a s rest

end

/-- Settles O7: the first case of `step_cases`. -/
theorem stepConsumesOneAccess : Obligations.StepConsumesOneAccess := by
  intro s t hx
  rcases step_cases s with ⟨t', ht, h⟩ | ⟨f, hf, -⟩
  · rw [ht] at hx
    cases hx
    exact ⟨h.cfg, h.host, h.responses⟩
  · rw [hf] at hx
    cases hx

/-- Settles O12: the second case of `step_cases`; there is no third. -/
theorem onlyUninitReadStopsAStep : Obligations.OnlyUninitReadStopsAStep := by
  intro s
  rcases step_cases s with ⟨t, ht, -⟩ | ⟨f, hf, h⟩
  · rw [ht]
    exact ⟨fun _ => nofun, fun _ => nofun⟩
  · rw [hf]
    refine ⟨fun _ => nofun, fun f' hf' => ?_⟩
    cases hf'
    exact h

/-! ## An unwritten operand stops a command -/

/-- A read of a sequence with an unwritten element stops on the first one (R65; log 11). -/
theorem readElems_unwritten {s : State} {space : Space} {n k : Nat} (hk : k < n) (hn : (s.mem space).read k = none) :
    ∃ j, j ≤ k ∧ (s.mem space).read j = none ∧ readElems s space n = .error (.fault (.uninitRead space j)) := by
  rcases readFrom_cases space (s.mem space) n 0 with ⟨l, -, hl, hr⟩ | ⟨j, -, hj, hbelow, he⟩
  · have hlen := hr k hk
    rw [Nat.zero_add, hn, eq_comm, List.getElem?_eq_none_iff] at hlen
    omega
  · rw [Nat.zero_add] at hj he
    refine ⟨j, Nat.le_of_not_lt fun hlt => ?_, hj, he⟩
    simpa [hn] using hbelow k hlt

section
variable {s : State} {e : Stop}

/-! Under the checks that its pseudocode makes before the read (log 11), a command ends as its read ends. -/

theorem execBbAppend_stop (hn : s.blen.toNat ≤ s.cfg.byteCap) (ha : s.stream.length % 8 = 0)
    (hcap : s.stream.length + 8 * s.blen.toNat ≤ s.cfg.bbCapBits) (hr : readElems s .bytes s.blen.toNat = .error e) :
    execBbAppend s = commit s (.error e) := by
  simp only [execBbAppend, raiseIf_bind, not_lt.2 hn, ha, ne_eq, not_true_eq_false, not_lt.2 hcap, if_false, hr,
    except_error_bind]

theorem execB38Enc_stop (hn : s.blen.toNat ≤ s.cfg.byteCap) (hcap : b38len s.blen.toNat ≤ s.cfg.charCap)
    (hr : readElems s .bytes s.blen.toNat = .error e) : execB38Enc s = commit s (.error e) := by
  simp only [execB38Enc, raiseIf_bind, not_lt.2 hn, not_lt.2 hcap, if_false, hr, except_error_bind]

theorem execB38Dec_stop (hn : s.clen.toNat ≤ s.cfg.charCap) (hl : ¬ (s.clen.toNat % 5 = 1 ∨ s.clen.toNat % 5 = 3))
    (hcap : b38bytes s.clen.toNat ≤ s.cfg.byteCap) (hr : readElems s .chars s.clen.toNat = .error e) :
    execB38Dec s = commit s (.error e) := by
  simp only [execB38Dec, raiseIf_bind, not_lt.2 hn, hl, not_lt.2 hcap, if_false, hr, except_error_bind]

theorem vdigits_stop (hn : s.clen.toNat ≤ s.cfg.charCap) (hr : readElems s .chars s.clen.toNat = .error e) :
    vdigits s = .error e := by
  simp only [vdigits, raiseIf_bind, not_lt.2 hn, if_false, hr, except_error_bind]

theorem execPcParse_stop (strict : Bool) (hn : s.clen.toNat ≤ s.cfg.charCap)
    (hr : readElems s .chars s.clen.toNat = .error e) : execPcParse strict s = commit s (.error e) := by
  simp only [execPcParse, raiseIf_bind, not_lt.2 hn, if_false, hr, except_error_bind]

theorem execPcEncqr_stop (hq : QrEncodable s.cfg s.record s.tlvlen.toNat)
    (hcap : 3 + b38len (11 + s.tlvlen.toNat) ≤ s.cfg.charCap) (hr : readElems s .tlv s.tlvlen.toNat = .error e) :
    execPcEncqr s = commit s (.error e) := by
  obtain ⟨hversion, hfit, hn, hvalid⟩ := hq
  simp only [not_or, not_not] at hvalid
  obtain ⟨hflow, hpasscode, hpad, htlv, hdisc⟩ := hvalid
  have hwide : qrFieldTooWide s.record = false :=
    Bool.eq_false_iff.2 fun hw => (qrFieldTooWide_iff s.record).1 hw hfit
  have hpass : passcodeOk s.cfg s.record.passcode.toNat = true := (passcodeOk_iff _ _).2 hpasscode
  simp only [execPcEncqr, raiseIf_bind, hversion, hwide, not_lt.2 hn, hflow, hpass, hpad, htlv, hdisc, not_lt.2 hcap,
    ne_eq, not_true_eq_false, Bool.false_eq_true, if_false, hr, except_error_bind]

end

/-- Settles O14: the operand's read stops on its first unwritten element, and each command comes to that read. -/
theorem unwrittenOperandStops : Obligations.UnwrittenOperandStops := by
  refine fun s k => ⟨fun hk hnone => ⟨fun hn ha hcap => ?_, fun hn hcap => ?_⟩, fun hk hnone hn => ?_,
    fun hk hnone hq hcap => ?_⟩
  · obtain ⟨j, hj, hread, hr⟩ := readElems_unwritten (space := .bytes) hk hnone
    exact ⟨j, hj, hread, execBbAppend_stop hn ha hcap hr⟩
  · obtain ⟨j, hj, hread, hr⟩ := readElems_unwritten (space := .bytes) hk hnone
    exact ⟨j, hj, hread, execB38Enc_stop hn hcap hr⟩
  · obtain ⟨j, hj, hread, hr⟩ := readElems_unwritten (space := .chars) hk hnone
    have hd := vdigits_stop hn hr
    refine ⟨j, hj, hread, ?_, ?_, ?_, fun strict => execPcParse_stop strict hn hr,
      fun h1 h3 hcap => execB38Dec_stop hn (not_or.2 ⟨h1, h3⟩) hcap hr⟩
    · rw [exec, execVhCompute, hd]; rfl
    · rw [exec, execVhValidate, hd]; rfl
    · rw [exec, execVhAppend, hd]; rfl
  · obtain ⟨j, hj, hread, hr⟩ := readElems_unwritten (space := .tlv) hk hnone
    exact ⟨j, hj, hread, execPcEncqr_stop hq hcap hr⟩

end Sys2Proof.Machine

/-! SUPPORT. Command words by their fields (30_encoding.md R81): what a row of R85's table accepts, that at most one row
accepts a word, and that a row's command has the word the row accepts. -/

namespace Sys2Proof.Machine

/-! ## The fields of a word -/

/-- The five fields of R81 make up the whole word. -/
theorem word_eq_iff_fields {v w : Word} :
    v = w ↔ v.extractLsb' 0 8 = w.extractLsb' 0 8 ∧ v.extractLsb' 8 1 = w.extractLsb' 8 1 ∧
      v.extractLsb' 9 7 = w.extractLsb' 9 7 ∧ v.extractLsb' 16 6 = w.extractLsb' 16 6 ∧
      v.extractLsb' 22 10 = w.extractLsb' 22 10 := by
  refine ⟨fun h => by simp only [h, and_self], ?_⟩
  simp only [← BitVec.toNat_inj, BitVec.extractLsb'_toNat, Nat.shiftRight_eq_div_pow]
  omega

theorem opcField_eq_iff {v w : Word} : opcField v = opcField w ↔ v.extractLsb' 0 8 = w.extractLsb' 0 8 :=
  BitVec.toNat_inj

theorem widthField_lt (w : Word) : widthField w < 64 := (w.extractLsb' 16 6).isLt

section
variable {width : Nat}

/-- A WIDTH shifted to its place, read at any field (R81, R88). -/
theorem toNat_extract_shiftedWidth (h : width < 64) (lo n : Nat) :
    ((BitVec.ofNat 32 width <<< 16).extractLsb' lo n).toNat = width * 2 ^ 16 / 2 ^ lo % 2 ^ n := by
  have hshift : (BitVec.ofNat 32 width <<< 16).toNat = width * 2 ^ 16 := by
    simp only [BitVec.toNat_shiftLeft, BitVec.toNat_ofNat, Nat.shiftLeft_eq]
    omega
  rw [BitVec.extractLsb'_toNat, hshift, Nat.shiftRight_eq_div_pow]

/-- A WIDTH shifted to its place is the WIDTH field and nothing else (R81, R82). -/
theorem shiftedWidth_fields (h : width < 64) :
    (BitVec.ofNat 32 width <<< 16).extractLsb' 0 8 = 0 ∧ (BitVec.ofNat 32 width <<< 16).extractLsb' 8 1 = 0 ∧
    (BitVec.ofNat 32 width <<< 16).extractLsb' 9 7 = 0 ∧
    (BitVec.ofNat 32 width <<< 16).extractLsb' 16 6 = BitVec.ofNat 6 width ∧
    (BitVec.ofNat 32 width <<< 16).extractLsb' 22 10 = 0 := by
  simp only [← BitVec.toNat_inj, toNat_extract_shiftedWidth h, BitVec.ofNat_eq_ofNat, BitVec.toNat_ofNat]
  omega

end

/-- The bits of a word that a WIDTH row frees are its WIDTH, shifted back to its place. -/
theorem and_widthMask (w : Word) : w &&& 0x003F0000 = BitVec.ofNat 32 (widthField w) <<< 16 := by
  obtain ⟨hopc, hstrict, hrsv1, hwidth, hrsv2⟩ := shiftedWidth_fields (widthField_lt w)
  rw [word_eq_iff_fields, hopc, hstrict, hrsv1, hwidth, hrsv2, widthField, BitVec.ofNat_toNat, BitVec.setWidth_eq]
  simp only [BitVec.extractLsb'_and]
  exact ⟨BitVec.and_zero, BitVec.and_zero, BitVec.and_zero, BitVec.and_allOnes, BitVec.and_zero⟩

/-- The bit of a word that PC.PARSE's row frees is its STRICT bit. -/
theorem and_strictMask (w : Word) : w &&& 0x00000100 = if strictField w then 0x00000100 else 0 :=
  BitVec.and_twoPow w 8

/-! ## What a row accepts -/

/-- The fields beside OPC hold only what R85 lets them: reserved bits are 0, and so are WIDTH and STRICT but for the
opcodes that free them. -/
def OperandFieldsLegal (w : Word) : Prop :=
  w.extractLsb' 9 7 = 0 ∧ w.extractLsb' 22 10 = 0 ∧
  (w.extractLsb' 16 6 = 0 ∨ opcField w = 0x02 ∨ opcField w = 0x03) ∧
  (w.extractLsb' 8 1 = 0 ∨ opcField w = 0x32)

theorem not_illegalWord_iff (w : Word) : ¬ illegalWord w ↔ ¬ unassignedOpc (opcField w) ∧ OperandFieldsLegal w := by
  unfold illegalWord OperandFieldsLegal
  tauto

/-- Every row of R85's table fixes OPC and the reserved fields, frees WIDTH or STRICT for its own opcode only, and
matches 0 outside OPC. -/
theorem opcodeRows_fields : ∀ r ∈ opcodeRows,
    (r.mask.extractLsb' 0 8 = BitVec.allOnes 8 ∧ r.mask.extractLsb' 9 7 = BitVec.allOnes 7 ∧
      r.mask.extractLsb' 22 10 = BitVec.allOnes 10) ∧
    (r.mask.extractLsb' 16 6 = if opcField r.pattern = 0x02 ∨ opcField r.pattern = 0x03 then 0 else BitVec.allOnes 6) ∧
    (r.mask.extractLsb' 8 1 = if opcField r.pattern = 0x32 then 0 else BitVec.allOnes 1) ∧
    (r.pattern.extractLsb' 8 1 = 0 ∧ r.pattern.extractLsb' 9 7 = 0 ∧ r.pattern.extractLsb' 16 6 = 0 ∧
      r.pattern.extractLsb' 22 10 = 0) := by decide

theorem accepts_eq_true {r : OpcodeRow} {w : Word} : r.accepts w = true ↔ w &&& r.mask = r.pattern := beq_iff_eq

theorem and_mask_eq_zero {n : Nat} (x : BitVec n) (free : Prop) [Decidable free] :
    (x &&& if free then 0 else BitVec.allOnes n) = 0 ↔ x = 0 ∨ free := by
  by_cases h : free
  · rw [if_pos h]; exact iff_of_true BitVec.and_zero (.inr h)
  · rw [if_neg h, BitVec.and_allOnes]; exact (or_iff_left h).symm

/-- A row accepts the words of its own OPC whose other fields are legal (R85, R86). -/
theorem accepts_iff {r : OpcodeRow} (hr : r ∈ opcodeRows) (w : Word) :
    r.accepts w = true ↔ opcField w = opcField r.pattern ∧ OperandFieldsLegal w := by
  obtain ⟨⟨mopc, mrsv1, mrsv2⟩, mwidth, mstrict, pstrict, prsv1, pwidth, prsv2⟩ := opcodeRows_fields r hr
  rw [accepts_eq_true, word_eq_iff_fields]
  simp only [BitVec.extractLsb'_and, mopc, mrsv1, mrsv2, mwidth, mstrict, pstrict, prsv1, pwidth, prsv2,
    BitVec.and_allOnes, and_mask_eq_zero, ← opcField_eq_iff]
  refine and_congr_right fun hopc => ?_
  rw [OperandFieldsLegal, hopc]
  tauto

/-- The opcodes of R84, in the table's order. -/
theorem opcodeRows_opcs : opcodeRows.map (fun r => opcField r.pattern) =
    [0x01, 0x02, 0x03, 0x04, 0x05, 0x06, 0x10, 0x11, 0x20, 0x21, 0x22, 0x30, 0x31, 0x32] := by decide

/-- The unassigned values of OPC are those no row has (R84, R86). -/
theorem not_unassignedOpc_iff (opc : Nat) : ¬ unassignedOpc opc ↔ ∃ r ∈ opcodeRows, opcField r.pattern = opc := by
  rw [← List.mem_map (f := fun r : OpcodeRow => opcField r.pattern), opcodeRows_opcs]
  simp only [List.mem_cons, List.not_mem_nil, or_false]
  omega

/-- R86's list is exactly the words that no row accepts. -/
theorem not_illegalWord_iff_accepts (w : Word) : ¬ illegalWord w ↔ ∃ r ∈ opcodeRows, r.accepts w = true := by
  rw [not_illegalWord_iff, not_unassignedOpc_iff]
  constructor
  · rintro ⟨⟨r, hr, hopc⟩, hlegal⟩
    exact ⟨r, hr, (accepts_iff hr w).2 ⟨hopc.symm, hlegal⟩⟩
  · rintro ⟨r, hr, ha⟩
    obtain ⟨hopc, hlegal⟩ := (accepts_iff hr w).1 ha
    exact ⟨⟨r, hr, hopc.symm⟩, hlegal⟩

/-! ## The decoder -/

/-- No two rows accept the same word: they differ in OPC (R85). -/
theorem accepts_unique {q r : OpcodeRow} {w : Word} (hq : q ∈ opcodeRows) (hr : r ∈ opcodeRows)
    (haq : q.accepts w = true) (har : r.accepts w = true) : q = r := by
  have hopcq := ((accepts_iff hq w).1 haq).1
  have hopcr := ((accepts_iff hr w).1 har).1
  have hnodup : (opcodeRows.map fun r => opcField r.pattern).Nodup := opcodeRows_opcs ▸ (by decide)
  exact List.inj_on_of_nodup_map hnodup hq hr (hopcq.symm.trans hopcr)

/-- A word decodes to the command of the row that accepts it (R85). -/
theorem decode_ok_iff {w : Word} {i : Instr} :
    decode w = .ok i ↔ ∃ r ∈ opcodeRows, r.accepts w = true ∧ r.build w = i := by
  unfold decode
  cases hf : opcodeRows.find? fun r => r.accepts w with
  | none =>
    rw [List.find?_eq_none] at hf
    exact iff_of_false nofun fun ⟨r, hr, ha, _⟩ => hf r hr ha
  | some q =>
    have hq := List.mem_of_find?_eq_some hf
    have haq : q.accepts w = true := List.find?_some (p := fun r : OpcodeRow => r.accepts w) hf
    constructor
    · intro h
      cases h
      exact ⟨q, hq, haq, rfl⟩
    · rintro ⟨r, hr, har, rfl⟩
      rw [accepts_unique hq hr haq har]

theorem decode_eq_error {w : Word} (h : illegalWord w) : decode w = .error .illegalCommand := by
  cases hd : decode w with
  | ok i =>
    obtain ⟨r, hr, ha, -⟩ := decode_ok_iff.1 hd
    exact absurd h ((not_illegalWord_iff_accepts w).2 ⟨r, hr, ha⟩)
  | error e => cases e; rfl

theorem decode_ok_of_legal {w : Word} (h : ¬ illegalWord w) : ∃ i, decode w = .ok i := by
  obtain ⟨r, hr, ha⟩ := (not_illegalWord_iff_accepts w).1 h
  exact ⟨_, decode_ok_iff.2 ⟨r, hr, ha, rfl⟩⟩

theorem step_illegal {s : State} {rest : List HostAccess} {w : Word}
    (h : s.host = .regWrite Reg.cmd.number w :: rest) (hw : illegalWord w) :
    step s = .next ((s.setHost rest).setErr .illegalCommand) := by
  simp only [step, fetch_command h, decode_eq_error hw, rejectCommand_eq]

/-! ## Encoding a decoded word -/

/-- The row's command for `w` is well-formed, and its word is the row's pattern with the bits of `w` that the row
frees. -/
def RowEncodes (w : Word) (r : OpcodeRow) : Prop :=
  (r.build w).WellFormed ∧ encode (r.build w) = r.pattern ||| (w &&& ~~~r.mask)

theorem or_and_not_allOnes (p w : Word) : p ||| (w &&& ~~~0xFFFFFFFF) = p := by
  have hmask : ~~~(0xFFFFFFFF : Word) = 0#32 := rfl
  rw [hmask, BitVec.and_zero, BitVec.or_zero]

theorem encode_pcParse (strict : Bool) :
    encode (.pcParse strict) = 0x00000032 ||| if strict then 0x00000100 else 0 := by
  cases strict <;> rfl

theorem opcodeRows_encode (w : Word) : ∀ r ∈ opcodeRows, RowEncodes w r := by
  have hfits := decide_eq_true (widthField_lt w)
  have hwidth (p : Word) := congrArg (p ||| ·) (and_widthMask w).symm
  have hstrict := (encode_pcParse (strictField w)).trans (congrArg (0x00000032 ||| ·) (and_strictMask w).symm)
  have hfixed (p : Word) := (or_and_not_allOnes p w).symm
  simp only [opcodeRows, List.forall_mem_cons]
  exact ⟨⟨rfl, hfixed _⟩, ⟨hfits, hwidth _⟩, ⟨hfits, hwidth _⟩, ⟨rfl, hfixed _⟩, ⟨rfl, hfixed _⟩, ⟨rfl, hfixed _⟩,
    ⟨rfl, hfixed _⟩, ⟨rfl, hfixed _⟩, ⟨rfl, hfixed _⟩, ⟨rfl, hfixed _⟩, ⟨rfl, hfixed _⟩, ⟨rfl, hfixed _⟩,
    ⟨rfl, hfixed _⟩, ⟨rfl, hstrict⟩, nofun⟩

/-- A word that a row accepts is its pattern with the bits it frees, so its command has that very word (R85). -/
theorem wellFormed_encode_of_decode {w : Word} {i : Instr} (h : decode w = .ok i) : i.WellFormed ∧ encode i = w := by
  obtain ⟨r, hr, ha, rfl⟩ := decode_ok_iff.1 h
  obtain ⟨hwf, henc⟩ := opcodeRows_encode w r hr
  refine ⟨hwf, ?_⟩
  calc encode (r.build w)
      = (w &&& r.mask) ||| (w &&& ~~~r.mask) := by rw [henc, accepts_eq_true.1 ha]
    _ = w := by rw [← BitVec.and_or_distrib_left, BitVec.or_not_self, BitVec.and_allOnes]

/-! ## Decoding an encoded command -/

/-- A row that frees WIDTH accepts its pattern with any WIDTH that fits, and reads that WIDTH back (R82). -/
theorem accepts_withWidth {r : OpcodeRow} (hr : r ∈ opcodeRows)
    (hfree : opcField r.pattern = 0x02 ∨ opcField r.pattern = 0x03) {width : Nat} (h : width < 64) :
    r.accepts (r.pattern ||| (BitVec.ofNat 32 width <<< 16)) = true ∧
      widthField (r.pattern ||| (BitVec.ofNat 32 width <<< 16)) = width := by
  obtain ⟨-, -, -, pstrict, prsv1, pwidth, prsv2⟩ := opcodeRows_fields r hr
  obtain ⟨fopc, fstrict, frsv1, fwidth, frsv2⟩ := shiftedWidth_fields h
  have hopc : opcField (r.pattern ||| (BitVec.ofNat 32 width <<< 16)) = opcField r.pattern := by
    rw [opcField_eq_iff, BitVec.extractLsb'_or, fopc]
    exact BitVec.or_zero
  constructor
  · rw [accepts_iff hr, OperandFieldsLegal, hopc]
    simp only [BitVec.extractLsb'_or, pstrict, prsv1, prsv2, fstrict, frsv1, frsv2]
    exact ⟨trivial, rfl, rfl, .inr hfree, .inl rfl⟩
  · rw [widthField, BitVec.extractLsb'_or, pwidth, fwidth]
    simp only [BitVec.ofNat_eq_ofNat, BitVec.zero_or, BitVec.toNat_ofNat]
    omega

theorem decode_encode_bbWrbits {width : Nat} (h : width < 64) :
    decode (encode (.bbWrbits width)) = .ok (.bbWrbits width) := by
  have hr : opcodeRows[1] ∈ opcodeRows := List.getElem_mem _
  obtain ⟨ha, hw⟩ := accepts_withWidth hr (.inl rfl) h
  exact decode_ok_iff.2 ⟨_, hr, ha, congrArg Instr.bbWrbits hw⟩

theorem decode_encode_bbRdbits {width : Nat} (h : width < 64) :
    decode (encode (.bbRdbits width)) = .ok (.bbRdbits width) := by
  have hr : opcodeRows[2] ∈ opcodeRows := List.getElem_mem _
  obtain ⟨ha, hw⟩ := accepts_withWidth hr (.inr rfl) h
  exact decode_ok_iff.2 ⟨_, hr, ha, congrArg Instr.bbRdbits hw⟩

theorem decode_encode {i : Instr} (h : i.WellFormed) : decode (encode i) = .ok i := by
  cases i with
  | bbWrbits width => exact decode_encode_bbWrbits (of_decide_eq_true h)
  | bbRdbits width => exact decode_encode_bbRdbits (of_decide_eq_true h)
  | pcParse strict => cases strict <;> decide
  | _ => decide

/-! ## The obligations -/

/-- Settles O1: every command's word is accepted by the command's own row, which builds the command back. -/
theorem decodeInvertsEncode : Obligations.DecodeInvertsEncode := fun _ => decode_encode

/-- Settles O2: a row frees exactly the bits its command carries. -/
theorem encodeInvertsDecode : Obligations.EncodeInvertsDecode := fun _ _ => wellFormed_encode_of_decode

/-- Settles O3: R86's list is the complement of R85's table, and a word outside the table is rejected. -/
theorem illegalWordOnlySetsStatus : Obligations.IllegalWordOnlySetsStatus :=
  ⟨fun _ _ _ => step_illegal, fun _ => decode_ok_of_legal⟩

/-- Settles O4: each written-out word is the word of its command. -/
theorem writtenOutWordsDecode : Obligations.WrittenOutWordsDecode :=
  ⟨decode_encode (i := .bbClear) rfl, decode_encode (i := .bbWrbits 3) rfl, decode_encode (i := .bbRdbits 63) rfl,
    decode_encode (i := .b38Enc) rfl, decode_encode (i := .vhAppend) rfl, decode_encode (i := .pcParse false) rfl,
    decode_encode (i := .pcParse true) rfl⟩

end Sys2Proof.Machine

/-! SUPPORT. The BitBuffer commands (40_bitbuffer.md R100 to R106): each as its checks in the rule's order and its
effect, what the effects leave in S, RES0 and BYTES bit by bit, and what no BitBuffer command touches. -/

namespace Sys2Proof.Machine

/-! ## What the commands do not touch -/

/-- The commands of 40_bitbuffer.md. -/
def IsBitBuffer (i : Instr) : Prop :=
  i = .bbClear ∨ (∃ w, i = .bbWrbits w) ∨ (∃ w, i = .bbRdbits w) ∨ i = .bbAppend ∨ i = .bbRdbytes ∨ i = .bbTobytes

/-- The state R100 puts out of the BitBuffer commands' reach, replaced. -/
def withRecordAndText (r : Record) (c : Memory) (cl : Word) (v : Memory) (vl : Word) (s : State) : State :=
  { s with record := r, chars := c, clen := cl, tlv := v, tlvlen := vl }

section
variable {i : Instr} {s t : State}

/-- No operand of a BitBuffer command is replaced, and its writes are to other fields. -/
theorem IsBitBuffer.carries (hi : IsBitBuffer i) (r : Record) (c : Memory) (cl : Word) (v : Memory) (vl : Word) :
    Carries (withRecordAndText r c cl v vl) (exec i) := by
  obtain rfl | ⟨w, rfl⟩ | ⟨w, rfl⟩ | rfl | rfl | rfl := hi
  · exact ⟨fun s => .ok ((s.setStream []).setRpos 0), fun _ => rfl, fun _ => rfl⟩
  all_goals exact ⟨_, fun _ => rfl, fun s => by simp only [map_bind, map_pure]; rfl⟩

theorem IsBitBuffer.exec_withRecordAndText (hi : IsBitBuffer i) (s : State) (r : Record) (c : Memory) (cl : Word)
    (v : Memory) (vl : Word) :
    exec i (withRecordAndText r c cl v vl s) = mapNext (withRecordAndText r c cl v vl) (exec i s) :=
  (hi.carries r c cl v vl).apply_eq (fun _ _ => rfl) s

/-- The frame is the noninterference for the values the state already has. -/
theorem IsBitBuffer.next_eq (hi : IsBitBuffer i) (hx : exec i s = .next t) :
    t = withRecordAndText s.record s.chars s.clen s.tlv s.tlvlen t := by
  have h := hi.exec_withRecordAndText s s.record s.chars s.clen s.tlv s.tlvlen
  rw [hx] at h
  exact Host.Outcome.next.inj (hx.symm.trans h)

theorem exec_stream_cleared_or_appended (hx : exec i s = .next t) :
    (i = .bbClear ∧ t.stream = []) ∨ ∃ added, t.stream = s.stream ++ added := by
  obtain ⟨hclear, happend, -⟩ := streamOnlyGrowsUntilClear i s t hx
  by_cases hi : i = .bbClear
  · exact .inl ⟨hi, (hclear hi).1⟩
  · obtain ⟨⟨added, hs, -⟩, -⟩ := happend hi
    exact .inr ⟨added, hs⟩

end

/-- Settles O26: the BitBuffer commands carry along any record, CHARS, CLEN, TLV and TLVLEN, so also the state's own. -/
theorem bitBufferCommandsTouchOnlyTheirState : Obligations.BitBufferCommandsTouchOnlyTheirState := by
  intro i s r c cl v vl hi
  refine ⟨IsBitBuffer.exec_withRecordAndText hi s r c cl v vl, fun t hx => ?_⟩
  have hstream := exec_stream_cleared_or_appended hx
  rw [IsBitBuffer.next_eq hi hx]
  exact ⟨rfl, rfl, rfl, rfl, rfl, hstream⟩

/-! ## Each command as its checks and its effect -/

section
variable (s : State)

theorem execBbWrbits_eq (w : Nat) : execBbWrbits w s =
    if w < 1 ∨ 32 < w then .next (s.setErr .range)
    else if 2 ^ w ≤ s.arg0.toNat then .next (s.setErr .range)
    else if s.cfg.bbCapBits < s.stream.length + w then .next (s.setErr .capacity)
    else .next ((s.setStream (s.stream ++ bitsOf s.arg0.toNat w)).setErr .none) := by
  simp only [execBbWrbits, raiseIf_bind, except_pure, commit_ite, commit_raise, commit_ok]

theorem execBbRdbits_eq (w : Nat) : execBbRdbits w s =
    if w < 1 ∨ 32 < w then .next (s.setErr .range)
    else if s.stream.length - s.rpos < w then .next (s.setErr .truncatedData)
    else .next (((s.setRes0 (BitVec.ofNat 32 (fieldAt s.stream s.rpos w))).setRpos (s.rpos + w)).setErr .none) := by
  simp only [execBbRdbits, raiseIf_bind, except_pure, commit_ite, commit_raise, commit_ok]

theorem execBbAppend_eq : execBbAppend s =
    if s.cfg.byteCap < s.blen.toNat then .next (s.setErr .capacity)
    else if s.stream.length % 8 ≠ 0 then .next (s.setErr .alignment)
    else if s.cfg.bbCapBits < s.stream.length + 8 * s.blen.toNat then .next (s.setErr .capacity)
    else commit s (readElems s .bytes s.blen.toNat >>= fun data => .ok (s.setStream (s.stream ++ bitImage data))) := by
  simp only [execBbAppend, raiseIf_bind, except_pure, commit_ite, commit_raise]

theorem execBbRdbytes_eq : execBbRdbytes s =
    if s.cfg.byteCap < s.arg0.toNat then .next (s.setErr .capacity)
    else if s.rpos % 8 ≠ 0 then .next (s.setErr .alignment)
    else if s.stream.length - s.rpos < 8 * s.arg0.toNat then .next (s.setErr .truncatedData)
    else .next (((storeBytes s (streamBytes s.stream s.rpos s.arg0.toNat)).setRpos
      (s.rpos + 8 * s.arg0.toNat)).setErr .none) := by
  simp only [execBbRdbytes, raiseIf_bind, except_pure, commit_ite, commit_raise, commit_ok]

theorem execBbTobytes_eq : execBbTobytes s =
    if s.cfg.byteCap < (s.stream.length + 7) / 8 then .next (s.setErr .capacity)
    else .next ((storeBytes s (byteImage s.stream)).setErr .none) := by
  simp only [execBbTobytes, raiseIf_bind, except_pure, commit_ite, commit_raise, commit_ok]

end

/-! ## What the effects leave -/

theorem getElem?_append_past (a b : Bits) (j : Nat) : (a ++ b)[a.length + j]? = b[j]? := by
  rw [List.getElem?_append_right (Nat.le_add_right _ j), Nat.add_sub_cancel_left]

theorem getElem?_eq_some_getD {stream : Bits} {k : Nat} (h : k < stream.length) :
    stream[k]? = some (stream[k]?.getD false) := by
  rw [List.getElem?_eq_getElem h, Option.getD_some]

/-- A field of at most 32 bits as the word that RES0 gets: its bits, then zeros. -/
theorem getLsbD_fieldWord {stream : Bits} {pos width : Nat} (hw : width ≤ 32) (j : Nat) :
    (BitVec.ofNat 32 (fieldAt stream pos width)).getLsbD j =
      (decide (j < width) && stream[pos + j]?.getD false) := by
  rw [BitVec.getLsbD_ofNat, testBit_fieldAt, ← Bool.and_assoc, ← Bool.decide_and]
  congr 2
  exact propext (and_iff_right_of_imp fun hj => Nat.lt_of_lt_of_le hj hw)

section
variable (s : State) {vs : List Byte} {a : Nat}

theorem read_storeBytes_below (h : a < vs.length) : (storeBytes s vs).bytes.read a = some vs[a] := by
  rw [storeBytes_eq, Memory.read_writeSeq_zero, if_pos h, List.getElem?_eq_getElem h]

theorem read_storeBytes_above (h : vs.length ≤ a) : (storeBytes s vs).bytes.read a = s.bytes.read a := by
  rw [storeBytes_eq, Memory.read_writeSeq_zero, if_neg (Nat.not_lt.2 h)]

end

/-! ## The obligations -/

/-- Settles O29: the views of an empty S at cursor 0 are 0. -/
theorem clearEmptiesTheBitBuffer : Obligations.ClearEmptiesTheBitBuffer :=
  ⟨decode_encode (i := .bbClear) rfl, fun s => ⟨((s.setStream []).setRpos 0).setErr .none, rfl, rfl,
    regRead_number _ .bbWlen, regRead_number _ .bbRpos, regRead_number _ .bbRemain⟩⟩

/-- Settles O30: the bits appended are those of `bitsOf`. -/
theorem wrbitsAppendsOrRaises : Obligations.WrbitsAppendsOrRaises := by
  intro s w
  simp only [exec, execBbWrbits_eq]
  refine ⟨decode_encode_bbWrbits, fun hrange => if_pos hrange, fun h1 h32 hbig => ?_, fun h1 h32 hfits hfull => ?_,
    fun h1 h32 hfits hroom => ?_⟩
  · rw [if_neg (by omega), if_pos hbig]
    rfl
  · rw [if_neg (by omega), if_neg (by omega), if_pos hfull]
    rfl
  · rw [if_neg (by omega), if_neg (by omega), if_neg (by omega)]
    refine ⟨_, rfl, rfl, ?_, fun j hj => List.getElem?_append_left hj, fun j hj => ?_⟩
    · simp
    · calc (s.stream ++ bitsOf s.arg0.toNat w)[s.stream.length + j]?
        _ = (bitsOf s.arg0.toNat w)[j]? := getElem?_append_past ..
        _ = some (s.arg0.getLsbD j) := by rw [getElem?_bitsOf, if_pos hj]; rfl

/-- Settles O31: RES0 gets the field at RPOS, every bit of which is in S. -/
theorem rdbitsConsumesOrRaises : Obligations.RdbitsConsumesOrRaises := by
  intro s w
  simp only [exec, execBbRdbits_eq]
  refine ⟨decode_encode_bbRdbits, fun hrange => if_pos hrange, fun h1 h32 hshort => ?_, fun h1 h32 hlong => ?_⟩
  · rw [if_neg (by omega), if_pos (by omega)]
    rfl
  · rw [if_neg (by omega), if_neg (by omega)]
    refine ⟨_, rfl, rfl, fun j hj => ?_, fun j hj => ?_⟩
    · simp only [State.setErr_res0, State.setRpos_res0, State.setRes0_res0, getLsbD_fieldWord h32, hj, decide_true,
        Bool.true_and]
      exact getElem?_eq_some_getD (by omega)
    · simp only [State.setErr_res0, State.setRpos_res0, State.setRes0_res0, getLsbD_fieldWord h32, Nat.not_lt.2 hj,
        decide_false, Bool.false_and]

/-- Settles O32: the bits appended are the bit image of the bytes read. -/
theorem appendAddsBytesOrRaises : Obligations.AppendAddsBytesOrRaises := by
  refine ⟨decode_encode (i := .bbAppend) rfl, fun s => ?_⟩
  simp only [exec, execBbAppend_eq]
  refine ⟨fun hmany => if_pos hmany, fun hn hodd => ?_, fun hn heven hfull => ?_, fun l hl hheld hn heven hroom => ?_⟩
  · rw [if_neg (by omega), if_pos hodd]
    rfl
  · rw [if_neg (by omega), if_neg (not_not.2 heven), if_pos hfull]
    rfl
  · rw [if_neg (by omega), if_neg (not_not.2 heven), if_neg (by omega), readElems_holds (space := .bytes) hl.symm hheld]
    refine ⟨_, rfl, rfl, ?_, fun j hj => List.getElem?_append_left hj, fun k j _ hj => ?_⟩
    · simp
    · calc (s.stream ++ bitImage l)[s.stream.length + 8 * k + j]?
        _ = (bitImage l)[8 * k + j]? := by rw [Nat.add_assoc, getElem?_append_past]
        _ = l[k]?.map (·.getLsbD j) := getElem?_bitImage l k j hj

/-- Settles O33: BYTES gets the bytes of S from RPOS on, every bit of which is in S. -/
theorem rdbytesMovesBytesOrRaises : Obligations.RdbytesMovesBytesOrRaises := by
  refine ⟨decode_encode (i := .bbRdbytes) rfl, fun s => ?_⟩
  simp only [exec, execBbRdbytes_eq]
  refine ⟨fun hmany => if_pos hmany, fun hn hodd => ?_, fun hn heven hshort => ?_, fun hn heven hlong => ?_⟩
  · rw [if_neg (by omega), if_pos hodd]
    rfl
  · rw [if_neg (by omega), if_neg (not_not.2 heven), if_pos hshort]
    rfl
  · rw [if_neg (by omega), if_neg (not_not.2 heven), if_neg (by omega)]
    have hlen := length_streamBytes s.stream s.rpos s.arg0.toNat
    refine ⟨_, rfl, ?_, fun a ha => ⟨_, read_storeBytes_below s (ha.trans_eq hlen.symm), fun j hj => ?_⟩,
      fun a ha => read_storeBytes_above s (hlen.trans_le ha)⟩
    · simp only [storeBytes_eq, hlen, BitVec.ofNat_toNat, BitVec.setWidth_eq]
      rfl
    · rw [getElem_streamBytes, getLsbD_fieldAt, decide_eq_true hj, Bool.true_and]
      exact getElem?_eq_some_getD (by omega)

/-- Settles O34: BYTES gets the byte image of S. -/
theorem tobytesExportsTheImageOrRaises : Obligations.TobytesExportsTheImageOrRaises := by
  refine ⟨decode_encode (i := .bbTobytes) rfl, fun s => ?_⟩
  simp only [exec, execBbTobytes_eq]
  refine ⟨fun hmany => if_pos hmany, fun hn => ?_⟩
  rw [if_neg (by omega)]
  have hlen := length_byteImage s.stream
  refine ⟨_, rfl, ?_, fun a ha => ⟨_, read_storeBytes_below s (ha.trans_eq hlen.symm), fun j hj => ?_⟩,
    fun a ha => read_storeBytes_above s (hlen.trans_le ha)⟩
  · simp only [storeBytes_eq, hlen]
    rfl
  · rw [getElem_byteImage, getLsbD_fieldAt, decide_eq_true hj, Bool.true_and]

end Sys2Proof.Machine

/-! SUPPORT. Base38 (41_base38.md R130 to R137): which codes have a value, decoding as the inverse of encoding, and the
two commands, each as its checks in the rule's order and its effect. -/

namespace Sys2Proof.Machine

/-! ## Characters and their values -/

theorem mem_alphabet38_iff {c : Byte} : c ∈ alphabet38 ↔ in38 c = true := by
  rw [in38, val38, List.findIdx?_isSome, List.any_eq_true]
  simp only [beq_iff_eq, exists_eq_right]

theorem all_in38_iff {t : List Byte} : t.all in38 = true ↔ ∀ c ∈ t, c ∈ alphabet38 := by
  simp only [List.all_eq_true, mem_alphabet38_iff]

theorem val38_eq_some_iff {c : Byte} {k : Nat} : val38 c = some k ↔ k < 38 ∧ chr38 k = c := by
  refine ⟨val38_some, ?_⟩
  rintro ⟨hk, rfl⟩
  exact val38_chr38 hk

theorem in38_iff_chr38 {c : Byte} : in38 c = true ↔ ∃ k, k < 38 ∧ chr38 k = c := by
  simp only [in38, Option.isSome_iff_exists, val38_eq_some_iff]

/-! ## Encoding a group -/

/-- A sequence too short for a full group is its own tail group (R132). -/
theorem b38enc_tail {g : List Byte} (h : g.length < 3) : b38enc g = digits38 (groupVal g) (b38len g.length) := by
  match g, h with
  | [], _ => rfl
  | [_], _ => simp [b38enc, b38len]
  | [_, _], _ => simp [b38enc, b38len]

theorem b38enc_group_append {g : List Byte} (h : g.length = 3) (rest : List Byte) :
    b38enc (g ++ rest) = digits38 (groupVal g) 5 ++ b38enc rest := by
  match g, h with
  | [_, _, _], _ => rfl

theorem b38len_mod_five (n : Nat) : ¬ (b38len n % 5 = 1 ∨ b38len n % 5 = 3) := by
  rw [b38len]
  split
  · omega
  · split <;> omega

theorem all_in38_b38enc (b : List Byte) : (b38enc b).all in38 = true := by
  induction b using b38enc.induct with
  | case1 => rfl
  | case2 b0 => exact all_in38_digits38 _ _
  | case3 b0 b1 => exact all_in38_digits38 _ _
  | case4 b0 b1 b2 rest ih => rw [b38enc, List.all_append, all_in38_digits38, ih, Bool.and_true]

/-! ## Decoding inverts encoding -/

/-- Decoding the digits of a group gives the group, when they are enough for every value of its bytes. -/
theorem decodeGroup_digits38 (g : List Byte) {m : Nat} (hm : 2 ^ (8 * g.length) ≤ 38 ^ m) :
    decodeGroup (digits38 (groupVal g) m) g.length = .ok g := by
  have hval : charsVal (digits38 (groupVal g) m) = groupVal g := by
    rw [charsVal_digits38, Nat.mod_eq_of_lt ((groupVal_lt g).trans_le hm)]
  rw [decodeGroup_cases, hval, if_neg (Nat.not_le.2 (groupVal_lt g)), bytesOf_groupVal]

/-- The characters of a group that decodes are the digits of the bytes it gives. -/
theorem digits38_of_decodeGroup {cs g : List Byte} {n : Nat} (hcs : cs.all in38 = true)
    (h : decodeGroup cs n = .ok g) : digits38 (groupVal g) cs.length = cs := by
  rw [decodeGroup_cases] at h
  obtain ⟨hfits, hg⟩ := raiseIf_ok h
  cases hg
  rw [groupVal_bytesOf, Nat.mod_eq_of_lt (Nat.not_le.1 hfits), digits38_charsVal cs hcs]

theorem decodeGroups_b38enc (b : List Byte) : decodeGroups (b38enc b) = .ok b := by
  induction b using b38enc.induct with
  | case1 => rfl
  | case2 b0 => exact decodeGroup_digits38 [b0] (m := 2) (by norm_num)
  | case3 b0 b1 => exact decodeGroup_digits38 [b0, b1] (m := 4) (by norm_num)
  | case4 b0 b1 b2 rest ih =>
    have hg : decodeGroup (digits38 (groupVal [b0, b1, b2]) 5) 3 = .ok [b0, b1, b2] :=
      decodeGroup_digits38 [b0, b1, b2] (by norm_num)
    simp only [digits38] at hg
    simp only [b38enc, digits38, List.cons_append, List.nil_append, decodeGroups, hg, ih, except_ok_bind, except_pure]

theorem b38enc_of_decodeGroups {t b : List Byte} (ht : t.all in38 = true) (h : decodeGroups t = .ok b) :
    b38enc b = t := by
  induction t using decodeGroups.induct generalizing b with
  | case1 => cases h; rfl
  | case2 c0 => cases h
  | case3 c0 c1 =>
    rw [decodeGroups] at h
    have hn := decodeGroup_length h
    rw [b38enc_tail (by omega), hn]
    exact digits38_of_decodeGroup ht h
  | case4 c0 c1 c2 => cases h
  | case5 c0 c1 c2 c3 =>
    rw [decodeGroups] at h
    have hn := decodeGroup_length h
    rw [b38enc_tail (by omega), hn]
    exact digits38_of_decodeGroup ht h
  | case6 c0 c1 c2 c3 c4 rest ih =>
    rw [decodeGroups] at h
    obtain ⟨g, hg, h⟩ := bind_ok h
    obtain ⟨gs, hgs, h⟩ := bind_ok h
    cases h
    have hsplit : ([c0, c1, c2, c3, c4] ++ rest).all in38 = true := ht
    rw [List.all_append, Bool.and_eq_true] at hsplit
    obtain ⟨hgroup, hrest⟩ := hsplit
    have hdigits : digits38 (groupVal g) 5 = [c0, c1, c2, c3, c4] := digits38_of_decodeGroup hgroup hg
    rw [b38enc_group_append (decodeGroup_length hg), hdigits, ih hrest hgs]
    rfl

theorem decodeGroup_error {cs : List Byte} {n : Nat} {e : Stop} (h : decodeGroup cs n = .error e) :
    e = .raise .invalidEncoding := by
  rw [decodeGroup_cases] at h
  split at h <;> cases h
  rfl

/-- Past the length check, the one error of the groups is INVALID_ENCODING. -/
theorem decodeGroups_error {t : List Byte} {e : Stop} (hlen : ¬ (t.length % 5 = 1 ∨ t.length % 5 = 3))
    (h : decodeGroups t = .error e) : e = .raise .invalidEncoding := by
  induction t using decodeGroups.induct with
  | case1 => cases h
  | case2 c0 => exact absurd (.inl rfl) hlen
  | case3 c0 c1 => exact decodeGroup_error h
  | case4 c0 c1 c2 => exact absurd (.inr rfl) hlen
  | case5 c0 c1 c2 c3 => exact decodeGroup_error h
  | case6 c0 c1 c2 c3 c4 rest ih =>
    rw [decodeGroups] at h
    cases hg : decodeGroup [c0, c1, c2, c3, c4] 3 with
    | error e' =>
      rw [hg] at h
      cases h
      exact decodeGroup_error hg
    | ok g =>
      rw [hg, except_ok_bind] at h
      cases hgs : decodeGroups rest with
      | error e' =>
        rw [hgs] at h
        cases h
        refine ih ?_ hgs
        simpa only [List.length_cons, Nat.add_assoc, Nat.reduceAdd, Nat.add_mod_right] using hlen
      | ok gs =>
        rw [hgs] at h
        cases h

/-! ## The decoder's checks -/

theorem b38dec_eq (t : List Byte) : b38dec t =
    if t.length % 5 = 1 ∨ t.length % 5 = 3 then .error (.raise .invalidLength)
    else if ¬ t.all in38 then .error (.raise .invalidCharacter)
    else decodeGroups t := by
  simp only [b38dec, raiseIf_bind]

/-- A text decodes to a byte sequence exactly when the byte sequence encodes to it. -/
theorem b38dec_eq_ok_iff {t b : List Byte} : b38dec t = .ok b ↔ b38enc b = t := by
  rw [b38dec_eq]
  constructor
  · intro h
    obtain ⟨-, h⟩ := raiseIf_ok h
    obtain ⟨hall, h⟩ := raiseIf_ok h
    exact b38enc_of_decodeGroups (not_not.1 hall) h
  · rintro rfl
    rw [length_b38enc, if_neg (b38len_mod_five _), if_neg (not_not.2 (all_in38_b38enc b)), decodeGroups_b38enc]

section
variable {t : List Byte}

theorem b38dec_invalidLength (h : t.length % 5 = 1 ∨ t.length % 5 = 3) :
    b38dec t = .error (.raise .invalidLength) := by
  rw [b38dec_eq, if_pos h]

theorem b38dec_invalidCharacter (hlen : ¬ (t.length % 5 = 1 ∨ t.length % 5 = 3)) (h : ∃ c ∈ t, c ∉ alphabet38) :
    b38dec t = .error (.raise .invalidCharacter) := by
  have hall : ¬ t.all in38 := by
    rw [all_in38_iff]
    push Not
    exact h
  rw [b38dec_eq, if_neg hlen, if_pos hall]

/-- A text of legal length and characters that nothing encodes to has a group whose value does not fit. -/
theorem b38dec_invalidEncoding (hlen : ¬ (t.length % 5 = 1 ∨ t.length % 5 = 3)) (hmem : ∀ c ∈ t, c ∈ alphabet38)
    (h : ∀ b, b38enc b ≠ t) : b38dec t = .error (.raise .invalidEncoding) := by
  cases hd : b38dec t with
  | ok b => exact absurd (b38dec_eq_ok_iff.1 hd) (h b)
  | error e =>
    rw [b38dec_eq, if_neg hlen, if_neg (not_not.2 (all_in38_iff.2 hmem))] at hd
    rw [decodeGroups_error hlen hd]

end

/-! ## Each command as its checks and its effect -/

section
variable (s : State)

theorem execB38Enc_eq : execB38Enc s =
    if s.cfg.byteCap < s.blen.toNat then .next (s.setErr .capacity)
    else if s.cfg.charCap < b38len s.blen.toNat then .next (s.setErr .capacity)
    else commit s (readElems s .bytes s.blen.toNat >>= fun data => .ok (storeChars s (b38enc data))) := by
  simp only [execB38Enc, raiseIf_bind, except_pure, commit_ite, commit_raise]

theorem execB38Dec_eq : execB38Dec s =
    if s.cfg.charCap < s.clen.toNat then .next (s.setErr .capacity)
    else if s.clen.toNat % 5 = 1 ∨ s.clen.toNat % 5 = 3 then .next (s.setErr .invalidLength)
    else if s.cfg.byteCap < b38bytes s.clen.toNat then .next (s.setErr .capacity)
    else commit s (readElems s .chars s.clen.toNat >>= fun text => b38dec text >>= fun data =>
      .ok (storeBytes s data)) := by
  simp only [execB38Dec, raiseIf_bind, except_pure, commit_ite, commit_raise]

/-- Past its own checks, B38.DEC ends as the decoding of its text ends. -/
theorem execB38Dec_of_text {text : List Byte} (hl : text.length = s.clen.toNat) (hheld : Memory.holds s.chars text)
    (hn : s.clen.toNat ≤ s.cfg.charCap) (hlen : ¬ (s.clen.toNat % 5 = 1 ∨ s.clen.toNat % 5 = 3))
    (hroom : b38bytes s.clen.toNat ≤ s.cfg.byteCap) :
    execB38Dec s = commit s (b38dec text >>= fun data => .ok (storeBytes s data)) := by
  rw [execB38Dec_eq, if_neg (Nat.not_lt.2 hn), if_neg hlen, if_neg (Nat.not_lt.2 hroom),
    readElems_holds (space := .chars) hl.symm hheld, except_ok_bind]

end

/-! ## The obligations -/

/-- Settles O37: each group is the digits of its value, which they are enough to hold. -/
theorem base38GroupDigits : Obligations.Base38GroupDigits := by
  have mod_lt (v : Nat) : v % 38 < 38 := Nat.mod_lt v (by decide)
  refine ⟨by decide, by decide, rfl, rfl, fun c k => val38_eq_some_iff, fun c => ⟨in38_iff_chr38, mem_alphabet38_iff⟩,
    rfl, fun b0 => ?_, fun b0 b1 => ?_, fun b0 b1 b2 rest => ?_⟩
  · exact ⟨_, _, mod_lt _, mod_lt _, by simp only [groupVal]; omega, rfl⟩
  · exact ⟨_, _, _, _, mod_lt _, mod_lt _, mod_lt _, mod_lt _, by simp only [groupVal]; omega, rfl⟩
  · exact ⟨_, _, _, _, _, mod_lt _, mod_lt _, mod_lt _, mod_lt _, mod_lt _,
      by simp only [groupVal]; omega, rfl⟩

/-- Settles O39: the decoder answers exactly the byte sequences that encode to the text. -/
theorem base38DecodeErrorOrder : Obligations.Base38DecodeErrorOrder := by
  intro t
  refine ⟨b38dec_invalidLength, fun h1 h3 => b38dec_invalidCharacter (not_or.2 ⟨h1, h3⟩), fun h1 h3 hmem => ?_⟩
  by_cases hb : ∃ b, b38enc b = t
  · obtain ⟨b, hb⟩ := hb
    exact .inl ⟨b, hb, b38dec_eq_ok_iff.2 hb⟩
  · have hnone : ∀ b, b38enc b ≠ t := not_exists.1 hb
    exact .inr ⟨hnone, b38dec_invalidEncoding (not_or.2 ⟨h1, h3⟩) hmem hnone⟩

/-- Settles O40: CHARS gets the encoding of the bytes read. -/
theorem b38EncWritesTextOrRaises : Obligations.B38EncWritesTextOrRaises := by
  refine ⟨decode_encode (i := .b38Enc) rfl, fun s => ?_⟩
  simp only [exec, execB38Enc_eq]
  refine ⟨fun hfull => ?_, fun l hl hheld hn hroom => ?_⟩
  · by_cases hn : s.cfg.byteCap < s.blen.toNat
    · rw [if_pos hn]
      rfl
    · rw [if_neg hn, if_pos (hfull.resolve_left hn)]
      rfl
  · rw [if_neg (Nat.not_lt.2 hn), if_neg (Nat.not_lt.2 hroom), readElems_holds (space := .bytes) hl.symm hheld,
      ← length_b38enc]
    exact ⟨_, rfl, rfl, Memory.read_writeSeq_zero (b38enc l) s.chars⟩

/-- Settles O41: past the command's own checks, the outcome is that of the decoder on the text. -/
theorem b38DecWritesBytesOrRaises : Obligations.B38DecWritesBytesOrRaises := by
  refine ⟨decode_encode (i := .b38Dec) rfl, fun s => ?_⟩
  simp only [exec]
  refine ⟨fun hmany => ?_, fun hn hlen => ?_, fun hn h1 h3 hfull => ?_, fun text hl hheld hn h1 h3 hroom => ?_⟩
  · rw [execB38Dec_eq, if_pos hmany]
    rfl
  · rw [execB38Dec_eq, if_neg (Nat.not_lt.2 hn), if_pos hlen]
    rfl
  · rw [execB38Dec_eq, if_neg (Nat.not_lt.2 hn), if_neg (not_or.2 ⟨h1, h3⟩), if_pos hfull]
    rfl
  · have hlen : ¬ (s.clen.toNat % 5 = 1 ∨ s.clen.toNat % 5 = 3) := not_or.2 ⟨h1, h3⟩
    rw [execB38Dec_of_text s hl hheld hn hlen hroom]
    rw [← hl] at hlen
    refine ⟨fun hbad => ?_, fun hmem hnone => ?_, fun b hb => ?_⟩
    · rw [b38dec_invalidCharacter hlen hbad]
      rfl
    · rw [b38dec_invalidEncoding hlen hmem hnone]
      rfl
    · rw [b38dec_eq_ok_iff.2 hb]
      exact ⟨_, rfl, rfl, Memory.read_writeSeq_zero b s.bytes⟩

end Sys2Proof.Machine

/-! SUPPORT. Verhoeff (42_verhoeff.md R150 to R159): the tables' identities, the accumulator of a first digit, and the
three commands, each as what its reading of the digits comes to. -/

namespace Sys2Proof.Machine

/-! ## The tables -/

/-- The product of D5: 0..4 are the rotations, 5..9 the reflections (R150). -/
theorem vMul_dihedral {c x : Nat} (hc : c < 5) (hx : x < 5) :
    vMul c x = (c + x) % 5 ∧ vMul c (5 + x) = 5 + (c + x) % 5 ∧
    vMul (5 + c) x = 5 + (5 + c - x) % 5 ∧ vMul (5 + c) (5 + x) = (5 + c - x) % 5 := by
  have key : ∀ c x : Fin 5, vMul c x = (c.val + x) % 5 ∧ vMul c (5 + x) = 5 + (c.val + x) % 5 ∧
    vMul (5 + c) x = 5 + (5 + c.val - x) % 5 ∧ vMul (5 + c) (5 + x) = (5 + c.val - x) % 5 := by decide
  exact key ⟨c, hc⟩ ⟨x, hx⟩

theorem vPerm_zero {x : Nat} (hx : x < 10) : vPerm 0 x = x := by
  have key : ∀ x : Fin 10, vPerm 0 x = x := by decide
  exact key ⟨x, hx⟩

/-- Each row of p is row 1 applied to the row before it (R151). -/
theorem vPerm_succ {r x : Nat} (hr : r < 7) (hx : x < 10) : vPerm (r + 1) x = vPerm 1 (vPerm r x) := by
  have key : ∀ (r : Fin 7) (x : Fin 10), vPerm (r + 1) x = vPerm 1 (vPerm r x) := by decide
  exact key ⟨r, hr⟩ ⟨x, hx⟩

theorem vMul_eq_zero_iff_right {c k : Nat} (hc : c < 10) (hk : k < 10) : vMul c k = 0 ↔ k = vInv c := by
  have key : ∀ c k : Fin 10, vMul c k = 0 ↔ k = vInv c := by decide
  exact key ⟨c, hc⟩ ⟨k, hk⟩

/-- The inverse of D5 is two-sided. -/
theorem vMul_eq_zero_iff_left {c k : Nat} (hc : c < 10) (hk : k < 10) : vMul k c = 0 ↔ k = vInv c := by
  have key : ∀ c k : Fin 10, vMul k c = 0 ↔ k = vInv c := by decide
  exact key ⟨c, hc⟩ ⟨k, hk⟩

/-! ## The accumulator -/

/-- The leftmost digit is taken last (R153). -/
theorem vacc_cons (x : Nat) (ds : List Nat) (offset : Nat) :
    vacc (x :: ds) offset = vMul (vacc ds offset) (vPerm ((ds.length + offset) % 8) x) := by
  rw [vacc, List.reverse_cons, vaccFrom_append, List.length_reverse, Nat.add_comm offset]
  rfl

theorem vvalid_iff {ds : List Nat} : vvalid ds = true ↔ vacc ds 0 = 0 := beq_iff_eq

theorem resultFlag_vvalid (ds : List Nat) : resultFlag (vvalid ds) = if vacc ds 0 = 0 then 1 else 0 := by
  simp only [resultFlag, vvalid_iff]

/-- The check digit is the only digit that makes a sequence valid (R154, R155). -/
theorem vvalid_append_iff {ds : List Nat} {k : Nat} (hd : ∀ d ∈ ds, d < 10) (hk : k < 10) :
    vvalid (ds ++ [k]) = true ↔ k = vcheck ds := by
  rw [vvalid_iff, vacc_append_digit hd hk, vMul_eq_zero_iff_left (vacc_lt hd 1) hk, vcheck]

/-- Settles O44: each identity of the tables at every index, and the accumulator's recursion. -/
theorem verhoeffTablesAndAccumulator : Obligations.VerhoeffTablesAndAccumulator := by
  refine ⟨fun c x => vMul_dihedral, fun x => vPerm_zero, rfl, fun r x hr1 hr hx => ?_,
    fun c k hc hk => (vMul_eq_zero_iff_right hc hk).symm, fun offset => rfl, vacc_cons,
    fun ds => ⟨rfl, vvalid_iff⟩⟩
  obtain ⟨q, rfl⟩ := Nat.exists_eq_add_of_le' hr1
  exact vPerm_succ (by omega) hx

/-! ## The digits a command reads -/

theorem all_isDigit_eq_false {text : List Byte} (h : ∃ c ∈ text, c.toNat < 0x30 ∨ 0x39 < c.toNat) :
    text.all isDigit = false := by
  obtain ⟨c, hc, hout⟩ := h
  have hbad : isDigit c = false := decide_eq_false (by omega)
  exact List.all_eq_false.2 ⟨c, hc, Bool.eq_false_iff.1 hbad⟩

section
variable {s : State}

theorem vdigits_capacity (h : s.cfg.charCap < s.clen.toNat) : vdigits s = .error (.raise .capacity) := by
  simp only [vdigits, raiseIf_bind, if_pos h]

theorem vdigits_invalidCharacter {text : List Byte} (hl : text.length = s.clen.toNat)
    (hheld : Memory.holds s.chars text) (hn : s.clen.toNat ≤ s.cfg.charCap)
    (hbad : ∃ c ∈ text, c.toNat < 0x30 ∨ 0x39 < c.toNat) : vdigits s = .error (.raise .invalidCharacter) := by
  have hread : readElems s .chars s.clen.toNat = .ok text := readElems_holds (space := .chars) hl.symm hheld
  simp only [vdigits, raiseIf_bind, if_neg (Nat.not_lt.2 hn), hread, except_ok_bind, all_isDigit_eq_false hbad,
    Bool.false_eq_true, not_false_eq_true, if_true]

/-- A VH.* command without digits to work on reports the error of its reading, whatever it would do with them. -/
theorem commit_vdigits_error {e : ErrorCode} (h : vdigits s = .error (.raise e)) (k : List Nat → Except Stop State) :
    commit s (vdigits s >>= k) = .next { s with err := e } := by
  rw [h]
  rfl

theorem execVhCompute_of_digits {ds : List Nat} (h : vdigits s = .ok ds) :
    execVhCompute s = .next { s with res0 := BitVec.ofNat 32 (vcheck ds), err := .none } := by
  rw [execVhCompute, h]
  rfl

theorem execVhValidate_of_digits {ds : List Nat} (h : vdigits s = .ok ds) :
    execVhValidate s = .next { s with res0 := if vacc ds 0 = 0 then 1 else 0, err := .none } := by
  rw [execVhValidate, h, ← resultFlag_vvalid]
  rfl

theorem execVhAppend_of_digits {ds : List Nat} (h : vdigits s = .ok ds) : execVhAppend s =
    if s.cfg.charCap ≤ s.clen.toNat then .next { s with err := .capacity }
    else .next { s with chars := s.chars.write s.clen.toNat (digitChar (vcheck ds)),
                        clen := BitVec.ofNat 32 (s.clen.toNat + 1),
                        res0 := BitVec.ofNat 32 (vcheck ds), err := .none } := by
  simp only [execVhAppend, h, except_ok_bind, raiseIf_bind, except_pure, commit_ite, commit_raise, commit_ok]
  rfl

end

/-! ## Appending a character -/

theorem Memory.read_write (m : Memory) (i a : Nat) (v : Byte) :
    (m.write i v).read a = if a = i then some v else m.read a := by
  by_cases h : a = i
  · rw [if_pos h, h, Memory.read_write_same]
  · rw [if_neg h, Memory.read_write_other m v h]

/-- Writing the element after a text extends it. -/
theorem Memory.holds_write_append {m : Memory} {l : List Byte} (h : Memory.holds m l) (v : Byte) :
    Memory.holds (m.write l.length v) (l ++ [v]) := by
  intro a ha
  rw [List.length_append, List.length_singleton] at ha
  rw [Memory.read_write]
  by_cases hlast : a = l.length
  · rw [if_pos hlast, hlast, List.getElem?_concat_length]
  · have hlt : a < l.length := by omega
    rw [if_neg hlast, List.getElem?_append_left hlt, h a hlt]

/-- The digits after VH.APPEND: those before it, then their check digit. -/
theorem vdigits_append {s : State} {ds : List Nat} (hd : ∀ d ∈ ds, d < 10)
    (hheld : Memory.holds s.chars (ds.map digitChar)) (hroom : ds.length < s.cfg.charCap)
    (hcap : s.cfg.charCap < 2 ^ 32) (r : Word) (e : ErrorCode) :
    vdigits { s with chars := s.chars.write ds.length (digitChar (vcheck ds)),
                     clen := BitVec.ofNat 32 (ds.length + 1), res0 := r, err := e } = .ok (ds ++ [vcheck ds]) := by
  have hlen : (BitVec.ofNat 32 (ds.length + 1)).toNat = ds.length + 1 := by
    rw [BitVec.toNat_ofNat, Nat.mod_eq_of_lt (by omega)]
  have hall : ∀ d ∈ ds ++ [vcheck ds], d < 10 :=
    List.forall_mem_append.2 ⟨hd, List.forall_mem_singleton.2 (vcheck_lt hd)⟩
  refine vdigits_holds hall ?_ ?_ (hlen.trans_le hroom)
  · rw [List.map_append, List.map_singleton]
    simpa only [List.length_map] using Memory.holds_write_append hheld (digitChar (vcheck ds))
  · rw [hlen, List.length_append, List.length_singleton]

/-! ## The commands -/

/-- Settles O45: RES0 gets the one digit that completes the digits read to a valid sequence. -/
theorem vhComputeGivesTheCheckDigit : Obligations.VhComputeGivesTheCheckDigit := by
  refine ⟨decode_encode (i := .vhCompute) rfl, fun d => toNat_digitChar, fun s => ⟨fun hmany => ?_,
    fun text hl hheld hn hbad => ?_, fun ds hd hl hheld hn => ⟨?_, vcheck_lt hd, fun k => vvalid_append_iff hd⟩⟩⟩
  · exact commit_vdigits_error (vdigits_capacity hmany) _
  · exact commit_vdigits_error (vdigits_invalidCharacter hl hheld hn hbad) _
  · exact execVhCompute_of_digits (vdigits_holds hd hheld hl.symm hn)

/-- Settles O46: RES0 gets the validity of the digits read. -/
theorem vhValidateGivesValidity : Obligations.VhValidateGivesValidity := by
  refine ⟨decode_encode (i := .vhValidate) rfl, fun s => ⟨fun hmany => ?_, fun text hl hheld hn hbad => ?_,
    fun ds hd hl hheld hn => ?_⟩⟩
  · exact commit_vdigits_error (vdigits_capacity hmany) _
  · exact commit_vdigits_error (vdigits_invalidCharacter hl hheld hn hbad) _
  · exact execVhValidate_of_digits (vdigits_holds hd hheld hl.symm hn)

/-- Settles O47: VH.VALIDATE reads the digits with their check digit, which are valid. -/
theorem vhAppendWritesTheCheckDigit : Obligations.VhAppendWritesTheCheckDigit := by
  refine ⟨decode_encode (i := .vhAppend) rfl, fun s => ⟨fun hmany => ?_, fun text hl hheld hn hbad => ?_,
    fun ds hd hl hheld hfull => ?_, fun ds hd hl hheld hroom => ?_⟩⟩
  · exact commit_vdigits_error (vdigits_capacity hmany) _
  · exact commit_vdigits_error (vdigits_invalidCharacter hl hheld hn hbad) _
  · exact (execVhAppend_of_digits (vdigits_holds hd hheld hl.symm hfull.le)).trans (if_pos hfull.ge)
  · have happend := execVhAppend_of_digits (vdigits_holds hd hheld hl.symm hroom.le)
    rw [if_neg (Nat.not_le.2 hroom), ← hl] at happend
    rw [← hl] at hroom
    refine ⟨_, happend, rfl, fun a => Memory.read_write .., fun hwf => ?_⟩
    obtain ⟨-, -, ⟨-, hcap⟩, -⟩ := hwf
    have hvalid : vacc (ds ++ [vcheck ds]) 0 = 0 := vvalid_iff.1 (vvalid_append_vcheck hd)
    refine (execVhValidate_of_digits (vdigits_append hd hheld hroom hcap _ _)).trans ?_
    rw [if_pos hvalid]

end Sys2Proof.Machine

/-! SUPPORT. The QR payload and the two encoders (43_payload.md R171 to R178): the header's fields at their offsets, the
header of given bytes, and PC.ENCQR and PC.ENCMAN, each as its checks in the rule's order and its effect. -/

namespace Sys2Proof.Machine

/-! ## The bits of a QR payload -/

theorem bitImage_qrBytes (r : Record) (tlv : List Byte) :
    bitImage (qrBytes r tlv) = headerBits r ++ bitImage tlv := by
  rw [qrBytes, bitImage_append, bitImage_byteImage _ (by rw [length_headerBits])]

theorem fieldAt_head (v w : Nat) (rest : Bits) : fieldAt (bitsOf v w ++ rest) 0 w = v % 2 ^ w :=
  fieldAt_append_bitsOf [] rest v w

/-- A field beyond a stream's first value is a field of the stream behind that value. -/
theorem fieldAt_behind {v n pos w : Nat} {rest : Bits} (h : n ≤ pos) :
    fieldAt (bitsOf v n ++ rest) pos w = fieldAt rest (pos - n) w := by
  have hlen : (bitsOf v n).length ≤ pos := by rwa [length_bitsOf]
  rw [fieldAt, fieldAt, List.drop_append, List.drop_eq_nil_of_le hlen, List.nil_append, length_bitsOf]

/-- Settles O48: each field lies in the header behind the fields before it. -/
theorem qrPayloadLayout : Obligations.QrPayloadLayout := by
  rintro r tlv ⟨hvid, hpid, hflow, hcaps, hdisc, hpass, -⟩
  refine ⟨length_qrBytes r tlv, List.drop_left' (by simp), ?_⟩
  simp only [bitImage_qrBytes, headerBits, List.append_assoc, fieldAt_behind, fieldAt_head, Nat.reduceLeDiff,
    Nat.reduceSub, Nat.mod_eq_of_lt hvid, Nat.mod_eq_of_lt hpid, Nat.mod_eq_of_lt hflow, Nat.mod_eq_of_lt hcaps,
    Nat.mod_eq_of_lt hdisc, Nat.mod_eq_of_lt hpass, Nat.zero_mod, true_and]

/-- A stream cut after a field is the stream cut before it, then the field's bits. -/
theorem take_add_eq_append_fieldAt {stream : Bits} {pos w : Nat} (h : pos + w ≤ stream.length) :
    stream.take (pos + w) = stream.take pos ++ bitsOf (fieldAt stream pos w) w := by
  have hlen : ((stream.drop pos).take w).length = w := by
    rw [List.length_take, List.length_drop]
    omega
  have hbits := bitsOf_valOf ((stream.drop pos).take w)
  rw [hlen] at hbits
  rw [List.take_add, fieldAt, hbits]

/-- A record field of at most 32 bits keeps its value in its register (R180). -/
theorem toNat_fieldWord (stream : Bits) (pos : Nat) {w : Nat} (hw : w ≤ 32) :
    (BitVec.ofNat 32 (fieldAt stream pos w)).toNat = fieldAt stream pos w := by
  rw [BitVec.toNat_ofNat, Nat.mod_eq_of_lt ((fieldAt_lt stream pos w).trans_le (Nat.pow_le_pow_right two_pos hw))]

theorem fieldWord_eq_iff {stream : Bits} {pos w k : Nat} (hw : w ≤ 32) (hk : k < 2 ^ 32) :
    BitVec.ofNat 32 (fieldAt stream pos w) = BitVec.ofNat 32 k ↔ fieldAt stream pos w = k := by
  rw [← BitVec.toNat_inj, toNat_fieldWord stream pos hw, BitVec.toNat_ofNat, Nat.mod_eq_of_lt hk]

section
variable (b : List Byte)

/-! The registers that a QR header sets (R180). -/

theorem parseHeader_vid : (parseHeader b).vid.toNat = fieldAt (bitImage b) 3 16 := toNat_fieldWord _ _ (by decide)

theorem parseHeader_pid : (parseHeader b).pid.toNat = fieldAt (bitImage b) 19 16 := toNat_fieldWord _ _ (by decide)

theorem parseHeader_flow : (parseHeader b).flow.toNat = fieldAt (bitImage b) 35 2 := toNat_fieldWord _ _ (by decide)

theorem parseHeader_caps : (parseHeader b).caps.toNat = fieldAt (bitImage b) 37 8 := toNat_fieldWord _ _ (by decide)

theorem parseHeader_disc : (parseHeader b).disc.toNat = fieldAt (bitImage b) 45 12 := toNat_fieldWord _ _ (by decide)

theorem parseHeader_passcode : (parseHeader b).passcode.toNat = fieldAt (bitImage b) 57 27 :=
  toNat_fieldWord _ _ (by decide)

theorem parseHeader_padding : (parseHeader b).padding.toNat = fieldAt (bitImage b) 84 4 :=
  toNat_fieldWord _ _ (by decide)

theorem parseHeader_version_eq_zero_iff : (parseHeader b).version = 0 ↔ fieldAt (bitImage b) 0 3 = 0 :=
  fieldWord_eq_iff (by decide) (by decide)

theorem parseHeader_flow_eq_iff {k : Nat} (hk : k < 2 ^ 32) :
    (parseHeader b).flow = BitVec.ofNat 32 k ↔ fieldAt (bitImage b) 35 2 = k :=
  fieldWord_eq_iff (by decide) hk

theorem parseHeader_padding_eq_zero_iff : (parseHeader b).padding = 0 ↔ fieldAt (bitImage b) 84 4 = 0 :=
  fieldWord_eq_iff (by decide) (by decide)

/-- Every field read at its offset fits the width it is read with (R171). -/
theorem parseHeader_widthsFit : QrWidthsFit (parseHeader b) := by
  rw [QrWidthsFit, parseHeader_vid, parseHeader_pid, parseHeader_flow, parseHeader_caps, parseHeader_disc,
    parseHeader_passcode, parseHeader_padding]
  exact ⟨fieldAt_lt .., fieldAt_lt .., fieldAt_lt .., fieldAt_lt .., fieldAt_lt .., fieldAt_lt .., fieldAt_lt ..⟩

variable {b}

/-- The header of the record that 11 bytes give is those bytes, when version and padding are 0 (R171, R173). -/
theorem headerBits_parseHeader (hlen : 11 ≤ b.length) (hversion : (parseHeader b).version = 0)
    (hpadding : (parseHeader b).padding = 0) : headerBits (parseHeader b) = (bitImage b).take 88 := by
  have hbits : 88 ≤ (bitImage b).length := by
    rw [length_bitImage]
    omega
  have hcut (pos w : Nat) (h : pos + w ≤ 88) := take_add_eq_append_fieldAt (h.trans hbits)
  rw [parseHeader_version_eq_zero_iff] at hversion
  rw [parseHeader_padding_eq_zero_iff] at hpadding
  rw [headerBits, parseHeader_vid, parseHeader_pid, parseHeader_flow, parseHeader_caps, parseHeader_disc,
    parseHeader_passcode, hcut 84 4 (by decide), hpadding, hcut 57 27 (by decide), hcut 45 12 (by decide),
    hcut 37 8 (by decide), hcut 35 2 (by decide), hcut 19 16 (by decide), hcut 3 16 (by decide),
    hcut 0 3 (by decide), hversion]
  rfl

/-- Such bytes are the payload of the record and the TLV bytes they hold. -/
theorem qrBytes_parseHeader (hlen : 11 ≤ b.length) (hversion : (parseHeader b).version = 0)
    (hpadding : (parseHeader b).padding = 0) : qrBytes (parseHeader b) (b.drop 11) = b := by
  have hhead : (bitImage b).take 88 = bitImage (b.take 11) := by
    conv_lhs => rw [← List.take_append_drop 11 b, bitImage_append]
    exact List.take_left' (by rw [length_bitImage, List.length_take, Nat.min_eq_left hlen])
  rw [qrBytes, headerBits_parseHeader hlen hversion hpadding, hhead, byteImage_bitImage, List.take_append_drop]

end

/-! ## PC.ENCQR -/

theorem execPcEncqr_eq (s : State) : execPcEncqr s =
    if s.record.version ≠ 0 then .next (s.setErr .unsupportedVersion)
    else if ¬ QrWidthsFit s.record then .next (s.setErr .range)
    else if s.cfg.tlvCap < s.tlvlen.toNat then .next (s.setErr .capacity)
    else if QrInvalid s.cfg s.record s.tlvlen.toNat then .next (s.setErr .validation)
    else if s.cfg.charCap < 3 + b38len (11 + s.tlvlen.toNat) then .next (s.setErr .capacity)
    else commit s (readElems s .tlv s.tlvlen.toNat >>= fun tlv => .ok (storeChars s (qrText s.record tlv))) := by
  simp only [execPcEncqr, raiseIf_bind, except_pure, commit_ite, commit_raise, qrFieldTooWide_iff, passcodeOk_iff,
    QrInvalid, ite_or]

/-- Settles O49: CHARS gets the QR text of the record and the TLV bytes read. -/
theorem encqrWritesTheQrTextOrRaises : Obligations.EncqrWritesTheQrTextOrRaises := by
  refine ⟨decode_encode (i := .pcEncqr) rfl, fun s => ?_⟩
  simp only [exec, execPcEncqr_eq]
  refine ⟨fun hversion => if_pos hversion, fun hversion hwide => ?_, fun hversion hfit hmany => ?_,
    fun hversion hfit hn hinvalid => ?_, ?_, ?_⟩
  · rw [if_neg (not_not.2 hversion), if_pos hwide]
    rfl
  · rw [if_neg (not_not.2 hversion), if_neg (not_not.2 hfit), if_pos hmany]
    rfl
  · rw [if_neg (not_not.2 hversion), if_neg (not_not.2 hfit), if_neg (Nat.not_lt.2 hn), if_pos hinvalid]
    rfl
  · rintro ⟨hversion, hfit, hn, hvalid⟩ hfull
    rw [if_neg (not_not.2 hversion), if_neg (not_not.2 hfit), if_neg (Nat.not_lt.2 hn), if_neg hvalid, if_pos hfull]
    rfl
  · rintro l hl hheld ⟨hversion, hfit, hn, hvalid⟩ hroom
    rw [if_neg (not_not.2 hversion), if_neg (not_not.2 hfit), if_neg (Nat.not_lt.2 hn), if_neg hvalid,
      if_neg (Nat.not_lt.2 hroom), readElems_holds (space := .tlv) hl.symm hheld, ← length_qrText s.record l]
    exact ⟨_, rfl, rfl, Memory.read_writeSeq_zero (qrText s.record l) s.chars⟩

/-! ## PC.ENCMAN -/

theorem longForm_eq_true_iff {r : Record} : longForm r = true ↔ r.flow ≠ 0 := decide_eq_true_iff

theorem not_manualWidthsFit_iff {r : Record} : ¬ ManualWidthsFit r ↔
    (2 ^ 2 ≤ r.flow.toNat ∨ 2 ^ 12 ≤ r.disc.toNat) ∨
      (longForm r = true ∧ (2 ^ 16 ≤ r.vid.toNat ∨ 2 ^ 16 ≤ r.pid.toNat)) := by
  simp only [ManualWidthsFit, longForm_eq_true_iff, not_and_or, Classical.not_imp, Nat.not_lt, or_assoc]

theorem execPcEncman_eq (s : State) : execPcEncman s =
    if ¬ ManualWidthsFit s.record then .next (s.setErr .range)
    else if s.record.flow = 3 then .next (s.setErr .validation)
    else if ¬ PasscodeValid s.cfg s.record.passcode.toNat then .next (s.setErr .passcodeOutOfRange)
    else .next ((storeChars s (manualText s.record)).setErr .none) := by
  simp only [execPcEncman, raiseIf_bind, except_pure, commit_ite, commit_raise, commit_ok, passcodeOk_iff,
    not_manualWidthsFit_iff, ite_or]

/-- Settles O51: CHARS gets the manual code of the record. -/
theorem encmanWritesTheManualCodeOrRaises : Obligations.EncmanWritesTheManualCodeOrRaises := by
  refine ⟨decode_encode (i := .pcEncman) rfl, fun s => ?_⟩
  simp only [exec, execPcEncman_eq]
  refine ⟨fun hwide => if_pos hwide, fun hfit hflow => ?_, fun hfit hflow hpass => ?_, fun hfit hflow hpass => ?_⟩
  · rw [if_neg (not_not.2 hfit), if_pos hflow]
    rfl
  · rw [if_neg (not_not.2 hfit), if_neg hflow, if_pos hpass]
    rfl
  · rw [if_neg (not_not.2 hfit), if_neg hflow, if_neg (not_not.2 hpass), ← length_manualText]
    refine ⟨_, rfl, ?_, Memory.read_writeSeq_zero (manualText s.record) s.chars⟩
    rw [storeChars_eq, length_manualText, apply_ite (BitVec.ofNat 32)]
    rfl

/-- Two records that agree in every field a manual code carries (R176, R177). -/
structure SameManualFields (q r : Record) : Prop where
  flow : q.flow = r.flow
  disc : q.disc = r.disc
  passcode : q.passcode = r.passcode
  vid : r.flow ≠ 0 → q.vid = r.vid
  pid : r.flow ≠ 0 → q.pid = r.pid

section
variable {q r : Record}

theorem SameManualFields.manualWidthsFit_iff (h : SameManualFields q r) : ManualWidthsFit q ↔ ManualWidthsFit r := by
  rw [ManualWidthsFit, ManualWidthsFit, h.flow, h.disc]
  refine and_congr_right fun _ => and_congr_right fun _ => forall_congr' fun hflow => ?_
  rw [h.vid hflow, h.pid hflow]

theorem SameManualFields.manualText_eq (h : SameManualFields q r) : manualText q = manualText r := by
  have hlong : longForm q = longForm r := by rw [longForm, longForm, h.flow]
  have hshort : shortDisc q = shortDisc r := by rw [shortDisc, shortDisc, h.disc]
  have hbody : manualBody q = manualBody r := by
    simp only [manualBody, manualC1, manualC2, manualC3, hlong, hshort, h.passcode]
    refine congrArg _ (ite_congr rfl (fun hl => ?_) fun _ => rfl)
    have hflow : r.flow ≠ 0 := longForm_eq_true_iff.1 hl
    rw [h.vid hflow, h.pid hflow]
  rw [manualText, manualText, hbody]

theorem mapNext_next (f : State → State) (t : State) : mapNext f (.next t) = .next (f t) := rfl

/-- A change that keeps the fields a manual code carries is seen in PC.ENCMAN's next state and nowhere else. -/
theorem SameManualFields.execPcEncman_eq {f : State → State} {s : State} (h : SameManualFields (f s).record s.record)
    (hcfg : (f s).cfg = s.cfg) (hstore : ∀ vs, storeChars (f s) vs = f (storeChars s vs))
    (herr : ∀ t e, (f t).setErr e = f (t.setErr e)) : execPcEncman (f s) = mapNext f (execPcEncman s) := by
  simp only [Machine.execPcEncman_eq, h.manualWidthsFit_iff, h.manualText_eq, h.flow, h.passcode, hcfg, hstore, herr,
    apply_ite (mapNext f), mapNext_next]

end

/-- Settles O28: the fields replaced are none of those a manual code carries, VID and PID in the long form only. -/
theorem encmanIgnoresFieldsItDoesNotCarry : Obligations.EncmanIgnoresFieldsItDoesNotCarry := by
  refine fun s v c p d m n vid pid => ⟨?_, fun hflow => ?_⟩
  · rintro r rfl
    exact SameManualFields.execPcEncman_eq
      (f := fun t => { t with tlv := m, tlvlen := n,
                              record := { s.record with version := v, caps := c, padding := p, discShort := d } })
      ⟨rfl, rfl, rfl, fun _ => rfl, fun _ => rfl⟩ rfl (fun _ => rfl) fun _ _ => rfl
  · exact SameManualFields.execPcEncman_eq
      (f := fun t => { t with record := { s.record with vid := vid, pid := pid } })
      ⟨rfl, rfl, rfl, fun hlong => absurd hflow hlong, fun hlong => absurd hflow hlong⟩ rfl (fun _ => rfl)
      fun _ _ => rfl

end Sys2Proof.Machine

/-! SUPPORT. PC.PARSE (43_payload.md R179 to R184): the text's form, then each form's path as its checks in the rule's
order and its effect. -/

namespace Sys2Proof.Machine

/-! ## The form of the text -/

theorem hasQrMarker_iff {t : List Byte} : hasQrMarker t = true ↔ t.take 3 = qrMarker := beq_iff_eq

theorem isManualShape_iff {t : List Byte} :
    isManualShape t = true ↔ (t.length = 11 ∨ t.length = 21) ∧ t.all isDigit = true := by
  simp only [isManualShape, Bool.and_eq_true, Bool.or_eq_true, beq_iff_eq]

/-- The marker is no digit, so a manual code does not start with it. -/
theorem hasQrMarker_of_isManualShape {t : List Byte} (h : isManualShape t = true) : hasQrMarker t = false := by
  obtain ⟨-, hdigits⟩ := isManualShape_iff.1 h
  refine Bool.eq_false_iff.2 fun hmarker => ?_
  have hmem : (0x4D : Byte) ∈ t.take 3 := by
    rw [hasQrMarker_iff.1 hmarker]
    exact List.mem_cons_self
  exact absurd (List.all_eq_true.1 hdigits _ (List.mem_of_mem_take hmem)) (by decide)

section
variable {s : State} {text : List Byte}

theorem execPcParse_capacity (strict : Bool) (h : s.cfg.charCap < s.clen.toNat) :
    execPcParse strict s = .next (s.setErr .capacity) := by
  simp only [execPcParse, raiseIf_bind, if_pos h, commit_raise]

/-- Past its capacity check, PC.PARSE ends as the path of its text ends (R179). -/
theorem execPcParse_of_text (strict : Bool) (hl : text.length = s.clen.toNat) (hheld : Memory.holds s.chars text)
    (hn : s.clen.toNat ≤ s.cfg.charCap) : execPcParse strict s =
      if hasQrMarker text then commit s (qrParse strict (text.drop 3) s)
      else if isManualShape text then commit s (manualParse (text.map digitVal) s)
      else .next (s.setErr .invalidFormat) := by
  have hread : readElems s .chars s.clen.toNat = .ok text := readElems_holds (space := .chars) hl.symm hheld
  simp only [execPcParse, raiseIf_bind, if_neg (Nat.not_lt.2 hn), hread, except_ok_bind, commit_ite, raiseErr_eq,
    commit_raise]

theorem execPcParse_of_qrText (strict : Bool) {u : List Byte} (hl : 3 + u.length = s.clen.toNat)
    (hheld : Memory.holds s.chars (qrMarker ++ u)) (hn : s.clen.toNat ≤ s.cfg.charCap) :
    execPcParse strict s = commit s (qrParse strict u s) := by
  have hlen : (qrMarker ++ u).length = s.clen.toNat := by
    rw [List.length_append, ← hl]
    rfl
  have hmarker : hasQrMarker (qrMarker ++ u) = true := rfl
  rw [execPcParse_of_text strict hlen hheld hn, if_pos hmarker]
  rfl

theorem execPcParse_of_digits (strict : Bool) {ds : List Nat} (hd : ∀ d ∈ ds, d < 10)
    (hl : ds.length = s.clen.toNat) (hform : ds.length = 11 ∨ ds.length = 21)
    (hheld : Memory.holds s.chars (ds.map digitChar)) (hn : s.clen.toNat ≤ s.cfg.charCap) :
    execPcParse strict s = commit s (manualParse ds s) := by
  obtain ⟨hdigits, hval⟩ := map_digitVal_digitChar ds hd
  have hlen : (ds.map digitChar).length = ds.length := List.length_map _
  have hshape : isManualShape (ds.map digitChar) = true := isManualShape_iff.2 ⟨by rwa [hlen], hdigits⟩
  rw [execPcParse_of_text strict (hlen.trans hl) hheld hn, hasQrMarker_of_isManualShape hshape, hval, if_pos hshape]
  rfl

end

/-- Settles O52: a text of another form takes neither path. -/
theorem parseRejectsOtherShapes : Obligations.ParseRejectsOtherShapes := by
  refine ⟨decode_encode (i := .pcParse false) rfl, decode_encode (i := .pcParse true) rfl, fun s strict =>
    ⟨execPcParse_capacity strict, fun text hl hheld hn hmarker hshape => ?_⟩⟩
  have hmanual : ¬ isManualShape text = true := by
    rw [isManualShape_iff]
    rintro ⟨hlen, hdigits⟩
    rcases hshape with ⟨h11, h21⟩ | hbad
    · exact hlen.elim h11 h21
    · exact Bool.eq_false_iff.1 (all_isDigit_eq_false hbad) hdigits
  exact (execPcParse_of_text strict hl hheld hn).trans
    ((if_neg (mt hasQrMarker_iff.1 hmarker)).trans (if_neg hmanual))

/-! ## The QR path -/

/-- The VALIDATION conditions of R180 and R181 for the bytes of a QR text. -/
abbrev QrParseInvalid (cfg : Config) (strict : Bool) (b : List Byte) : Prop :=
  fieldAt (bitImage b) 35 2 = 3 ∨ ¬ PasscodeValid cfg (fieldAt (bitImage b) 57 27) ∨
    (fieldAt (bitImage b) 35 2 = 2 ∧ b.length = 11) ∨ (strict = true ∧ fieldAt (bitImage b) 84 4 ≠ 0)

section
variable {s : State} {strict : Bool} {u : List Byte}

/-- The path's check on the TLV count, behind the check that there is a whole header. -/
theorem length_drop_eq_zero_iff {b : List Byte} (h : 11 ≤ b.length) : (b.drop 11).length = 0 ↔ b.length = 11 := by
  rw [List.length_drop]
  omega

theorem commit_qrParse_error {e : ErrorCode} (h : b38dec u = .error (.raise e)) :
    commit s (qrParse strict u s) = .next (s.setErr e) := by
  rw [qrParse, h]
  rfl

theorem commit_qrParse_of_bytes {b : List Byte} (h : b38dec u = .ok b) : commit s (qrParse strict u s) =
    if b.length < 11 then .next (s.setErr .truncatedData)
    else if s.cfg.tlvCap < b.length - 11 then .next (s.setErr .capacity)
    else if fieldAt (bitImage b) 0 3 ≠ 0 then .next (s.setErr .unsupportedVersion)
    else if QrParseInvalid s.cfg strict b then .next (s.setErr .validation)
    else .next ((storeTlv (s.setRecord (parseHeader b)) (b.drop 11)).setErr .none) := by
  simp only [qrParse, h, except_ok_bind, raiseIf_bind, except_pure, commit_ite, commit_raise, commit_ok]
  refine ite_congr rfl (fun _ => rfl) fun hheader => ?_
  have hflow3 : (parseHeader b).flow = 3 ↔ fieldAt (bitImage b) 35 2 = 3 := parseHeader_flow_eq_iff b (by decide)
  have hflow2 : (parseHeader b).flow = 2 ↔ fieldAt (bitImage b) 35 2 = 2 := parseHeader_flow_eq_iff b (by decide)
  simp only [ne_eq, parseHeader_version_eq_zero_iff, hflow3, hflow2, passcodeOk_iff, parseHeader_passcode,
    parseHeader_padding_eq_zero_iff, length_drop_eq_zero_iff (Nat.not_lt.1 hheader), QrParseInvalid, ite_or]

end

/-- Settles O53: the record is that of the decoded bytes, and TLV gets the bytes from 11 on. -/
theorem parseReadsTheQrForm : Obligations.ParseReadsTheQrForm := by
  intro s strict u hl hheld hn
  have hexec : exec (.pcParse strict) s = commit s (qrParse strict u s) := execPcParse_of_qrText strict hl hheld hn
  simp only [hexec]
  refine ⟨fun e => commit_qrParse_error, fun b hb => ?_⟩
  rw [commit_qrParse_of_bytes hb]
  refine ⟨fun hshort => if_pos hshort, fun hheader hmany => ?_, fun hheader hroom hversion => ?_,
    fun hheader hroom hversion hinvalid => ?_, fun hheader hroom hversion hflow hpass htlv hpad => ?_⟩
  · rw [if_neg (Nat.not_lt.2 hheader), if_pos hmany]
    rfl
  · rw [if_neg (Nat.not_lt.2 hheader), if_neg (Nat.not_lt.2 hroom), if_pos hversion]
    rfl
  · rw [if_neg (Nat.not_lt.2 hheader), if_neg (Nat.not_lt.2 hroom), if_neg (not_not.2 hversion), if_pos hinvalid]
    rfl
  · have hvalid : ¬ QrParseInvalid s.cfg strict b := by
      rintro (h3 | hbad | ⟨h2, h11⟩ | ⟨hstrict, hnonzero⟩)
      · exact hflow h3
      · exact hbad hpass
      · exact htlv h2 h11
      · exact hnonzero (hpad hstrict)
    have hlen : (b.drop 11).length = b.length - 11 := List.length_drop
    rw [if_neg (Nat.not_lt.2 hheader), if_neg (Nat.not_lt.2 hroom), if_neg (not_not.2 hversion), if_neg hvalid, ← hlen]
    refine ⟨_, rfl, rfl, (parseHeader_version_eq_zero_iff b).2 hversion, parseHeader_vid b, parseHeader_pid b,
      parseHeader_flow b, parseHeader_caps b, parseHeader_disc b, parseHeader_passcode b, parseHeader_padding b, rfl,
      fun a => ?_⟩
    rw [← List.getElem?_drop]
    exact Memory.read_writeSeq_zero (b.drop 11) s.tlv a

/-! ## The manual path -/

section
variable (ds : List Nat)

/-! The groups of a code, as the statements write them (R182, R183). -/

abbrev codeC1 : Nat := num ((ds.drop 0).take 1)

abbrev codeC2 : Nat := num ((ds.drop 1).take 5)

abbrev codeC3 : Nat := num ((ds.drop 6).take 4)

abbrev codeVid : Nat := if ds.length = 21 then num ((ds.drop 10).take 5) else 0

abbrev codePid : Nat := if ds.length = 21 then num ((ds.drop 15).take 5) else 0

abbrev codePasscode : Nat := codeC3 ds * 2 ^ 14 + codeC2 ds % 2 ^ 14

abbrev codeShortDisc : Nat := codeC1 ds % 4 * 4 + codeC2 ds / 2 ^ 14

/-- Every group is in the range that its bits have (R182). -/
abbrev CodeGroupsFit : Prop :=
  codeC1 ds ≤ 7 ∧ codeC2 ds ≤ 65535 ∧ codeC3 ds ≤ 8191 ∧ codeVid ds ≤ 65535 ∧ codePid ds ≤ 65535

/-- The VID/PID-present flag agrees with the code's length (R183). -/
abbrev CodeFlagAgrees : Prop := codeC1 ds / 4 = if ds.length = 21 then 1 else 0

/-- The record of a code (R184). -/
def codeRecord : Record :=
  manualRecord (decide (ds.length = 21)) (codeVid ds) (codePid ds) (codeShortDisc ds) (codePasscode ds)

theorem digitGroup_eq (i n : Nat) : digitGroup ds i (i + n) = num ((ds.drop i).take n) := by
  rw [digitGroup, List.drop_take, Nat.add_sub_cancel_left]

theorem not_codeGroupsFit_iff : ¬ CodeGroupsFit ds ↔
    7 < codeC1 ds ∨ 65535 < codeC2 ds ∨ 8191 < codeC3 ds ∨ 65535 < codeVid ds ∨ 65535 < codePid ds := by
  simp only [CodeGroupsFit, not_and_or, Nat.not_le]

theorem commit_manualParse_eq (s : State) : commit s (manualParse ds s) =
    if ¬ vvalid ds = true then .next (s.setErr .checksumMismatch)
    else if ¬ CodeGroupsFit ds then .next (s.setErr .range)
    else if ¬ CodeFlagAgrees ds then .next (s.setErr .invalidFormat)
    else if ¬ PasscodeValid s.cfg (codePasscode ds) then .next (s.setErr .passcodeOutOfRange)
    else .next (((s.setRecord (codeRecord ds)).setTlvlen 0).setErr .none) := by
  have h1 : digitGroup ds 0 1 = codeC1 ds := digitGroup_eq ds 0 1
  have h2 : digitGroup ds 1 6 = codeC2 ds := digitGroup_eq ds 1 5
  have h3 : digitGroup ds 6 10 = codeC3 ds := digitGroup_eq ds 6 4
  have hvid : digitGroup ds 10 15 = num ((ds.drop 10).take 5) := digitGroup_eq ds 10 5
  have hpid : digitGroup ds 15 20 = num ((ds.drop 15).take 5) := digitGroup_eq ds 15 5
  have hflag : (decide (ds.length = 21)).toNat = if ds.length = 21 then 1 else 0 := by
    by_cases h : ds.length = 21 <;> simp [h]
  simp only [manualParse, raiseIf_bind, except_pure, commit_ite, commit_raise, commit_ok, h1, h2, h3, hvid, hpid,
    passcodeOk_iff, not_codeGroupsFit_iff, decide_eq_true_eq, hflag]
  rfl

variable {ds}

theorem codeShortDisc_lt (h : CodeGroupsFit ds) : codeShortDisc ds < 2 ^ 4 := by
  obtain ⟨-, h2, -⟩ := h
  rw [codeShortDisc]
  omega

theorem codePasscode_lt (h : CodeGroupsFit ds) : codePasscode ds < 2 ^ 27 := by
  obtain ⟨-, -, h3, -⟩ := h
  rw [codePasscode]
  omega

/-- The registers that hold groups of the code keep their values. -/
theorem codeRecord_groups (h : CodeGroupsFit ds) :
    (codeRecord ds).vid.toNat = codeVid ds ∧ (codeRecord ds).pid.toNat = codePid ds ∧
    (codeRecord ds).disc.toNat = codeShortDisc ds * 2 ^ 8 ∧ (codeRecord ds).passcode.toNat = codePasscode ds := by
  have hkeep {v : Nat} (hv : v < 2 ^ 32) : (BitVec.ofNat 32 v).toNat = v :=
    (BitVec.toNat_ofNat ..).trans (Nat.mod_eq_of_lt hv)
  have hdisc : codeShortDisc ds * 2 ^ 8 < 2 ^ 4 * 2 ^ 8 := Nat.mul_lt_mul_of_pos_right (codeShortDisc_lt h) (by decide)
  have hpass := codePasscode_lt h
  obtain ⟨-, -, -, hvid, hpid⟩ := h
  exact ⟨hkeep (hvid.trans_lt (by decide)), hkeep (hpid.trans_lt (by decide)), hkeep (hdisc.trans (by decide)),
    hkeep (hpass.trans (by decide))⟩

theorem codeRecord_flow : (codeRecord ds).flow = if ds.length = 21 then 2 else 0 := by
  simp only [codeRecord, manualRecord, decide_eq_true_eq]

end

/-- Settles O54: the record is that of the code's groups. -/
theorem parseReadsTheManualForm : Obligations.ParseReadsTheManualForm := by
  intro s strict ds hd hl hform hheld hn c1 c2 c3 vid pid fits flag passcode
  have hexec : exec (.pcParse strict) s = commit s (manualParse ds s) :=
    execPcParse_of_digits strict hd hl hform hheld hn
  rw [hexec, commit_manualParse_eq]
  refine ⟨fun hsum => ?_, fun hsum hfit => ?_, fun hsum hfit hflag => ?_, fun hsum hfit hflag hpass => ?_,
    fun hsum hfit hflag hpass => ?_⟩
  · rw [if_pos (Bool.eq_false_iff.1 hsum)]
    rfl
  · rw [if_neg (not_not.2 hsum), if_pos hfit]
    rfl
  · rw [if_neg (not_not.2 hsum), if_neg (not_not.2 hfit), if_pos hflag]
    rfl
  · rw [if_neg (not_not.2 hsum), if_neg (not_not.2 hfit), if_neg (not_not.2 hflag), if_pos hpass]
    rfl
  · rw [if_neg (not_not.2 hsum), if_neg (not_not.2 hfit), if_neg (not_not.2 hflag), if_neg (not_not.2 hpass)]
    obtain ⟨hvid, hpid, hdisc, hpasscode⟩ := codeRecord_groups hfit
    exact ⟨codeRecord ds, rfl, rfl, hvid, hpid, codeRecord_flow, rfl, hdisc, hpasscode, rfl, rfl⟩

end Sys2Proof.Machine

/-! SUPPORT. The decoders after the encoders (43_payload.md R181, R182): a parsed QR text encoded again, and a manual code
with one digit altered (42_verhoeff.md R160). -/

namespace Sys2Proof.Machine

theorem Memory.holds_writeSeq (m : Memory) (l : List Byte) : Memory.holds (m.writeSeq 0 l) l :=
  fun k hk => (Memory.read_writeSeq_zero l m k).trans (if_pos hk)

/-! ## A parsed QR text, encoded again -/

/-- A state with a QR text in CHARS, and the state that parsing it gives, behind the bytes `b` of the text (R180, R181). -/
structure QrParsed (s t : State) (b : List Byte) : Prop where
  clen : 3 + b38len b.length = s.clen.toNat
  chars : Memory.holds s.chars (qrMarker ++ b38enc b)
  room : s.clen.toNat ≤ s.cfg.charCap
  header : 11 ≤ b.length
  tlvRoom : b.length - 11 ≤ s.cfg.tlvCap
  version : (parseHeader b).version = 0
  flow : (parseHeader b).flow ≠ 3
  passcode : PasscodeValid s.cfg (parseHeader b).passcode.toNat
  tlv : (parseHeader b).flow = 2 → b.length ≠ 11
  next : t = (storeTlv (s.setRecord (parseHeader b)) (b.drop 11)).setErr .none

section
variable {s t : State} {b : List Byte}

/-- A parse that succeeds without the short discriminator has taken the QR path (R181, R184). -/
theorem qrParsed_of_parse {strict : Bool} (h : execPcParse strict s = .next t) (herr : t.err = .none)
    (hshort : t.record.discShort = false) : ∃ b, QrParsed s t b := by
  rcases execPcParse_next h with ⟨e, he, rfl⟩ | ⟨text, s', hl, hheld, hroom, ⟨hmarker, hs⟩ | ⟨-, -, hs⟩, rfl⟩
  · exact absurd herr he
  · obtain ⟨b, hb, hheader, htlvRoom, hversion, hflow, hpass, htlv, -, rfl⟩ := qrParse_ok hs
    have htext : qrMarker ++ b38enc b = text := by
      rw [b38dec_eq_ok_iff.1 hb, ← hasQrMarker_iff.1 hmarker, List.take_append_drop]
    have hlen : 3 + b38len b.length = text.length := by
      rw [← htext, List.length_append, length_b38enc]
      rfl
    exact ⟨b, hlen.trans hl, htext ▸ hheld, hroom, hheader, htlvRoom, hversion, hflow, (passcodeOk_iff _ _).1 hpass,
      htlv, rfl⟩
  · obtain ⟨r, -, hr, rfl⟩ := manualParse_ok hs
    exact absurd (hr.symm.trans hshort) (by decide)

theorem QrParsed.tlvlen (h : QrParsed s t b) (hwf : s.cfg.Wf) : t.tlvlen.toNat = b.length - 11 := by
  obtain ⟨-, -, -, htlvCap, -⟩ := hwf
  have hcount : b.length - 11 < 2 ^ 32 := h.tlvRoom.trans_lt htlvCap
  rw [h.next, storeTlv_eq, List.length_drop]
  exact (BitVec.toNat_ofNat ..).trans (Nat.mod_eq_of_lt hcount)

theorem QrParsed.holds_tlv (h : QrParsed s t b) : Memory.holds t.tlv (b.drop 11) := by
  rw [h.next]
  exact Memory.holds_writeSeq s.tlv (b.drop 11)

/-- What the parse has checked is what PC.ENCQR checks, nonzero padding apart (R174, R181). -/
theorem QrParsed.encodable (h : QrParsed s t b) (hwf : s.cfg.Wf) (hpad : t.record.padding = 0) :
    QrEncodable t.cfg t.record t.tlvlen.toNat := by
  rw [h.tlvlen hwf]
  obtain rfl := h.next
  refine ⟨h.version, parseHeader_widthsFit b, h.tlvRoom, ?_⟩
  have hheader := h.header
  rintro (hflow | hpass | hnonzero | ⟨hflow, hnone⟩ | hshort)
  · exact h.flow hflow
  · exact hpass h.passcode
  · exact hnonzero hpad
  · exact h.tlv hflow (by omega)
  · cases hshort

end

/-- Settles O57: PC.ENCQR finds the payload that the text decodes to, whose Base38 form is the text. -/
theorem parsedQrTextReencodes : Obligations.ParsedQrTextReencodes := by
  intro s t strict hwf hx herr hshort hpad
  obtain ⟨b, h⟩ := qrParsed_of_parse hx herr hshort
  have hbytes : 11 + (b.length - 11) = b.length := Nat.add_sub_cancel' h.header
  have hl : (b.drop 11).length = t.tlvlen.toNat := by rw [h.tlvlen hwf, List.length_drop]
  have hcfg : t.cfg = s.cfg := by rw [h.next]; rfl
  have hchars : t.chars = s.chars := by rw [h.next]; rfl
  have hpayload : qrBytes t.record (b.drop 11) = b := by
    obtain rfl := h.next
    exact qrBytes_parseHeader h.header h.version hpad
  obtain ⟨-, hencqr⟩ := encqrWritesTheQrTextOrRaises
  obtain ⟨-, -, -, -, -, hencode⟩ := hencqr t
  obtain ⟨u, hu, hframe, hread⟩ := hencode (b.drop 11) hl h.holds_tlv (h.encodable hwf hpad)
    (by rw [h.tlvlen hwf, hbytes, h.clen, hcfg]; exact h.room)
  rw [List.length_drop, hbytes, h.clen] at hframe hread
  rw [hpayload, hchars] at hread
  refine ⟨u, hu, by rw [hframe], by rw [hframe, BitVec.ofNat_toNat, BitVec.setWidth_eq], fun a => ?_⟩
  rw [hread a]
  split
  · refine (h.chars a ?_).symm
    rw [List.length_append, length_b38enc]
    exact lt_of_lt_of_eq ‹_› h.clen.symm
  · rfl

/-! ## One digit altered -/

theorem vMul_left_cancel {a b c : Nat} (ha : a < 10) (hb : b < 10) (hc : c < 10) (h : vMul a b = vMul a c) :
    b = c := by
  have key : ∀ a b c : Fin 10, vMul a b = vMul a c → b = c := by decide
  exact Fin.mk.inj (key ⟨a, ha⟩ ⟨b, hb⟩ ⟨c, hc⟩ h)

theorem vPerm_inj {r a b : Nat} (hr : r < 8) (ha : a < 10) (hb : b < 10) (h : vPerm r a = vPerm r b) : a = b := by
  have key : ∀ (r : Fin 8) (a b : Fin 10), vPerm r a = vPerm r b → a = b := by decide
  exact Fin.mk.inj (key ⟨r, hr⟩ ⟨a, ha⟩ ⟨b, hb⟩ h)

/-- The digits left of a sequence multiply its accumulator on the right (R153). -/
theorem vacc_append (xs ys : List Nat) {offset : Nat} (hx : ∀ d ∈ xs, d < 10) (hy : ∀ d ∈ ys, d < 10) :
    vacc (xs ++ ys) offset = vMul (vacc ys offset) (vaccFrom xs.reverse (offset + ys.length) 0) := by
  have hrev : ∀ d ∈ xs.reverse, d < 10 := fun d h => hx d (List.mem_reverse.1 h)
  have hacc := vacc_lt hy offset
  calc vacc (xs ++ ys) offset
      = vaccFrom xs.reverse (offset + ys.length) (vacc ys offset) := by
        rw [vacc, List.reverse_append, vaccFrom_append, List.length_reverse]
        rfl
    _ = vaccFrom xs.reverse (offset + ys.length) (vMul (vacc ys offset) 0) := by rw [vMul_zero hacc]
    _ = vMul (vacc ys offset) (vaccFrom xs.reverse (offset + ys.length) 0) := vaccFrom_vMul _ _ hrev hacc (by omega)

/-- Two digits that both make a sequence valid at one place are the same (R160). -/
theorem eq_of_vvalid {xs ys : List Nat} {a b : Nat} (hx : ∀ d ∈ xs, d < 10) (hy : ∀ d ∈ ys, d < 10) (ha : a < 10)
    (hb : b < 10) (hva : vvalid (xs ++ a :: ys) = true) (hvb : vvalid (xs ++ b :: ys) = true) : a = b := by
  have hacc := vacc_lt hy 0
  have hrow : (ys.length + 0) % 8 < 8 := Nat.mod_lt _ (by decide)
  have hleft := vaccFrom_lt xs.reverse (0 + (ys.length + 1)) 0 (fun d h => hx d (List.mem_reverse.1 h)) (by decide)
  have hinv {c : Nat} (hc : c < 10) (hv : vvalid (xs ++ c :: ys) = true) :
      vMul (vacc ys 0) (vPerm ((ys.length + 0) % 8) c) = vInv (vaccFrom xs.reverse (0 + (ys.length + 1)) 0) := by
    rw [vvalid_iff, vacc_append xs (c :: ys) hx (List.forall_mem_cons.2 ⟨hc, hy⟩), vacc_cons, List.length_cons] at hv
    exact (vMul_eq_zero_iff_left hleft (vMul_lt hacc (vPerm_lt hrow hc))).1 hv
  have heq := (hinv ha hva).trans (hinv hb hvb).symm
  exact vPerm_inj hrow ha hb (vMul_left_cancel hacc (vPerm_lt hrow ha) (vPerm_lt hrow hb) heq)

theorem vvalid_set_eq_false {ds : List Nat} {k d : Nat} (hd : ∀ x ∈ ds, x < 10) (hk : k < ds.length) (hlt : d < 10)
    (hne : ds[k] ≠ d) (hv : vvalid ds = true) : vvalid (ds.set k d) = false := by
  have hsplit : ds = ds.take k ++ ds[k] :: ds.drop (k + 1) := by
    rw [List.getElem_cons_drop, List.take_append_drop]
  rw [hsplit] at hv
  rw [List.set_eq_take_append_cons_drop, if_pos hk]
  exact Bool.eq_false_iff.2 fun hset => hne (eq_of_vvalid (fun x hx => hd x (List.mem_of_mem_take hx))
    (fun x hx => hd x (List.mem_of_mem_drop hx)) (hd _ (List.getElem_mem hk)) hlt hv hset)

/-- Writing one element of a sequence that a memory holds. -/
theorem Memory.holds_write_set {m : Memory} {l : List Byte} (h : Memory.holds m l) (k : Nat) (v : Byte) :
    Memory.holds (m.write k v) (l.set k v) := by
  intro a ha
  rw [List.length_set] at ha
  rw [Memory.read_write, List.getElem?_set, h a ha]
  by_cases hak : a = k
  · rw [if_pos hak, if_pos hak.symm, if_pos (hak ▸ ha)]
  · rw [if_neg hak, if_neg (Ne.symm hak)]

/-- A state with a manual code of the digits `ds` in CHARS (R177, R178). -/
structure HoldsCode (s : State) (ds : List Nat) : Prop where
  digits : ∀ d ∈ ds, d < 10
  clen : ds.length = s.clen.toNat
  form : ds.length = 11 ∨ ds.length = 21
  chars : Memory.holds s.chars (ds.map digitChar)
  room : s.clen.toNat ≤ s.cfg.charCap

section
variable {s t : State} {ds : List Nat}

/-- PC.ENCMAN without an error leaves the code of the record in CHARS. -/
theorem holdsCode_of_encman (hwf : s.cfg.Wf) (h : execPcEncman s = .next t) (herr : t.err = .none) :
    HoldsCode t (manualDigits s.record) := by
  rcases execPcEncman_next h with ⟨e, he, rfl⟩ | ⟨-, -, -, -, -, rfl⟩
  · exact absurd herr he
  · obtain ⟨-, -, ⟨hcap, -⟩, -⟩ := hwf
    have hform : (manualDigits s.record).length = 11 ∨ (manualDigits s.record).length = 21 := by
      rw [length_manualDigits]
      split
      · exact .inl rfl
      · exact .inr rfl
    have hlen : (manualText s.record).length = (manualDigits s.record).length := by rw [manualText_eq, List.length_map]
    have hclen : (manualDigits s.record).length = ((storeChars s (manualText s.record)).setErr .none).clen.toNat := by
      rw [storeChars_eq, hlen]
      exact (Nat.mod_eq_of_lt (by omega)).symm.trans (BitVec.toNat_ofNat ..).symm
    refine ⟨manualDigits_lt _, hclen, hform, Memory.holds_writeSeq s.chars (manualText s.record), ?_⟩
    rw [← hclen]
    exact le_trans (by omega : _ ≤ 24) hcap

theorem HoldsCode.read (h : HoldsCode s ds) {k : Nat} (hk : k < ds.length) :
    s.chars.read k = some (digitChar ds[k]) := by
  rw [h.chars k (by rwa [List.length_map]), List.getElem?_map, List.getElem?_eq_getElem hk, Option.map_some]

/-- Writing a digit over one of the code gives the code with that digit altered. -/
theorem HoldsCode.set (h : HoldsCode s ds) (k : Nat) {d : Nat} (hd : d < 10) :
    HoldsCode { s with chars := s.chars.write k (digitChar d) } (ds.set k d) := by
  have hlen : (ds.set k d).length = ds.length := List.length_set
  refine ⟨fun x hx => ?_, hlen.trans h.clen, by rw [hlen]; exact h.form, ?_, h.room⟩
  · rcases List.mem_or_eq_of_mem_set hx with hx | rfl
    · exact h.digits x hx
    · exact hd
  · rw [List.map_set]
    exact Memory.holds_write_set h.chars k (digitChar d)

/-- The checksum is what PC.PARSE checks first (R182). -/
theorem HoldsCode.parse_of_invalid (h : HoldsCode s ds) (strict : Bool) (hv : vvalid ds = false) :
    exec (.pcParse strict) s = .next { s with err := .checksumMismatch } := by
  obtain ⟨hchecksum, -⟩ := parseReadsTheManualForm s strict ds h.digits h.clen h.form h.chars h.room
  exact hchecksum hv

end

/-- Settles O58: the altered digits are not valid, so PC.PARSE ends at its first check. -/
theorem alteredManualCodeIsRejected : Obligations.AlteredManualCodeIsRejected := by
  intro s s1 strict k d hwf hx herr hk hd hne
  have h : HoldsCode s1 (manualDigits s.record) := holdsCode_of_encman hwf hx herr
  have hk' : k < (manualDigits s.record).length := hk.trans_eq h.clen.symm
  have hdigit : (manualDigits s.record)[k] ≠ d := by
    rintro rfl
    exact hne (h.read hk')
  exact (h.set k hd).parse_of_invalid strict
    (vvalid_set_eq_false h.digits hk' hd hdigit (vvalid_manualDigits s.record))

end Sys2Proof.Machine

/-! What a failed command changes (60_exceptions.md R223, R229). -/

namespace Sys2Proof.Machine

/-- Settles O22: every command is the commit of its pseudocode; a commit that reports an error takes the state the
command found, and one that writes results reports success. -/
theorem failedCommandChangesOnlyStatus : Obligations.FailedCommandChangesOnlyStatus := by
  intro i s t hx herr
  obtain ⟨r, hcommit, -⟩ := exec_ends i s
  rw [hcommit] at hx
  rcases commit_next hx with ⟨e, -, rfl⟩ | ⟨s', -, rfl⟩
  · rfl
  · exact absurd rfl herr

end Sys2Proof.Machine

/-! What a step does with no host access pending (70_reset_and_hazards.md R251). -/

namespace Sys2Proof.Machine

/-- Settles O6: an empty host list makes the fetch idle, and an idle fetch is a step that leaves the state as it is. -/
theorem stepWaitsForTheHost : Obligations.StepWaitsForTheHost := by
  intro s hidle
  exact step_idle hidle

end Sys2Proof.Machine

/-! SUPPORT. The laws the spec derives for the BitBuffer (40_bitbuffer.md R108, R109): written fields are read back in
order, appended bytes are exported unchanged. -/

namespace Sys2Proof.Machine

/-! ## Written fields -/

/-- A field that BB.WRBITS accepts when it has room (R102). -/
abbrev FieldFits (f : Word × Nat) : Prop := 1 ≤ f.2 ∧ f.2 ≤ 32 ∧ f.1.toNat < 2 ^ f.2

/-- The bits that writing a list of fields appends to S. -/
def fieldBits : List (Word × Nat) → Bits
  | [] => []
  | (v, w) :: fs => bitsOf v.toNat w ++ fieldBits fs

theorem exec_bbWrbits_field {s : State} {v : Word} {w : Nat} (hfit : FieldFits (v, w))
    (hroom : s.stream.length + w ≤ s.cfg.bbCapBits) : exec (.bbWrbits w) { s with arg0 := v } =
      .next { s with arg0 := v, stream := s.stream ++ bitsOf v.toNat w, err := .none } := by
  obtain ⟨h1, h32, hv⟩ : 1 ≤ w ∧ w ≤ 32 ∧ v.toNat < 2 ^ w := hfit
  rw [exec, execBbWrbits_eq, if_neg (by omega), if_neg (Nat.not_le.2 hv), if_neg (Nat.not_lt.2 hroom)]
  rfl

/-- Reading where a field of S begins gives the field's value. -/
theorem exec_bbRdbits_field {s : State} {a c : Bits} {v : Word} {w : Nat} (hfit : FieldFits (v, w))
    (hstream : s.stream = a ++ (bitsOf v.toNat w ++ c)) (hrpos : s.rpos = a.length) :
    exec (.bbRdbits w) s = .next { s with res0 := v, rpos := a.length + w, err := .none } := by
  obtain ⟨h1, h32, hv⟩ : 1 ≤ w ∧ w ≤ 32 ∧ v.toNat < 2 ^ w := hfit
  have havail : w ≤ s.stream.length - s.rpos := by
    rw [hstream, hrpos, List.length_append, List.length_append, length_bitsOf]
    omega
  have hvalue : BitVec.ofNat 32 (fieldAt s.stream s.rpos w) = v := by
    rw [hstream, hrpos, fieldAt_append_bitsOf, Nat.mod_eq_of_lt hv, BitVec.ofNat_toNat, BitVec.setWidth_eq]
  rw [exec, execBbRdbits_eq, if_neg (by omega), if_neg (Nat.not_lt.2 havail), hvalue, hrpos]
  rfl

theorem writeFields_appends {fs : List (Word × Nat)} {s : State} (hfit : ∀ f ∈ fs, FieldFits f)
    (hroom : s.stream.length + (fs.map Prod.snd).sum ≤ s.cfg.bbCapBits) :
    ∃ t, writeFields fs s = .next t ∧ t.stream = s.stream ++ fieldBits fs ∧ t.rpos = s.rpos := by
  induction fs generalizing s with
  | nil => exact ⟨s, rfl, (List.append_nil _).symm, rfl⟩
  | cons f fs ih =>
    obtain ⟨v, w⟩ := f
    obtain ⟨hf, hfs⟩ := List.forall_mem_cons.1 hfit
    rw [List.map_cons, List.sum_cons, ← Nat.add_assoc] at hroom
    have hwrite := exec_bbWrbits_field hf ((Nat.le_add_right _ _).trans hroom)
    obtain ⟨t, ht, hstream, hrpos⟩ := ih hfs
      (s := { s with arg0 := v, stream := s.stream ++ bitsOf v.toNat w, err := .none })
      (by rwa [List.length_append, length_bitsOf])
    refine ⟨t, ?_, ?_, hrpos⟩
    · rw [writeFields, hwrite]
      exact ht
    · rw [hstream, List.append_assoc]
      rfl

/-- Fields at the end of S are read back in order, up to the end. -/
theorem readFields_fieldBits {fs : List (Word × Nat)} {s : State} {a : Bits} (hfit : ∀ f ∈ fs, FieldFits f)
    (hstream : s.stream = a ++ fieldBits fs) (hrpos : s.rpos = a.length) :
    ∃ t, readFields (fs.map Prod.snd) s = some (fs.map Prod.fst, t) ∧ t.rpos = t.stream.length := by
  induction fs generalizing s a with
  | nil => exact ⟨s, rfl, by rw [hstream, hrpos, fieldBits, List.append_nil]⟩
  | cons f fs ih =>
    obtain ⟨v, w⟩ := f
    obtain ⟨hf, hfs⟩ := List.forall_mem_cons.1 hfit
    have hread := exec_bbRdbits_field hf hstream hrpos
    obtain ⟨t, ht, hend⟩ := ih (s := { s with res0 := v, rpos := a.length + w, err := .none })
      (a := a ++ bitsOf v.toNat w) hfs (by rw [List.append_assoc]; exact hstream)
      (by rw [List.length_append, length_bitsOf])
    refine ⟨t, ?_, hend⟩
    simp only [List.map_cons, readFields, hread, ht, if_true, Option.map_some]

/-- Settles O35: one field by the two commands' effects, a list of fields by induction on it. -/
theorem writtenFieldsAreReadBack : Obligations.WrittenFieldsAreReadBack := by
  refine ⟨fun s v w hrpos hroom h1 h32 hv => ?_, fun s fs hrpos hroom hfit => ?_⟩
  · have hfit : FieldFits (v, w) := ⟨h1, h32, hv⟩
    refine ⟨_, _, exec_bbWrbits_field hfit hroom,
      exec_bbRdbits_field (a := s.stream) (c := []) hfit (by rw [List.append_nil]) hrpos, rfl, rfl, ?_⟩
    rw [List.length_append, length_bitsOf]
  · obtain ⟨s1, hwrite, hstream, hkept⟩ := writeFields_appends hfit hroom
    obtain ⟨t, hread, hend⟩ := readFields_fieldBits hfit hstream (hkept.trans hrpos)
    exact ⟨s1, t, hwrite, hread, hend⟩

/-! ## Appended bytes -/

/-- Bytes appended at a whole-byte position follow the bytes before them in the byte image (R34). -/
theorem byteImage_append_bitImage {stream : Bits} (h : stream.length % 8 = 0) (l : List Byte) :
    byteImage (stream ++ bitImage l) = byteImage stream ++ l := by
  conv_lhs => rw [← bitImage_byteImage stream h, ← bitImage_append, byteImage_bitImage]

theorem exec_bbTobytes_of_room {s : State} (hroom : (byteImage s.stream).length ≤ s.cfg.byteCap) :
    exec .bbTobytes s = .next ((storeBytes s (byteImage s.stream)).setErr .none) := by
  rw [length_byteImage] at hroom
  rw [exec, execBbTobytes_eq, if_neg (Nat.not_lt.2 hroom)]

/-- Settles O36: the image that BB.TOBYTES exports ends in the bytes appended. -/
theorem appendedBytesAreExported : Obligations.AppendedBytesAreExported := by
  intro s l hl hheld heven hroom hcap
  have happend : exec .bbAppend s = .next ((s.setStream (s.stream ++ bitImage l)).setErr .none) := by
    rw [exec, execBbAppend_eq, ← hl, if_neg (by omega), if_neg (not_not.2 heven), if_neg (Nat.not_lt.2 hroom),
      readElems_holds (space := .bytes) rfl hheld]
    rfl
  have himage := byteImage_append_bitImage heven l
  have hbefore : (byteImage s.stream).length = s.stream.length / 8 := by
    rw [length_byteImage]
    omega
  have hlen : (byteImage (s.stream ++ bitImage l)).length = s.stream.length / 8 + l.length := by
    rw [himage, List.length_append, hbefore]
  refine ⟨_, _, happend, exec_bbTobytes_of_room (hlen.trans_le hcap), rfl, congrArg (BitVec.ofNat 32) hlen,
    fun k hk => ?_⟩
  calc (s.bytes.writeSeq 0 (byteImage (s.stream ++ bitImage l))).read (s.stream.length / 8 + k)
    _ = (byteImage (s.stream ++ bitImage l))[s.stream.length / 8 + k]? := Memory.holds_writeSeq _ _ _ (by omega)
    _ = l[k]? := by
      rw [himage, ← hbefore, List.getElem?_append_right (Nat.le_add_right _ k), Nat.add_sub_cancel_left]

end Sys2Proof.Machine

/-! SUPPORT. Base38's derived laws (41_base38.md R134, R138): the lengths of encoding and decoding, and BYTES after
B38.ENC and B38.DEC. -/

namespace Sys2Proof.Machine

/-- Every byte count is that of the text it encodes to (R134). -/
theorem b38bytes_b38len (n : Nat) : b38bytes (b38len n) = n := by
  have hn : (b38enc (List.replicate n 0)).length = b38len n := by rw [length_b38enc, List.length_replicate]
  rw [← hn, ← b38dec_length (b38dec_eq_ok_iff.2 rfl), List.length_replicate]

theorem b38len_eq_getD (n : Nat) : b38len n = 5 * (n / 3) + [0, 2, 4].getD (n % 3) 0 := by
  have hmod : n % 3 = 0 ∨ n % 3 = 1 ∨ n % 3 = 2 := by omega
  rw [b38len]
  rcases hmod with h | h | h <;> rw [h] <;> rfl

/-- Settles O38: each length is that of the groups, and decoding inverts encoding. -/
theorem base38Lengths : Obligations.Base38Lengths :=
  ⟨b38len_eq_getD, length_b38enc, b38bytes_b38len, fun _ _ => b38dec_length⟩

/-- Writing the elements that a memory already holds leaves every element as it was. -/
theorem Memory.read_writeSeq_of_holds {m : Memory} {l : List Byte} (h : Memory.holds m l) (a : Nat) :
    (m.writeSeq 0 l).read a = m.read a := by
  rw [Memory.read_writeSeq_zero]
  split
  · exact (h a ‹_›).symm
  · rfl

theorem ofNat_eq_of_eq_toNat {n : Nat} {w : Word} (h : n = w.toNat) : BitVec.ofNat 32 n = w := by
  rw [h, BitVec.ofNat_toNat, BitVec.setWidth_eq]

theorem toNat_storeChars_clen (s : State) {vs : List Byte} (h : vs.length < 2 ^ 32) :
    (storeChars s vs).clen.toNat = vs.length := by
  rw [storeChars_eq]
  exact (BitVec.toNat_ofNat ..).trans (Nat.mod_eq_of_lt h)

/-- B38.DEC after a command has stored the encoding of some bytes gives the bytes. -/
theorem execB38Dec_storeChars_b38enc {s : State} {l : List Byte} (hwf : s.cfg.Wf) (hcap : l.length ≤ s.cfg.byteCap)
    (hroom : b38len l.length ≤ s.cfg.charCap) :
    execB38Dec ((storeChars s (b38enc l)).setErr .none) =
      .next ((storeBytes ((storeChars s (b38enc l)).setErr .none) l).setErr .none) := by
  obtain ⟨-, -, ⟨-, hchars⟩, -⟩ := hwf
  have hclen : ((storeChars s (b38enc l)).setErr .none).clen.toNat = b38len l.length := by
    rw [State.setErr_clen, toNat_storeChars_clen s (by rw [length_b38enc]; exact hroom.trans_lt hchars), length_b38enc]
  rw [execB38Dec_of_text (text := b38enc l) _ (by rw [hclen, length_b38enc]) (Memory.holds_writeSeq s.chars _)
    (by rw [hclen]; exact hroom) (by rw [hclen]; exact b38len_mod_five _)
    (by rw [hclen, b38bytes_b38len]; exact hcap), b38dec_eq_ok_iff.2 rfl]
  rfl

/-- Settles O42: B38.DEC finds the encoding of the bytes, and writes them over themselves. -/
theorem base38CommandsRoundTrip : Obligations.Base38CommandsRoundTrip := by
  refine ⟨fun s hwf hcap hroom hwritten => ?_, fun s hn hlen => ?_⟩
  · obtain ⟨l, hread⟩ := readElems_written (space := .bytes) hwritten
    obtain ⟨hl, hheld⟩ := holds_of_readElems hread
    have henc : exec .b38Enc s = .next ((storeChars s (b38enc l)).setErr .none) := by
      rw [exec, execB38Enc_eq, if_neg (Nat.not_lt.2 hcap), if_neg (Nat.not_lt.2 hroom), hread]
      rfl
    rw [← hl] at hcap hroom
    exact ⟨_, _, henc, execB38Dec_storeChars_b38enc hwf hcap hroom, rfl, ofNat_eq_of_eq_toNat hl,
      Memory.read_writeSeq_of_holds hheld⟩
  · rw [exec, execB38Dec_eq, if_neg (Nat.not_lt.2 hn), if_pos hlen]
    rfl

end Sys2Proof.Machine

/-! SUPPORT. Verhoeff's derived law (42_verhoeff.md R160): the errors that the tables detect at every position. -/

namespace Sys2Proof.Machine

/-- The table property behind the detection of swaps: neighbouring rows of p, the last and the first among them, do not
let two different digits change places. -/
theorem eq_of_vMul_vPerm_swap {r a b : Nat} (hr : r < 8) (ha : a < 10) (hb : b < 10)
    (h : vMul (vPerm r b) (vPerm ((r + 1) % 8) a) = vMul (vPerm r a) (vPerm ((r + 1) % 8) b)) : a = b := by
  have key : ∀ (r : Fin 8) (a b : Fin 10),
      vMul (vPerm r b) (vPerm ((r + 1 : Nat) % 8) a) = vMul (vPerm r a) (vPerm ((r + 1 : Nat) % 8) b) → a = b := by
    decide
  exact Fin.mk.inj (key ⟨r, hr⟩ ⟨a, ha⟩ ⟨b, hb⟩ h)

/-- The digits to the left of a sequence fix which accumulators of it are valid. -/
theorem vvalid_append_iff_vacc {xs zs : List Nat} (hx : ∀ d ∈ xs, d < 10) (hz : ∀ d ∈ zs, d < 10) :
    vvalid (xs ++ zs) = true ↔ vacc zs 0 = vInv (vaccFrom xs.reverse (0 + zs.length) 0) := by
  have hleft := vaccFrom_lt xs.reverse (0 + zs.length) 0 (fun d h => hx d (List.mem_reverse.1 h)) (by decide)
  rw [vvalid_iff, vacc_append xs zs hx hz, vMul_eq_zero_iff_left hleft (vacc_lt hz 0)]

/-- The accumulator of two digits to the left of a sequence (R153). -/
theorem vacc_cons_cons {a b : Nat} {ys : List Nat} (hy : ∀ d ∈ ys, d < 10) (ha : a < 10) (hb : b < 10) :
    vacc (a :: b :: ys) 0 =
      vMul (vacc ys 0) (vMul (vPerm (ys.length % 8) b) (vPerm ((ys.length % 8 + 1) % 8) a)) := by
  have hrow (n : Nat) : n % 8 < 8 := Nat.mod_lt n (by decide)
  rw [vacc_cons, vacc_cons, List.length_cons, Nat.add_zero, Nat.add_zero, Nat.mod_add_mod,
    vMul_assoc (vacc_lt hy 0) (vPerm_lt (hrow _) hb) (vPerm_lt (hrow _) ha)]

/-- Two neighbouring digits that are valid in both orders are the same (R160). -/
theorem eq_of_vvalid_swap {xs ys : List Nat} {a b : Nat} (hx : ∀ d ∈ xs, d < 10) (hy : ∀ d ∈ ys, d < 10) (ha : a < 10)
    (hb : b < 10) (hab : vvalid (xs ++ a :: b :: ys) = true) (hba : vvalid (xs ++ b :: a :: ys) = true) : a = b := by
  have hrow (n : Nat) : n % 8 < 8 := Nat.mod_lt n (by decide)
  have hpair {c d : Nat} (hc : c < 10) (hd : d < 10) : vMul (vPerm (ys.length % 8) c)
      (vPerm ((ys.length % 8 + 1) % 8) d) < 10 := vMul_lt (vPerm_lt (hrow _) hc) (vPerm_lt (hrow _) hd)
  rw [vvalid_append_iff_vacc hx (List.forall_mem_cons.2 ⟨ha, List.forall_mem_cons.2 ⟨hb, hy⟩⟩)] at hab
  rw [vvalid_append_iff_vacc hx (List.forall_mem_cons.2 ⟨hb, List.forall_mem_cons.2 ⟨ha, hy⟩⟩)] at hba
  have hacc : vacc (a :: b :: ys) 0 = vacc (b :: a :: ys) 0 := hab.trans hba.symm
  rw [vacc_cons_cons hy ha hb, vacc_cons_cons hy hb ha] at hacc
  exact eq_of_vMul_vPerm_swap (hrow _) ha hb (vMul_left_cancel (vacc_lt hy 0) (hpair hb ha) (hpair ha hb) hacc)

/-- Settles O43: the check digit validates, and what is valid both before and after an error is no error. -/
theorem verhoeffDetectsErrors : Obligations.VerhoeffDetectsErrors :=
  ⟨fun _ => vvalid_append_vcheck,
    fun _ _ _ _ hx hy ha hb hne hv => Bool.eq_false_iff.2 fun hv' => hne (eq_of_vvalid hx hy ha hb hv hv'),
    fun _ _ _ _ hx hy ha hb hne hv => Bool.eq_false_iff.2 fun hv' => hne (eq_of_vvalid_swap hx hy ha hb hv hv')⟩

end Sys2Proof.Machine

/-! SUPPORT. The payload's derived laws (43_payload.md R185): PC.PARSE after PC.ENCQR, and PC.PARSE and PC.ENCMAN after
PC.ENCMAN. -/

namespace Sys2Proof.Machine

/-! ## The QR form -/

/-- The header of a payload gives the record back, when it has nothing that a payload does not carry (R171, R173). -/
theorem parseHeader_qrBytes {r : Record} (tlv : List Byte) (hfit : QrWidthsFit r) (hversion : r.version = 0)
    (hpadding : r.padding = 0) (hshort : r.discShort = false) : parseHeader (qrBytes r tlv) = r := by
  obtain ⟨-, -, h0, h3, h19, h35, h37, h45, h57, h84⟩ := qrPayloadLayout r tlv hfit
  simp only [parseHeader, h0, h3, h19, h35, h37, h45, h57, h84, BitVec.ofNat_toNat, BitVec.setWidth_eq]
  obtain ⟨version, vid, pid, flow, caps, disc, passcode, padding, discShort⟩ := r
  obtain rfl : version = 0 := hversion
  obtain rfl : padding = 0 := hpadding
  obtain rfl : discShort = false := hshort
  rfl

theorem qrEncodable_iff {cfg : Config} {r : Record} {n : Nat} : QrEncodable cfg r n ↔
    r.version = 0 ∧ QrWidthsFit r ∧ n ≤ cfg.tlvCap ∧ r.flow ≠ 3 ∧ PasscodeValid cfg r.passcode.toNat ∧
      r.padding = 0 ∧ ¬ (r.flow = 2 ∧ n = 0) ∧ r.discShort = false := by
  simp only [QrEncodable, QrInvalid, not_or, not_not, ne_eq, Bool.not_eq_true]

/-- A state with the QR text of a record and TLV bytes in CHARS, in which PC.ENCQR finds no error (R172, R174). -/
structure HoldsQrText (s : State) (r : Record) (tlv : List Byte) : Prop where
  clen : 3 + b38len (11 + tlv.length) = s.clen.toNat
  chars : Memory.holds s.chars (qrText r tlv)
  room : s.clen.toNat ≤ s.cfg.charCap
  encodable : QrEncodable s.cfg r tlv.length

section
variable {s t : State} {r : Record} {tlv : List Byte}

/-- PC.ENCQR without an error leaves the text of the record and the TLV bytes in CHARS. -/
theorem holdsQrText_of_encqr (hwf : s.cfg.Wf) (h : execPcEncqr s = .next t) (herr : t.err = .none) :
    ∃ l, l.length = s.tlvlen.toNat ∧ Memory.holds s.tlv l ∧ HoldsQrText t s.record l ∧
      t = (storeChars s (qrText s.record l)).setErr .none := by
  rcases execPcEncqr_next h with ⟨e, he, rfl⟩ |
    ⟨l, hl, hheld, hversion, hwide, hmany, hflow, hpass, hpadding, htlv, hshort, hroom, rfl⟩
  · exact absurd herr he
  obtain ⟨-, -, ⟨-, hchars⟩, -⟩ := hwf
  rw [← hl] at hmany hroom htlv
  have hfit : QrWidthsFit s.record := not_not.1 (mt (qrFieldTooWide_iff _).2 (Bool.eq_false_iff.1 hwide))
  have hclen : (storeChars s (qrText s.record l)).clen.toNat = 3 + b38len (11 + l.length) := by
    rw [toNat_storeChars_clen s (by rw [length_qrText]; exact hroom.trans_lt hchars), length_qrText]
  have hencodable : QrEncodable s.cfg s.record l.length := qrEncodable_iff.2 ⟨hversion, hfit, hmany, hflow,
    (passcodeOk_iff _ _).1 hpass, hpadding, not_and.2 htlv, hshort⟩
  exact ⟨l, hl, hheld, ⟨hclen.symm, Memory.holds_writeSeq s.chars _, hclen.trans_le hroom, hencodable⟩, rfl⟩

/-- The text decodes to the payload, which passes every check of the parse (R180, R181). -/
theorem HoldsQrText.parse (h : HoldsQrText s r tlv) (strict : Bool) :
    exec (.pcParse strict) s = .next ((storeTlv (s.setRecord r) tlv).setErr .none) := by
  obtain ⟨hversion, hfit, hmany, hflow, hpass, hpadding, htlv, hshort⟩ := qrEncodable_iff.1 h.encodable
  have hheader := parseHeader_qrBytes tlv hfit hversion hpadding hshort
  obtain ⟨hlen, hdrop, h0, -, -, h35, -, -, h57, h84⟩ := qrPayloadLayout r tlv hfit
  have hvalid : ¬ QrParseInvalid s.cfg strict (qrBytes r tlv) := by
    rw [QrParseInvalid, h35, h57, h84, hlen]
    rintro (h3 | hbad | ⟨h2, h11⟩ | ⟨-, hnonzero⟩)
    · exact hflow (BitVec.eq_of_toNat_eq h3)
    · exact hbad hpass
    · exact htlv ⟨BitVec.eq_of_toNat_eq h2, by omega⟩
    · exact hnonzero rfl
  rw [exec, execPcParse_of_qrText (u := b38enc (qrBytes r tlv)) strict (by rw [length_b38enc, hlen, h.clen]) h.chars
    h.room, commit_qrParse_of_bytes (b38dec_eq_ok_iff.2 rfl), if_neg (by omega), if_neg (by omega),
    if_neg (not_not.2 h0), if_neg hvalid, hheader, hdrop]

end

/-- Settles O55: the parse gives the record and writes the TLV bytes over themselves. -/
theorem qrFormRoundTrips : Obligations.QrFormRoundTrips := by
  intro s s1 strict hwf hx herr
  obtain ⟨l, hl, hheld, htext, hs1⟩ := holdsQrText_of_encqr hwf hx herr
  obtain ⟨-, -, -, -, -, hpadding, -, hshort⟩ := qrEncodable_iff.1 htext.encodable
  have htlv : s1.tlv = s.tlv := by simp only [hs1, storeChars_eq, State.setErr_tlv]
  refine ⟨_, htext.parse strict, rfl, rfl, hpadding, hshort, ofNat_eq_of_eq_toNat hl, fun a => ?_⟩
  rw [State.setErr_tlv, storeTlv_eq, State.setRecord_tlv, htlv]
  exact Memory.read_writeSeq_of_holds hheld a

/-! ## The manual form -/

section
variable {r : Record}

/-! What the groups of a record's code are read back as (R182, R183). -/

theorem codeC1_manualDigits (hfit : ManualWidthsFit r) :
    codeC1 (manualDigits r) = (if r.flow = 0 then 0 else 4) + r.disc.toNat / 2 ^ 10 := by
  obtain ⟨-, hdisc, -⟩ := hfit
  exact num_manualDigits_c1.trans (manualC1_eq hdisc)

theorem codeC2_manualDigits :
    codeC2 (manualDigits r) = r.disc.toNat / 2 ^ 8 % 4 * 2 ^ 14 + r.passcode.toNat % 2 ^ 14 :=
  num_manualDigits_c2.trans manualC2_eq

theorem codeC3_manualDigits (hpass : r.passcode.toNat < 2 ^ 27) :
    codeC3 (manualDigits r) = r.passcode.toNat / 2 ^ 14 :=
  num_manualDigits_c3.trans (manualC3_eq hpass)

theorem codeShortDisc_manualDigits (hfit : ManualWidthsFit r) :
    codeShortDisc (manualDigits r) = r.disc.toNat / 2 ^ 8 := by
  rw [codeShortDisc, codeC1_manualDigits hfit, codeC2_manualDigits]
  obtain ⟨-, hdisc, -⟩ := hfit
  split <;> omega

theorem codePasscode_manualDigits (hpass : r.passcode.toNat < 2 ^ 27) :
    codePasscode (manualDigits r) = r.passcode.toNat := by
  rw [codePasscode, codeC3_manualDigits hpass, codeC2_manualDigits]
  omega

theorem length_manualDigits_eq_iff : (manualDigits r).length = 21 ↔ r.flow ≠ 0 := by
  rw [length_manualDigits]
  by_cases hflow : r.flow = 0
  · rw [if_pos hflow]
    exact iff_of_false (by decide) (not_not.2 hflow)
  · rw [if_neg hflow]
    exact iff_of_true rfl hflow

theorem codeVid_manualDigits (hfit : ManualWidthsFit r) (hflow : r.flow ≠ 0) :
    codeVid (manualDigits r) = r.vid.toNat := by
  obtain ⟨-, -, hlong⟩ := hfit
  rw [codeVid, if_pos (length_manualDigits_eq_iff.2 hflow), num_manualDigits_vid hflow (hlong hflow).1]

theorem codePid_manualDigits (hfit : ManualWidthsFit r) (hflow : r.flow ≠ 0) :
    codePid (manualDigits r) = r.pid.toNat := by
  obtain ⟨-, -, hlong⟩ := hfit
  rw [codePid, if_pos (length_manualDigits_eq_iff.2 hflow), num_manualDigits_pid hflow (hlong hflow).2]

theorem codeGroupsFit_manualDigits (hfit : ManualWidthsFit r) (hpass : r.passcode.toNat < 2 ^ 27) :
    CodeGroupsFit (manualDigits r) := by
  obtain ⟨-, hdisc, hlong⟩ := id hfit
  refine ⟨?_, ?_, ?_, ?_, ?_⟩
  · rw [codeC1_manualDigits hfit]
    split <;> omega
  · rw [codeC2_manualDigits]
    omega
  · rw [codeC3_manualDigits hpass]
    omega
  · by_cases hflow : r.flow = 0
    · rw [codeVid, if_neg (not_not.2 hflow ∘ length_manualDigits_eq_iff.1)]
      exact Nat.zero_le _
    · rw [codeVid_manualDigits hfit hflow]
      exact Nat.le_of_lt_succ (hlong hflow).1
  · by_cases hflow : r.flow = 0
    · rw [codePid, if_neg (not_not.2 hflow ∘ length_manualDigits_eq_iff.1)]
      exact Nat.zero_le _
    · rw [codePid_manualDigits hfit hflow]
      exact Nat.le_of_lt_succ (hlong hflow).2

theorem codeFlagAgrees_manualDigits (hfit : ManualWidthsFit r) : CodeFlagAgrees (manualDigits r) := by
  simp only [CodeFlagAgrees, codeC1_manualDigits hfit, length_manualDigits_eq_iff, ite_not]
  obtain ⟨-, hdisc, -⟩ := hfit
  split <;> omega

/-- A code depends on the form, short discriminator, passcode and, in the long form, VID and PID (R176, R177). -/
theorem manualText_congr {q : Record} (hlong : longForm q = longForm r) (hshort : shortDisc q = shortDisc r)
    (hpass : q.passcode = r.passcode) (hids : r.flow ≠ 0 → q.vid = r.vid ∧ q.pid = r.pid) :
    manualText q = manualText r := by
  have hbody : manualBody q = manualBody r := by
    simp only [manualBody, manualC1, manualC2, manualC3, hlong, hshort, hpass]
    refine congrArg _ (ite_congr rfl (fun hl => ?_) fun _ => rfl)
    obtain ⟨hvid, hpid⟩ := hids (longForm_eq_true_iff.1 hl)
    rw [hvid, hpid]
  rw [manualText, manualText, hbody]

end

/-- The record of a code passes PC.ENCMAN's checks of widths and flow (R178, R184). -/
theorem codeRecord_widthsFit {ds : List Nat} (h : CodeGroupsFit ds) :
    ManualWidthsFit (codeRecord ds) ∧ (codeRecord ds).flow ≠ 3 := by
  obtain ⟨hvid, hpid, hdisc, -⟩ := codeRecord_groups h
  have hshort := codeShortDisc_lt h
  obtain ⟨-, -, -, hvidFits, hpidFits⟩ := h
  rw [ManualWidthsFit, codeRecord_flow, hvid, hpid, hdisc]
  refine ⟨⟨?_, by omega, fun _ => ⟨Nat.lt_succ_of_le hvidFits, Nat.lt_succ_of_le hpidFits⟩⟩, ?_⟩
  · split <;> decide
  · split <;> decide

/-- A record `q` has what a manual code carries of the record `r`: the passcode, the short discriminator, in the long
form VID and PID, and so the code itself (R185). -/
structure CodeGivesBack (r q : Record) : Prop where
  passcode : q.passcode = r.passcode
  disc : q.disc.toNat = r.disc.toNat / 2 ^ 8 * 2 ^ 8
  ids : r.flow ≠ 0 → q.vid = r.vid ∧ q.pid = r.pid
  text : manualText q = manualText r

theorem codeGivesBack_codeRecord {r : Record} (hfit : ManualWidthsFit r) (hpass : r.passcode.toNat < 2 ^ 27) :
    CodeGivesBack r (codeRecord (manualDigits r)) := by
  obtain ⟨hvid, hpid, hdisc, hpasscode⟩ := codeRecord_groups (codeGroupsFit_manualDigits hfit hpass)
  rw [codeShortDisc_manualDigits hfit] at hdisc
  rw [codePasscode_manualDigits hpass] at hpasscode
  have hids : r.flow ≠ 0 → (codeRecord (manualDigits r)).vid = r.vid ∧ (codeRecord (manualDigits r)).pid = r.pid := by
    intro hflow
    rw [codeVid_manualDigits hfit hflow] at hvid
    rw [codePid_manualDigits hfit hflow] at hpid
    exact ⟨BitVec.eq_of_toNat_eq hvid, BitVec.eq_of_toNat_eq hpid⟩
  have hlong : longForm (codeRecord (manualDigits r)) = longForm r := by
    by_cases hflow : r.flow = 0
    · have hlen : ¬ (manualDigits r).length = 21 := not_not.2 hflow ∘ length_manualDigits_eq_iff.1
      rw [longForm, codeRecord_flow, if_neg hlen, longForm_of_eq hflow]
      rfl
    · rw [longForm, codeRecord_flow, if_pos (length_manualDigits_eq_iff.2 hflow), longForm_of_ne hflow]
      rfl
  have hshort : shortDisc (codeRecord (manualDigits r)) = shortDisc r := by
    rw [shortDisc, shortDisc, hdisc, Nat.mul_div_cancel _ (by decide)]
  have hsame := BitVec.eq_of_toNat_eq hpasscode
  exact ⟨hsame, hdisc, hids, manualText_congr hlong hshort hsame hids⟩

section
variable {s : State} {r : Record}

/-- PC.PARSE of the code of a record that PC.ENCMAN accepts. -/
theorem HoldsCode.parse_manualDigits (h : HoldsCode s (manualDigits r)) (strict : Bool) (hfit : ManualWidthsFit r)
    (hpass : PasscodeValid s.cfg r.passcode.toNat) : exec (.pcParse strict) s =
      .next (((s.setRecord (codeRecord (manualDigits r))).setTlvlen 0).setErr .none) := by
  obtain ⟨-, hmax, -⟩ := id hpass
  have hbits : r.passcode.toNat < 2 ^ 27 := by omega
  rw [exec, execPcParse_of_digits strict h.digits h.clen h.form h.chars h.room, commit_manualParse_eq,
    if_neg (not_not.2 (vvalid_manualDigits r)), if_neg (not_not.2 (codeGroupsFit_manualDigits hfit hbits)),
    if_neg (not_not.2 (codeFlagAgrees_manualDigits hfit)),
    if_neg (by rw [codePasscode_manualDigits hbits]; exact not_not.2 hpass)]

theorem exec_pcEncman_of_accepted (hfit : ManualWidthsFit s.record) (hflow : s.record.flow ≠ 3)
    (hpass : PasscodeValid s.cfg s.record.passcode.toNat) :
    exec .pcEncman s = .next ((storeChars s (manualText s.record)).setErr .none) := by
  rw [exec, execPcEncman_eq, if_neg (not_not.2 hfit), if_neg hflow, if_neg (not_not.2 hpass)]

end

/-- Settles O56: the parse gives the record of the code, which is encoded to the code again. -/
theorem manualFormRoundTrips : Obligations.ManualFormRoundTrips := by
  intro s s1 strict hwf hx herr
  have hcode : HoldsCode s1 (manualDigits s.record) := holdsCode_of_encman hwf hx herr
  rcases execPcEncman_next hx with ⟨e, he, rfl⟩ | ⟨hflow, hdisc, hlong, -, hok, hs1⟩
  · exact absurd herr he
  have hfit : ManualWidthsFit s.record := ⟨hflow, hdisc, fun hne => hlong (longForm_of_ne hne)⟩
  have hcfg : s1.cfg = s.cfg := by simp only [hs1, storeChars_eq, State.setErr_cfg]
  have hpass : PasscodeValid s1.cfg s.record.passcode.toNat := by
    rw [hcfg]
    exact (passcodeOk_iff _ _).1 hok
  have hbits : s.record.passcode.toNat < 2 ^ 27 := by
    obtain ⟨-, hmax, -⟩ := hpass
    omega
  have hheld : Memory.holds s1.chars (manualText s.record) := hcode.chars
  have hback := codeGivesBack_codeRecord hfit hbits
  obtain ⟨hfits, hflow3⟩ := codeRecord_widthsFit (codeGroupsFit_manualDigits hfit hbits)
  refine ⟨_, hcode.parse_manualDigits strict hfit hpass, rfl, hback.passcode, hback.disc, fun h21 => ?_, ?_⟩
  · refine hback.ids (length_manualDigits_eq_iff.1 ?_)
    rw [hcode.clen, h21]
    rfl
  · refine ⟨_, exec_pcEncman_of_accepted hfits hflow3 (by rw [← hback.passcode] at hpass; exact hpass), rfl, ?_,
      fun a => ?_⟩
    · simp only [storeChars_eq, State.setErr_clen, State.setErr_record, State.setTlvlen_record,
        State.setRecord_record, hback.text, hs1]
    · simp only [storeChars_eq, State.setErr_chars, State.setErr_record, State.setTlvlen_chars,
        State.setTlvlen_record, State.setRecord_chars, State.setRecord_record, hback.text]
      exact Memory.read_writeSeq_of_holds hheld a

end Sys2Proof.Machine
